-- ==== Sys2Proof/Word.lean ====
section
/-! DEFINITION. The word types of V210E: bytes, 32-bit words and 64-bit addresses (R9, R11, R60). -/

namespace Sys2Proof

/-- One byte of the memory space (R60). -/
abbrev Byte := BitVec 8

/-- A 32-bit word: a register-port access (R31), a micro-operation word (R96), a packed word (R90). -/
abbrev Word32 := BitVec 32

/-- A byte address, a pointer or a stride: `AW = 64` bits (R9). Addition is modulo `2^64`, the spec's `+%` (R11).
DESIGN CHOICE (log entry 1): `AW` is fixed at the spec's default. -/
abbrev Addr := BitVec 64

end Sys2Proof
end

