-- ==== Sys2Proof/Syntax.lean ====
section
/-! DEFINITION. The instructions of V210E: eleven micro-operations (R104) and three host commands (R108). -/

namespace Sys2Proof

/-- The depth field `D` (R98): `d8` is `D = 0`, the 8-bit routine; `d10` is `D = 1`, the 10-bit routine. -/
inductive Depth where
  | d8
  | d10
  deriving DecidableEq, Repr

/-- A slot of the packed word (R90, R99). The encoding 3 is reserved and has no constructor. -/
inductive Slot where
  | s0
  | s1
  | s2
  deriving DecidableEq, Repr

/-- A source pointer (R100): `P[0] = YP`, `P[1] = UP`, `P[2] = VP` (R20). The encoding 3 is reserved. -/
inductive Src where
  | y
  | u
  | v
  deriving DecidableEq, Repr

/-- A word pattern (R99, R126). -/
inductive Pat where
  | uyv
  | yuy
  | vyu
  | yvy
  deriving DecidableEq, Repr

/-- One constructor per row of `spec/opcode_table.json`. -/
inductive Instr where
  /-- `NOP` (R122). -/
  | nop
  /-- `ACC.d s<slot>, <src>` (R123). -/
  | acc (d : Depth) (slot : Slot) (src : Src)
  /-- `FLUSH` (R124). -/
  | flush
  /-- `WORD.d <pat>` (R125). -/
  | word (d : Depth) (pat : Pat)
  /-- `GROUP.d` (R127). -/
  | group (d : Depth)
  /-- `BULK.d N` (R128): `n` luma samples, 16 bits (R101). -/
  | bulk (d : Depth) (n : Nat)
  /-- `TAIL2.d` (R130). -/
  | tail2 (d : Depth)
  /-- `TAIL4.d` (R131). -/
  | tail4 (d : Depth)
  /-- `ZFILL N` (R151): `n` bytes, 16 bits (R101). -/
  | zfill (n : Nat)
  /-- `ROWSEL` (R162). -/
  | rowsel
  /-- `ROWADV` (R163). -/
  | rowadv
  /-- The host command `INIT` (R164). -/
  | init
  /-- The host command `START` (R165). -/
  | start
  /-- The host command `ACK` (R166). -/
  | ack
  deriving DecidableEq, Repr

/-- The register an instruction's word is written to: `CMD` for a micro-operation (R167), `CTRL` for a host command
(R168). -/
inductive Port where
  | cmd
  | ctrl
  deriving DecidableEq, Repr

/-- Where the instruction's word is written. -/
def Instr.port : Instr → Port
  | .nop => .cmd
  | .acc _ _ _ => .cmd
  | .flush => .cmd
  | .word _ _ => .cmd
  | .group _ => .cmd
  | .bulk _ _ => .cmd
  | .tail2 _ => .cmd
  | .tail4 _ => .cmd
  | .zfill _ => .cmd
  | .rowsel => .cmd
  | .rowadv => .cmd
  | .init => .ctrl
  | .start => .ctrl
  | .ack => .ctrl

end Sys2Proof
end

