-- ==== Sys2Proof/WellFormed.lean ====
section
/-! DEFINITION. Which instruction terms an encoding exists for. The reserved slot and source have no constructor
(Syntax.lean), so the one check left is the width of a count. -/

namespace Sys2Proof

/-- `N` is a 16-bit unsigned count, 0 to 65535 (R101). -/
def countFits (n : Nat) : Bool := n < 65536

/-- An instruction that a 32-bit word can encode (R96, R101). -/
def Instr.wf : Instr → Bool
  | .nop => true
  | .acc _ _ _ => true
  | .flush => true
  | .word _ _ => true
  | .group _ => true
  | .bulk _ n => countFits n
  | .tail2 _ => true
  | .tail4 _ => true
  | .zfill n => countFits n
  | .rowsel => true
  | .rowadv => true
  | .init => true
  | .start => true
  | .ack => true

end Sys2Proof
end

