-- ==== Sys2Proof/Decode.lean ====
section
/-! DEFINITION. Decoding of `CMD` words (R103) and `CTRL` values (R168), total and rejecting by name; then the encoder,
written from R96 and R109, and the opcode map R104 as data. -/

namespace Sys2Proof

/-- Why a word is illegal (R105, R168). Every one of them is answered with `ILL_CMD` (R214). -/
inductive Reject where
  /-- `OPC` 11 to 15. -/
  | reservedOpc
  /-- Bits 22:16 non-zero. -/
  | zeroBits
  /-- A field the operation does not use is non-zero. -/
  | unusedField
  /-- `SLOT = 3` in `ACC`. -/
  | reservedSlot
  /-- `SRC = 3` in `ACC`. -/
  | reservedSrc
  /-- A `CTRL` value other than 1, 2 and 4. -/
  | reservedCtrl
  deriving DecidableEq, Repr

/-- `v[hi:lo]`, the unsigned value of bits `hi` down to `lo` (R11). -/
def bits (v : Word32) (hi lo : Nat) : Nat := v.toNat / 2 ^ lo % 2 ^ (hi - lo + 1)

/-- The depth a `D` bit selects (R98). -/
def depthOf (d : Nat) : Depth := if d = 0 then .d8 else .d10

/-- The slot a `SEL` field names in `ACC` (R99). -/
def slotOf (sel : Nat) : Option Slot :=
  if sel = 0 then some .s0 else if sel = 1 then some .s1 else if sel = 2 then some .s2 else none

/-- The source a `SRC` field names (R100). -/
def srcOf (src : Nat) : Option Src :=
  if src = 0 then some .y else if src = 1 then some .u else if src = 2 then some .v else none

/-- The pattern a `SEL` field names in `WORD` (R99). -/
def patOf (sel : Nat) : Pat :=
  if sel = 0 then .uyv else if sel = 1 then .yuy else if sel = 2 then .vyu else .yvy

/-- Accept `i` when the fields it does not use are 0 (R96). -/
def onlyIf (unusedAreZero : Bool) (i : Instr) : Except Reject Instr :=
  if unusedAreZero then .ok i else .error .unusedField

/-- The `ACC` row of `decode` (R103). -/
def decodeAcc (d sel src n : Nat) : Except Reject Instr :=
  match slotOf sel, srcOf src with
  | none, _ => .error .reservedSlot
  | some _, none => .error .reservedSrc
  | some slot, some c => onlyIf (n = 0) (.acc (depthOf d) slot c)

/-- `decode(c)` of R103 on the fields of the word. -/
def decodeFields (opc d sel src z n : Nat) : Except Reject Instr :=
  if z ≠ 0 then .error .zeroBits
  else if opc = 0 then onlyIf (d = 0 && sel = 0 && src = 0 && n = 0) .nop
  else if opc = 1 then decodeAcc d sel src n
  else if opc = 2 then onlyIf (d = 0 && sel = 0 && src = 0 && n = 0) .flush
  else if opc = 3 then onlyIf (src = 0 && n = 0) (.word (depthOf d) (patOf sel))
  else if opc = 4 then onlyIf (sel = 0 && src = 0 && n = 0) (.group (depthOf d))
  else if opc = 5 then onlyIf (sel = 0 && src = 0) (.bulk (depthOf d) n)
  else if opc = 6 then onlyIf (sel = 0 && src = 0 && n = 0) (.tail2 (depthOf d))
  else if opc = 7 then onlyIf (sel = 0 && src = 0 && n = 0) (.tail4 (depthOf d))
  else if opc = 8 then onlyIf (d = 0 && sel = 0 && src = 0) (.zfill n)
  else if opc = 9 then onlyIf (d = 0 && sel = 0 && src = 0 && n = 0) .rowsel
  else if opc = 10 then onlyIf (d = 0 && sel = 0 && src = 0 && n = 0) .rowadv
  else .error .reservedOpc

/-- Decoding a micro-operation word written to `CMD` (R103), with the field positions of R96. -/
def decodeCmd (c : Word32) : Except Reject Instr :=
  decodeFields (bits c 31 28) (bits c 27 27) (bits c 26 25) (bits c 24 23) (bits c 22 16) (bits c 15 0)

/-- Decoding a value written to `CTRL` (R108, R168). -/
def decodeCtrl (c : Word32) : Except Reject Instr :=
  if c = 1 then .ok .init
  else if c = 2 then .ok .start
  else if c = 4 then .ok .ack
  else .error .reservedCtrl

/-- Decoding of a word by the register it is written to. -/
def decode : Port → Word32 → Except Reject Instr
  | .cmd, c => decodeCmd c
  | .ctrl, c => decodeCtrl c

/-- The instruction read from `nbits` bits whose value is `w`, the bits above being 0. Every word has 32 bits (R96); a
word that is a `CTRL` command is no legal micro-operation, so the two decoders never both accept (log entry 13). -/
def decodeTableWord (nbits w : Nat) : Option Instr :=
  let v := w % 2 ^ nbits
  if v < 2 ^ 32 then
    match decodeCtrl (BitVec.ofNat 32 v) with
    | .ok i => some i
    | .error _ =>
      match decodeCmd (BitVec.ofNat 32 v) with
      | .ok i => some i
      | .error _ => none
  else none

/-! ### The encoder -/

/-- The `D` bit of a depth (R98). -/
def Depth.code : Depth → Nat
  | .d8 => 0
  | .d10 => 1

/-- The `SLOT` field of a slot (R99). -/
def Slot.code : Slot → Nat
  | .s0 => 0
  | .s1 => 1
  | .s2 => 2

/-- The `SRC` field of a source (R100). -/
def Src.code : Src → Nat
  | .y => 0
  | .u => 1
  | .v => 2

/-- The `PAT` field of a pattern (R99). -/
def Pat.code : Pat → Nat
  | .uyv => 0
  | .yuy => 1
  | .vyu => 2
  | .yvy => 3

/-- A word from its fields, each at its position (R96). -/
def packFields (opc d sel src n : Nat) : Word32 :=
  BitVec.ofNat 32 (opc * 2 ^ 28 + d * 2 ^ 27 + sel * 2 ^ 25 + src * 2 ^ 23 + n)

/-- The word of a well-formed instruction (R104, R108, R109). -/
def encode : Instr → Word32
  | .nop => packFields 0 0 0 0 0
  | .acc d slot src => packFields 1 d.code slot.code src.code 0
  | .flush => packFields 2 0 0 0 0
  | .word d pat => packFields 3 d.code pat.code 0 0
  | .group d => packFields 4 d.code 0 0 0
  | .bulk d n => packFields 5 d.code 0 0 n
  | .tail2 d => packFields 6 d.code 0 0 0
  | .tail4 d => packFields 7 d.code 0 0 0
  | .zfill n => packFields 8 0 0 0 n
  | .rowsel => packFields 9 0 0 0 0
  | .rowadv => packFields 10 0 0 0 0
  | .init => 1
  | .start => 2
  | .ack => 4

/-! ### The opcode map -/

/-- The `OPC` value of a micro-operation (R104); the host commands have none. -/
def Instr.opc : Instr → Option Nat
  | .nop => some 0
  | .acc _ _ _ => some 1
  | .flush => some 2
  | .word _ _ => some 3
  | .group _ => some 4
  | .bulk _ _ => some 5
  | .tail2 _ => some 6
  | .tail4 _ => some 7
  | .zfill _ => some 8
  | .rowsel => some 9
  | .rowadv => some 10
  | .init => none
  | .start => none
  | .ack => none

/-- `match`, `mask` and `OPC` of the rows of R104, in its order. -/
def opcodeMap : List (Nat × Word32 × Word32) :=
  [(0, 0x00000000, 0xFFFFFFFF), (1, 0x10000000, 0xF07FFFFF), (2, 0x20000000, 0xFFFFFFFF),
   (3, 0x30000000, 0xF1FFFFFF), (4, 0x40000000, 0xF7FFFFFF), (5, 0x50000000, 0xF7FF0000),
   (6, 0x60000000, 0xF7FFFFFF), (7, 0x70000000, 0xF7FFFFFF), (8, 0x80000000, 0xFFFF0000),
   (9, 0x90000000, 0xFFFFFFFF), (10, 0xA0000000, 0xFFFFFFFF)]

end Sys2Proof
end

