-- ==== Sys2Proof/Config.lean ====
section
/-! DEFINITION. The free values: what the spec leaves open. Each is a constant without a body, so no proof can see it. -/

namespace Sys2Proof

/-- What a byte that nothing has placed or written holds, by address: the launch contents of the memory (R62). The spec
gives none. DESIGN CHOICE (log entry 5), safe: nothing constrains it. -/
opaque Config.unwrittenByte : Nat → Byte

/-- The bytes of the destination region after a reset during a run, "any value" (R242, U6): the first argument is the
count of such resets, the second the byte's offset. DESIGN CHOICE (log entry 9), safe: nothing constrains it. -/
opaque Config.freeByte : Nat → Nat → Byte

end Sys2Proof
end

