-- ==== Sys2Proof/Machine/State.lean ====
section
/-! DEFINITION. The state of one V210E instance (R22), its memory object (R62), and the world it meets (the host's pending
actions), all plain data; the fault and refusal reasons; the state after reset (R52, R241). -/

namespace Sys2Proof.Machine

/-- `ST` (R30). The value 3 is never taken (U11) and has no constructor. -/
inductive RunState where
  | unconf
  | ready
  | busy
  deriving DecidableEq, Repr

/-- `PHASE` (R28). The value 7 is never reached (U11) and has no constructor. -/
inductive Phase where
  | chk
  | sel
  | bulk
  | grp
  | tail
  | fill
  | adv
  deriving DecidableEq, Repr

/-- `ERRCODE` (R34, R217). The values 6 to 15 are never produced (U11) and have no constructor. -/
inductive ErrCode where
  | none
  | cfgOddWidth
  | cfgBadFormat
  | resNoBuffer
  | illCmd
  | hostProtocol
  deriving DecidableEq, Repr

/-- The seven working registers (R23). -/
structure WorkRegs where
  /-- `YP`, address of the next Y sample. -/
  yp : Addr
  /-- `UP`, address of the next U sample. -/
  up : Addr
  /-- `VP`, address of the next V sample. -/
  vp : Addr
  /-- `DP`, address of the next output byte. -/
  dp : Addr
  /-- `UC`, captured U row pointer (R26). -/
  uc : Addr
  /-- `VC`, captured V row pointer (R26). -/
  vc : Addr
  /-- `VAL`, the packed word being assembled (R25). -/
  val : Word32
  deriving DecidableEq, Repr

/-- The sequencer position `seq = (ROW, PHASE, COL)` (R27). -/
structure SeqPos where
  row : BitVec 16
  phase : Phase
  col : BitVec 16
  deriving DecidableEq, Repr

/-- The status flags (R29). -/
structure StatusFlags where
  st : RunState
  done : Bool
  err : Bool
  errcode : ErrCode
  ie : Bool
  deriving DecidableEq, Repr

/-- The setup and per-frame registers (R35 to R37, R40, R42 to R44). -/
structure FrameRegs where
  /-- `FORMAT.FMT` (R35). -/
  fmt : BitVec 2
  width : BitVec 16
  height : BitVec 16
  /-- `FRAMECTL.ILACE` (R40). -/
  ilace : Bool
  yBase : Addr
  uBase : Addr
  vBase : Addr
  yStride : Addr
  uStride : Addr
  vStride : Addr
  dstBase : Addr
  dstSize : Addr
  deriving DecidableEq, Repr

/-- The derived registers (R45). -/
structure DerivedRegs where
  lineStride : BitVec 18
  linePad : BitVec 7
  frameSize : BitVec 64
  deriving DecidableEq, Repr

/-- `VARIANT` (R38): the sample factors the instance was built with (R9). DESIGN CHOICE (log entry 2): held in State, written
by nothing, so that every statement over states is over all factors. -/
structure Variant where
  sf8 : BitVec 4
  sf10 : BitVec 4
  deriving DecidableEq, Repr

/-- The bytes placed or written so far, by strictly rising address. -/
abbrev Memory := List Host.Cell

/-- A range of addresses the platform backs with ordinary memory (R62, R73, R74, R76). The model's own (log entry 4). -/
structure Region where
  base : Nat
  size : Nat
  readable : Bool
  writable : Bool
  deriving DecidableEq, Repr

/-- What the world outside the block can do to it, each action atomic with respect to its steps (R169). A register is named
by the index of its 32-bit slot: byte offset `4 * slot`, since the port expresses no other (R31; log entry 16). -/
inductive HostAct where
  /-- A register write (R47). -/
  | write (slot : Nat) (value : Word32)
  /-- A register read (R49). -/
  | read (slot : Nat)
  /-- The host places a byte in memory (R79, R244). -/
  | poke (a : Addr) (b : Byte)
  /-- The host reads a byte of memory (R79, R244). -/
  | peek (a : Addr)
  /-- The platform asserts the reset input (R240). -/
  | reset
  deriving DecidableEq, Repr

/-- A host action still to come, and how many block steps pass before it while a run is in progress (log entry 7). -/
structure Input where
  after : Nat
  act : HostAct
  deriving DecidableEq, Repr

/-- The whole state. The first five fields are the state R22 lists; `variant` is R38's register; the rest is the memory
object R62 leaves to the model and the model's own view of the outside world. -/
structure State where
  work : WorkRegs
  seq : SeqPos
  flags : StatusFlags
  frame : FrameRegs
  derived : DerivedRegs
  variant : Variant
  mem : Memory
  regions : List Region
  inputs : List Input
  /-- What the last host read returned (log entry 17). -/
  reply : Option Word32
  /-- How many resets hit a run in progress: makes their free bytes fresh (log entry 9). -/
  freeCount : Nat
  deriving DecidableEq, Repr

/-- Why the machine stops. -/
inductive Fault where
  /-- Raised by a memory access (`ACC`, `FLUSH`, `ZFILL` and what is built from them) that falls outside what the platform
  provided: the agent has no step (R76, U2, D22). Safe: the model stops where hardware does something the spec leaves open
  (log entry 6). -/
  | memNotProvided
  deriving DecidableEq, Repr

/-- Why a step has no meaning. -/
inductive Refusal where
  /-- An instruction without a meaning, by its mnemonic. Raised by no arm of `exec`. Safe. -/
  | notModelled (mnemonic : String)
  /-- Raised by a host action of the input list, never by an instruction: the host writes a source byte, or reads or writes a
  destination byte, of the run in progress, which is no move of the model's host (R85, R245, U4). Safe (log entry 8). -/
  | hostTouchesBuffer
  deriving DecidableEq, Repr

/-- All working registers at their reset value (R52). -/
def resetWork : WorkRegs := ⟨0, 0, 0, 0, 0, 0, 0⟩

/-- `seq = (0, CHK, 0)` (R52). -/
def resetSeq : SeqPos := ⟨0, .chk, 0⟩

/-- `ST = UNCONF`, all flags 0 (R52). -/
def resetFlags : StatusFlags := ⟨.unconf, false, false, .none, false⟩

/-- All setup and per-frame registers 0 (R52). -/
def resetFrame : FrameRegs := ⟨0, 0, 0, false, 0, 0, 0, 0, 0, 0, 0, 0⟩

/-- All derived registers 0 (R52). -/
def resetDerived : DerivedRegs := ⟨0, 0, 0⟩

/-- The whole 64-bit space as ordinary memory (R60). DESIGN CHOICE (log entry 4): what a reset state provides. -/
def wholeSpace : Region := ⟨0, 2 ^ 64, true, true⟩

/-- An instance with the given build parameters right after reset (R52, R241). -/
def State.resetFor (v : Variant) : State where
  work := resetWork
  seq := resetSeq
  flags := resetFlags
  frame := resetFrame
  derived := resetDerived
  variant := v
  mem := []
  regions := [wholeSpace]
  inputs := []
  reply := none
  freeCount := 0

/-- The machine right after reset. The sample factors are R9's defaults, 1 and 1: DESIGN CHOICE (log entry 2). -/
def State.reset : State := State.resetFor ⟨1, 1⟩

end Sys2Proof.Machine
end

