-- ==== Sys2Proof/Machine/Ops.lean ====
section
/-! DEFINITION. The named operations over memory and registers (R20): sequencing, the whole-group updates of State, memory
access (R63, R64), raising an error (R215) and clearing the flags (R222). -/

namespace Sys2Proof.Machine

/-- What a step, an instruction or a part of one does. -/
abbrev Op := State → Host.Outcome State Fault Refusal

/-- `a ; b` (R20): every effect of `f` is complete before `g` starts. -/
def andThen (f g : Op) : Op := fun s =>
  match f s with
  | .next t => g t
  | .fault r => .fault r
  | .refused r => .refused r

/-- `repeat k times: f`. -/
def repeatOp : Nat → Op → Op
  | 0, _ => fun s => .next s
  | k + 1, f => andThen f (repeatOp k f)

/-! ### Updates of one group of State -/

def State.setWork (s : State) (w : WorkRegs) : State := { s with work := w }
def State.setSeq (s : State) (q : SeqPos) : State := { s with seq := q }
def State.setFlags (s : State) (f : StatusFlags) : State := { s with flags := f }
def State.setFrame (s : State) (f : FrameRegs) : State := { s with frame := f }
def State.setDerived (s : State) (d : DerivedRegs) : State := { s with derived := d }
def State.setMem (s : State) (m : Memory) : State := { s with mem := m }
def State.setInputs (s : State) (l : List Input) : State := { s with inputs := l }
def State.setReply (s : State) (r : Option Word32) : State := { s with reply := r }

/-! ### The memory object -/

/-- The byte listed at an address, if any. -/
def Memory.read : Memory → Nat → Option Byte
  | [], _ => none
  | (x, b) :: m, a => if x = a then some b else Memory.read m a

/-- The byte at an address becomes `b`; the addresses stay strictly rising. -/
def Memory.write : Memory → Nat → Byte → Memory
  | [], a, b => [(a, b)]
  | (x, c) :: m, a, b =>
    if a < x then (a, b) :: (x, c) :: m
    else if a = x then (a, b) :: m
    else (x, c) :: Memory.write m a b

/-- The canonical form: addresses strictly rising, all in the 64-bit space (R60). An unlisted address holds no listed byte,
so no listed entry can repeat one (log entry 5). -/
abbrev Memory.wf (m : Memory) : Prop :=
  m.Pairwise (fun x y => x.1 < y.1) ∧ ∀ c ∈ m, c.1 < 2 ^ 64

/-- The region holds the address. -/
def Region.covers (r : Region) (a : Nat) : Bool := r.base ≤ a && a < r.base + r.size

/-- The platform has made the byte readable (R73, R76). -/
def State.canRead (s : State) (a : Addr) : Bool := s.regions.any fun r => r.readable && r.covers a.toNat

/-- The platform has made the byte writable (R74, R76). -/
def State.canWrite (s : State) (a : Addr) : Bool := s.regions.any fun r => r.writable && r.covers a.toNat

/-- The `n` bytes at `a, a +% 1, ...` are readable. -/
def State.readable (s : State) (a : Addr) (n : Nat) : Bool :=
  (List.range n).all fun i => s.canRead (a + BitVec.ofNat 64 i)

/-- The `n` bytes at `a, a +% 1, ...` are writable. -/
def State.writable (s : State) (a : Addr) (n : Nat) : Bool :=
  (List.range n).all fun i => s.canWrite (a + BitVec.ofNat 64 i)

/-- The byte of memory at an address: the listed one, or the launch contents nothing constrains (log entry 5). -/
def State.byteAt (s : State) (a : Addr) : Byte :=
  match s.mem.read a.toNat with
  | some b => b
  | none => Config.unwrittenByte a.toNat

/-- The `n` bytes at `a, a +% 1, ...` as a little-endian unsigned value (R63). -/
def State.loadLE (s : State) : Nat → Addr → Nat
  | 0, _ => 0
  | n + 1, a => (s.byteAt a).toNat + 256 * s.loadLE n (a + 1)

/-- `MemRead(addr, n)` (R63); `none` where the platform provides no memory (R76). -/
def memRead (n : Nat) (a : Addr) (s : State) : Option Nat :=
  if s.readable a n then some (s.loadLE n a) else none

/-- The bytes `v[7:0], v[15:8], ...` stored at `a, a +% 1, ...` in that order (R64). -/
def storeLE : Nat → Addr → Nat → Memory → Memory
  | 0, _, _, m => m
  | n + 1, a, v, m => storeLE n (a + 1) (v / 256) (m.write a.toNat (BitVec.ofNat 8 v))

/-- `MemWrite(addr, n, v)` (R64); `none` where the platform provides no memory (R76). -/
def memWrite (n : Nat) (a : Addr) (v : Nat) (s : State) : Option State :=
  if s.writable a n then some (s.setMem (storeLE n a v s.mem)) else none

/-- Zero bytes stored at `a, a +% 1, ..., a +% (n-1)` in increasing order (R151). -/
def storeZeros : Nat → Addr → Memory → Memory
  | 0, _, m => m
  | n + 1, a, m => storeZeros n (a + 1) (m.write a.toNat 0)

/-- `for i in 0 .. n-1: MemWrite(a +% i, 1, 0)` (R151); `none` where the platform provides no memory (R76). -/
def memZero (n : Nat) (a : Addr) (s : State) : Option State :=
  if s.writable a n then some (s.setMem (storeZeros n a s.mem)) else none

/-! ### Errors -/

/-- `raise X(code)` (R215): the first error since `ERR` was clear is kept. -/
def raiseFlags (code : ErrCode) (f : StatusFlags) : StatusFlags :=
  if f.err then f else { f with err := true, errcode := code }

/-- Taking an error (R221): `ERR` and `ERRCODE` change, nothing else is saved and control goes nowhere. -/
def raiseErr (code : ErrCode) (s : State) : State := s.setFlags (raiseFlags code s.flags)

/-- `DONE <- 0 ; ERR <- 0 ; ERRCODE <- 0`: leaving an error condition (R164, R165, R166, R222). -/
def clearFlags (s : State) : State :=
  s.setFlags { s.flags with done := false, err := false, errcode := .none }

/-- `ST <- st`. -/
def setSt (st : RunState) (s : State) : State := s.setFlags { s.flags with st := st }

end Sys2Proof.Machine
end

