-- ==== Sys2Proof/Machine/Flags.lean ====
section
/-! DEFINITION. The codes of the flag values and the flag computations: `irq` (R219), `STATUS` (R33), `ERRCODE` (R34). The
block has no arithmetic condition codes (R29). -/

namespace Sys2Proof.Machine

/-- The value of `STATUS[1:0]` (R30). -/
def RunState.code : RunState → Nat
  | .unconf => 0
  | .ready => 1
  | .busy => 2

/-- The value of `ERRCODE[3:0]` (R34). -/
def ErrCode.code : ErrCode → Nat
  | .none => 0
  | .cfgOddWidth => 1
  | .cfgBadFormat => 2
  | .resNoBuffer => 3
  | .illCmd => 4
  | .hostProtocol => 5

/-- The value of `PHASE` (R28). -/
def Phase.code : Phase → Nat
  | .chk => 0
  | .sel => 1
  | .bulk => 2
  | .grp => 3
  | .tail => 4
  | .fill => 5
  | .adv => 6

/-- The level of the `irq` output: `IE and (DONE or ERR)` (R219). -/
def StatusFlags.irq (f : StatusFlags) : Bool := f.ie && (f.done || f.err)

/-- The value of `STATUS` (R33). -/
def StatusFlags.status (f : StatusFlags) : Nat :=
  f.st.code + 4 * f.done.toNat + 8 * f.err.toNat + 16 * f.irq.toNat

end Sys2Proof.Machine
end

