-- ==== Sys2Proof/Machine/Formats.lean ====
section
/-! DEFINITION. The arithmetic of the data formats: the clips and the field value (R13 to R15), and the size formulas of a
line and a frame (R16 to R19), all on exact natural numbers. -/

namespace Sys2Proof.Machine

/-- `clip10(v) = max(4, min(1019, v))` (R13). -/
def clip10 (v : Nat) : Nat := max 4 (min 1019 v)

/-- `clip8(v) = max(1, min(254, v))` (R14). -/
def clip8 (v : Nat) : Nat := max 1 (min 254 v)

/-- `field(D, v)`, the 10-bit value of a slot (R15, R92). -/
def field : Depth → Nat → Nat
  | .d10, v => clip10 v
  | .d8, v => clip8 v * 2 ^ 2

/-- `ceil(a/b)` (R11). -/
def ceilDiv (a b : Nat) : Nat := (a + b - 1) / b

/-- `LineStride(w) = ceil(w/48) * 48 * 8 / 3` (R16). -/
def lineStrideOf (w : Nat) : Nat := ceilDiv w 48 * 48 * 8 / 3

/-- `t` of R17: the words of a remainder of 0, 2 or 4 samples. The other values of `r` belong to odd widths, for which the
block evaluates no formula (R12). -/
def tailWords (r : Nat) : Nat := if r = 2 then 2 else if r = 4 then 3 else 0

/-- `ContentWords(w)` (R17). -/
def contentWords (w : Nat) : Nat := 4 * (w / 6) + tailWords (w % 6)

/-- `ContentBytes(w)` (R17). -/
def contentBytes (w : Nat) : Nat := 4 * contentWords w

/-- `LinePad(w)` (R18). -/
def linePadOf (w : Nat) : Nat := lineStrideOf w - contentBytes w

/-- `FrameSize(w, h)` (R19). -/
def frameSizeOf (w h : Nat) : Nat := h * lineStrideOf w

end Sys2Proof.Machine
end

