-- ==== Sys2Proof/Machine/Operands.lean ====
section
/-! DEFINITION. The operand forms: sample size and depth by format (R10), source pointers with post-increment (R24, R67),
slots (R102), pattern sources (R126), group sizes (R128, R169). -/

namespace Sys2Proof.Machine

/-- `bps`, the bytes of one sample of a depth (R10, R66). -/
def bps : Depth → Nat
  | .d8 => 1
  | .d10 => 2

/-- The depth the sequencer selects for a format: 10 bits exactly when `FMT = 2` (R98, R186). -/
def depthOfFmt (fmt : BitVec 2) : Depth := if fmt = 2 then .d10 else .d8

/-- `bps` of a format (R10, R163): 2 when `FMT = 2`, else 1. -/
def bpsOfFmt (fmt : BitVec 2) : Nat := bps (depthOfFmt fmt)

/-- `P[s]`, the source pointer selected by `s` (R20). -/
def WorkRegs.ptr (w : WorkRegs) : Src → Addr
  | .y => w.yp
  | .u => w.up
  | .v => w.vp

/-- `P[s] <- a`. -/
def WorkRegs.setPtr (w : WorkRegs) : Src → Addr → WorkRegs
  | .y, a => { w with yp := a }
  | .u, a => { w with up := a }
  | .v, a => { w with vp := a }

/-- `DP <- a`. -/
def WorkRegs.setDp (w : WorkRegs) (a : Addr) : WorkRegs := { w with dp := a }

/-- `VAL <- v`. -/
def WorkRegs.setVal (w : WorkRegs) (v : Word32) : WorkRegs := { w with val := v }

/-- The shift of a slot, `10 * SLOT` (R99, R102). -/
def slotShift : Slot → Nat
  | .s0 => 0
  | .s1 => 10
  | .s2 => 20

/-- A component in its slot, `field(D, v) << (10 * SLOT)` (R90, R102). -/
def slotValue (d : Depth) (slot : Slot) (v : Nat) : Nat := field d v * 2 ^ slotShift slot

/-- The three sources of a pattern, slot 0 first (R126). -/
def patSrc : Pat → Slot → Src
  | .uyv, .s0 => .u
  | .uyv, .s1 => .y
  | .uyv, .s2 => .v
  | .yuy, .s0 => .y
  | .yuy, .s1 => .u
  | .yuy, .s2 => .y
  | .vyu, .s0 => .v
  | .vyu, .s1 => .y
  | .vyu, .s2 => .u
  | .yvy, .s0 => .y
  | .yvy, .s1 => .v
  | .yvy, .s2 => .y

/-- `GS(D)`, the group size of the bulk routine (R128, R169). -/
def groupSize (v : Variant) : Depth → Nat
  | .d10 => 6 * v.sf10.toNat
  | .d8 => 12 * v.sf8.toNat

/-- `SampleRead(D, s)` (R67): the sample, and the state with `P[s]` advanced by `bps`; `none` where the platform provides no
memory (R76). -/
def sampleRead (d : Depth) (c : Src) (s : State) : Option (Nat × State) :=
  match memRead (bps d) (s.work.ptr c) s with
  | some v => some (v, s.setWork (s.work.setPtr c (s.work.ptr c + BitVec.ofNat 64 (bps d))))
  | none => none

end Sys2Proof.Machine
end

