-- ==== Sys2Proof/Machine/Regions.lean ====
section
/-! DEFINITION. The source and destination regions of a run in closed form (R73, R74), and when they do not wrap
(R75, R251). -/

namespace Sys2Proof.Machine

/-- The address is in `[start, start +% len)`. -/
def inSpan (a start : Addr) (len : Nat) : Bool := (a - start).toNat < len

/-- The `len` bytes from `start` on do not go past the last address, `2^64 - 1` (R75). -/
def noWrap (start : Addr) (len : Nat) : Prop := start.toNat + len ≤ 2 ^ 64

/-- The address is in row `0 .. rows-1` of a plane whose rows hold `len` bytes (R73). -/
def inPlane (a base stride : Addr) (rows len : Nat) : Bool :=
  (List.range rows).any fun h => inSpan a (base + BitVec.ofNat 64 h * stride) len

/-- `CR`, the number of chroma rows of a frame (R73). -/
def chromaRows (f : FrameRegs) : Nat := if f.fmt = 1 then ceilDiv f.height.toNat 2 else f.height.toNat

/-- Bytes of one luma row (R73). -/
def lumaRowBytes (f : FrameRegs) : Nat := f.width.toNat * bpsOfFmt f.fmt

/-- Bytes of one chroma row (R73). -/
def chromaRowBytes (f : FrameRegs) : Nat := f.width.toNat / 2 * bpsOfFmt f.fmt

/-- The address is in a source region of the frame (R73). -/
def inSource (f : FrameRegs) (a : Addr) : Bool :=
  inPlane a f.yBase f.yStride f.height.toNat (lumaRowBytes f)
    || inPlane a f.uBase f.uStride (chromaRows f) (chromaRowBytes f)
    || inPlane a f.vBase f.vStride (chromaRows f) (chromaRowBytes f)

/-- Every byte of a plane whose rows `0 .. rows-1` hold `len` bytes and stand `step` apart has an address of the address
space, computed in the integers: neither `h * step` nor the bytes of a row wrap (R75, R251). -/
def planeInSpace (base : Addr) (step : Int) (rows len : Nat) : Prop :=
  ∀ h i : Nat, h < rows → i < len →
    0 ≤ (base.toNat : Int) + h * step + i ∧ (base.toNat : Int) + h * step + i < 2 ^ 64

/-- A plane does not wrap, within a row or between its rows (R75, R251). The distance of its rows is the stride, or, for a
plane stored bottom-up, the negative number the stride is the two's complement of (R43; log entry 22). -/
def planeNoWrap (base stride : Addr) (rows len : Nat) : Prop :=
  planeInSpace base stride.toNat rows len ∨ planeInSpace base stride.toInt rows len

/-- No source region wraps (R75, R251). -/
def sourcesNoWrap (f : FrameRegs) : Prop :=
  planeNoWrap f.yBase f.yStride f.height.toNat (lumaRowBytes f)
    ∧ planeNoWrap f.uBase f.uStride (chromaRows f) (chromaRowBytes f)
    ∧ planeNoWrap f.vBase f.vStride (chromaRows f) (chromaRowBytes f)

/-- The address is in the destination region `[DST_BASE, DST_BASE + FRAME_SIZE)` (R74). -/
def inDest (s : State) (a : Addr) : Bool := inSpan a s.frame.dstBase s.derived.frameSize.toNat

/-- The destination region does not go past the last address (R75). -/
def destNoWrap (s : State) : Prop := noWrap s.frame.dstBase s.derived.frameSize.toNat

end Sys2Proof.Machine
end

