-- ==== Sys2Proof/Machine/Commands.lean ====
section
/-! DEFINITION. The host commands `INIT`, `START`, `ACK` (R164 to R166). -/

namespace Sys2Proof.Machine

/-- The derived registers of a width and a height (R45). -/
def deriveRegs (w h : Nat) : DerivedRegs :=
  ⟨BitVec.ofNat 18 (lineStrideOf w), BitVec.ofNat 7 (linePadOf w), BitVec.ofNat 64 (frameSizeOf w h)⟩

/-- `VAL <- 0 ; seq <- (0, CHK, 0)` (R164, R165). -/
def toFrameStart (s : State) : State := (s.setWork (s.work.setVal 0)).setSeq ⟨0, .chk, 0⟩

/-- `INIT` (R164): validate the setup and compute the derived registers. -/
def execInit : Op := fun s =>
  if s.flags.st = .busy then .next (raiseErr .hostProtocol s)
  else
    let t := clearFlags s
    if s.frame.width.toNat % 2 = 1 then .next (raiseErr .cfgOddWidth (setSt .unconf t))
    else if s.frame.fmt = 3 then .next (raiseErr .cfgBadFormat (setSt .unconf t))
    else .next (setSt .ready (toFrameStart
      (t.setDerived (deriveRegs s.frame.width.toNat s.frame.height.toNat))))

/-- `YP <- Y_BASE ; UP <- U_BASE ; VP <- V_BASE ; DP <- DST_BASE` (R165). -/
def loadBases (s : State) : State :=
  s.setWork { s.work with yp := s.frame.yBase, up := s.frame.uBase, vp := s.frame.vBase, dp := s.frame.dstBase }

/-- `START` (R165): check the buffer's size, load the pointers, begin a run. -/
def execStart : Op := fun s =>
  if s.flags.st ≠ .ready then .next (raiseErr .hostProtocol s)
  else
    let t := clearFlags s
    if s.derived.frameSize.toNat > s.frame.dstSize.toNat then .next (raiseErr .resNoBuffer t)
    else .next (setSt .busy (toFrameStart (loadBases t)))

/-- `ACK` (R166): clear the completion and error flags. -/
def execAck : Op := fun s =>
  if s.flags.st = .busy then .next (raiseErr .hostProtocol s)
  else .next (clearFlags s)

end Sys2Proof.Machine
end

