-- ==== Sys2Proof/Machine/Packer.lean ====
section
/-! DEFINITION. The operations of `PK`, the v210_packer (R120 to R136). -/

namespace Sys2Proof.Machine

/-- Accumulate one component (R123): read a sample, OR its field into `VAL` at the slot. -/
def accumulate (d : Depth) (slot : Slot) (c : Src) : Op := fun s =>
  match sampleRead d c s with
  | some (v, t) => .next (t.setWork (t.work.setVal (t.work.val ||| BitVec.ofNat 32 (slotValue d slot v))))
  | none => .fault .memNotProvided

/-- Write the assembled word little-endian at `DP`, advance `DP` by 4, clear `VAL` (R124). -/
def flushWord : Op := fun s =>
  match memWrite 4 s.work.dp s.work.val.toNat s with
  | some t => .next (t.setWork ((t.work.setDp (t.work.dp + 4)).setVal 0))
  | none => .fault .memNotProvided

/-- Pack one full word of three components (R125). -/
def packWord (d : Depth) (p : Pat) : Op :=
  andThen (accumulate d .s0 (patSrc p .s0))
    (andThen (accumulate d .s1 (patSrc p .s1))
      (andThen (accumulate d .s2 (patSrc p .s2)) flushWord))

/-- Pack one group: 6 luma samples, 3 U, 3 V, into 4 words (R127). -/
def packGroup (d : Depth) : Op :=
  andThen (packWord d .uyv)
    (andThen (packWord d .yuy)
      (andThen (packWord d .vyu) (packWord d .yvy)))

/-- `NOP` (R122). -/
def execNop : Op := fun s => .next s

/-- `ACC.d s<slot>, <src>` (R123). -/
def execAcc (d : Depth) (slot : Slot) (c : Src) : Op := fun s => accumulate d slot c s

/-- `FLUSH` (R124). -/
def execFlush : Op := fun s => flushWord s

/-- `WORD.d <pat>` (R125). -/
def execWord (d : Depth) (p : Pat) : Op := fun s => packWord d p s

/-- `GROUP.d` (R127). -/
def execGroup (d : Depth) : Op := fun s => packGroup d s

/-- `BULK.d N` (R128): refused with `ILL_CMD` before any effect when the count is no multiple of the group size, else
`N / 6` groups in the reference order (R129; log entry 10). -/
def execBulk (d : Depth) (n : Nat) : Op := fun s =>
  if n % groupSize s.variant d ≠ 0 then .next (raiseErr .illCmd s)
  else repeatOp (n / 6) (packGroup d) s

/-- `TAIL2.d` (R130): the last 2 luma samples of a line, 2 words. -/
def execTail2 (d : Depth) : Op :=
  andThen (packWord d .uyv)
    (andThen (accumulate d .s0 .y) flushWord)

/-- `TAIL4.d` (R131): the last 4 luma samples of a line, 3 words. -/
def execTail4 (d : Depth) : Op :=
  andThen (packWord d .uyv)
    (andThen (packWord d .yuy)
      (andThen (accumulate d .s0 .v)
        (andThen (accumulate d .s1 .y) flushWord)))

end Sys2Proof.Machine
end

