-- ==== Sys2Proof/Machine/RowOps.lean ====
section
/-! DEFINITION. The row operations of `FE` (R162, R163). -/

namespace Sys2Proof.Machine

/-- The capture test of `ROWSEL` (R162), in the two ways R162 writes it. -/
def captures (ilace : Bool) (row : Nat) : Bool :=
  if ilace then row % 4 = 0 || row % 4 = 2 else row % 2 = 0

/-- `ROWSEL` (R162): with `FMT = 1`, capture the chroma row pointers or go back to them. -/
def execRowsel : Op := fun s =>
  if s.frame.fmt = 1 then
    if captures s.frame.ilace s.seq.row.toNat then
      .next (s.setWork { s.work with uc := s.work.up, vc := s.work.vp })
    else
      .next (s.setWork { s.work with up := s.work.uc, vp := s.work.vc })
  else .next s

/-- A source pointer moved from the end of one row to the start of the next (R163): `p +% stride -% bytes read`. -/
def nextRow (p stride : Addr) (rowBytes : Nat) : Addr := p + stride - BitVec.ofNat 64 rowBytes

/-- `ROWADV` (R163). -/
def execRowadv : Op := fun s =>
  let w := s.frame.width.toNat
  let b := bpsOfFmt s.frame.fmt
  .next ((s.setWork
    { s.work with
      yp := nextRow s.work.yp s.frame.yStride (w * b)
      up := nextRow s.work.up s.frame.uStride (w / 2 * b)
      vp := nextRow s.work.vp s.frame.vStride (w / 2 * b) }).setSeq
    { s.seq with row := s.seq.row + 1 })

end Sys2Proof.Machine
end

