-- ==== Sys2Proof/Machine/ZeroFill.lean ====
section
/-! DEFINITION. The operation of `ZF`, the line-padding zero-fill engine (R150, R151). -/

namespace Sys2Proof.Machine

/-- `ZFILL N` (R151): `N` zero bytes at `DP`, `DP <- DP +% N`; `VAL` is not touched. -/
def execZfill (n : Nat) : Op := fun s =>
  match memZero n s.work.dp s with
  | some t => .next (t.setWork (t.work.setDp (t.work.dp + BitVec.ofNat 64 n)))
  | none => .fault .memNotProvided

end Sys2Proof.Machine
end

