-- ==== Sys2Proof/Machine/Dispatch.lean ====
section
/-! DEFINITION. The one dispatch from an instruction to its meaning. -/

namespace Sys2Proof.Machine

def exec (i : Instr) (s : State) : Host.Outcome State Fault Refusal :=
  match i with
  | .nop => Sys2Proof.Machine.execNop s
  | .acc d slot src => Sys2Proof.Machine.execAcc d slot src s
  | .flush => Sys2Proof.Machine.execFlush s
  | .word d pat => Sys2Proof.Machine.execWord d pat s
  | .group d => Sys2Proof.Machine.execGroup d s
  | .bulk d n => Sys2Proof.Machine.execBulk d n s
  | .tail2 d => Sys2Proof.Machine.execTail2 d s
  | .tail4 d => Sys2Proof.Machine.execTail4 d s
  | .zfill n => Sys2Proof.Machine.execZfill n s
  | .rowsel => Sys2Proof.Machine.execRowsel s
  | .rowadv => Sys2Proof.Machine.execRowadv s
  | .init => Sys2Proof.Machine.execInit s
  | .start => Sys2Proof.Machine.execStart s
  | .ack => Sys2Proof.Machine.execAck s

end Sys2Proof.Machine
end

