-- ==== Sys2Proof/Machine/Sequencer.lean ====
section
/-! DEFINITION. The sequencer of `FE`: the control flow of a run (R169 to R179). -/

namespace Sys2Proof.Machine

/-- `issue i` and then `seq` moves by `f` (R20, R169): the micro-operation executes completely within the step. -/
def issue (i : Instr) (f : SeqPos → SeqPos) : Op :=
  andThen (exec i) (fun t => .next (t.setSeq (f t.seq)))

/-- `PHASE <- p`. -/
def toPhase (p : Phase) (q : SeqPos) : SeqPos := { q with phase := p }

/-- `n` of R172: the largest multiple of `GS` not above `WIDTH`. -/
def bulkCount (s : State) : Nat :=
  s.frame.width.toNat / groupSize s.variant (depthOfFmt s.frame.fmt) *
    groupSize s.variant (depthOfFmt s.frame.fmt)

/-- `COL` after `n` more samples. -/
def addCol (n : Nat) (q : SeqPos) : SeqPos := { q with col := BitVec.ofNat 16 (q.col.toNat + n) }

/-- Phase `CHK` (R170, R177). -/
def phaseChk : Op := fun s =>
  if s.seq.row = s.frame.height then .next (s.setFlags { s.flags with st := .ready, done := true })
  else .next (s.setSeq (toPhase .sel s.seq))

/-- Phase `SEL` (R171). -/
def phaseSel : Op := fun s => issue .rowsel (toPhase .bulk) s

/-- Phase `BULK` (R172). -/
def phaseBulk : Op := fun s =>
  issue (.bulk (depthOfFmt s.frame.fmt) (bulkCount s))
    (fun q => { q with col := BitVec.ofNat 16 (bulkCount s), phase := .grp }) s

/-- Phase `GRP` (R173). -/
def phaseGrp : Op := fun s =>
  if s.seq.col.toNat + 6 ≤ s.frame.width.toNat then
    issue (.group (depthOfFmt s.frame.fmt)) (addCol 6) s
  else .next (s.setSeq (toPhase .tail s.seq))

/-- Phase `TAIL` (R174). -/
def phaseTail : Op := fun s =>
  let r := s.frame.width.toNat - s.seq.col.toNat
  if r = 2 then issue (.tail2 (depthOfFmt s.frame.fmt)) (fun q => toPhase .fill (addCol 2 q)) s
  else if r = 4 then issue (.tail4 (depthOfFmt s.frame.fmt)) (fun q => toPhase .fill (addCol 4 q)) s
  else .next (s.setSeq (toPhase .fill s.seq))

/-- Phase `FILL` (R175). -/
def phaseFill : Op := fun s => issue (.zfill s.derived.linePad.toNat) (toPhase .adv) s

/-- Phase `ADV` (R176). -/
def phaseAdv : Op := fun s => issue .rowadv (fun q => { q with col := 0, phase := .chk }) s

/-- One sequencer step, chosen by `PHASE` (R169). -/
def seqStep : Op := fun s =>
  match s.seq.phase with
  | .chk => phaseChk s
  | .sel => phaseSel s
  | .bulk => phaseBulk s
  | .grp => phaseGrp s
  | .tail => phaseTail s
  | .fill => phaseFill s
  | .adv => phaseAdv s

/-- One step of the block itself: a sequencer step while `BUSY`, else nothing (R169, R230; log entry 11). -/
def blockStep : Op := fun s => if s.flags.st = .busy then seqStep s else .next s

end Sys2Proof.Machine
end

