-- ==== Sys2Proof/Machine/HostPort.lean ====
section
/-! DEFINITION. The register port (R31 to R50), the command registers (R167, R168), the host's view of memory (R79, R85), the
reset input (R240 to R242), and whose turn it is. -/

namespace Sys2Proof.Machine

/-- Which 32-bit half of a 64-bit register (R48). -/
inductive Half where
  | lo
  | hi
  deriving DecidableEq, Repr

/-- The mapped registers (R31). -/
inductive Reg where
  | ctrl
  | status
  | errcode
  | inten
  | format
  | width
  | height
  | variant
  | framectl
  | cmd
  | lineStride
  | linePad
  | frameSize (h : Half)
  | yBase (h : Half)
  | uBase (h : Half)
  | vBase (h : Half)
  | yStride (h : Half)
  | uStride (h : Half)
  | vStride (h : Half)
  | dstBase (h : Half)
  | dstSize (h : Half)
  | yp (h : Half)
  | up (h : Half)
  | vp (h : Half)
  | dp (h : Half)
  | uc (h : Half)
  | vc (h : Half)
  | val
  | row
  | col
  | phase
  deriving DecidableEq, Repr

/-- The classes of R47. -/
inductive RegClass where
  | free
  | setup
  | perFrame
  | working
  | command
  | readOnly
  deriving DecidableEq, Repr

/-- The first rows of R31's map: byte offset and register. -/
def mapControl : List (Nat × Reg) :=
  [(0x00, .ctrl), (0x04, .status), (0x08, .errcode), (0x0C, .inten), (0x10, .format), (0x14, .width),
   (0x18, .height), (0x1C, .variant), (0x20, .framectl), (0x24, .cmd), (0x28, .lineStride), (0x2C, .linePad),
   (0x30, .frameSize .lo), (0x34, .frameSize .hi)]

/-- The per-frame rows of R31's map. -/
def mapFrame : List (Nat × Reg) :=
  [(0x40, .yBase .lo), (0x44, .yBase .hi), (0x48, .uBase .lo), (0x4C, .uBase .hi), (0x50, .vBase .lo),
   (0x54, .vBase .hi), (0x58, .yStride .lo), (0x5C, .yStride .hi), (0x60, .uStride .lo), (0x64, .uStride .hi),
   (0x68, .vStride .lo), (0x6C, .vStride .hi), (0x70, .dstBase .lo), (0x74, .dstBase .hi), (0x78, .dstSize .lo),
   (0x7C, .dstSize .hi)]

/-- The working rows of R31's map. -/
def mapWork : List (Nat × Reg) :=
  [(0x80, .yp .lo), (0x84, .yp .hi), (0x88, .up .lo), (0x8C, .up .hi), (0x90, .vp .lo), (0x94, .vp .hi),
   (0x98, .dp .lo), (0x9C, .dp .hi), (0xA0, .uc .lo), (0xA4, .uc .hi), (0xA8, .vc .lo), (0xAC, .vc .hi),
   (0xB0, .val), (0xB4, .row), (0xB8, .col), (0xBC, .phase)]

/-- The register map (R31). -/
def regMap : List (Nat × Reg) := mapControl ++ mapFrame ++ mapWork

/-- The register at a byte offset; `none` is an unmapped offset (R50). -/
def regAt (offset : Nat) : Option Reg := (regMap.find? fun e => e.1 = offset).map Prod.snd

/-- The class of a register (R31, R47). -/
def Reg.cls : Reg → RegClass
  | .ctrl => .command
  | .status => .readOnly
  | .errcode => .readOnly
  | .inten => .free
  | .format => .setup
  | .width => .setup
  | .height => .setup
  | .variant => .readOnly
  | .framectl => .perFrame
  | .cmd => .command
  | .lineStride => .readOnly
  | .linePad => .readOnly
  | .frameSize _ => .readOnly
  | .yBase _ => .perFrame
  | .uBase _ => .perFrame
  | .vBase _ => .perFrame
  | .yStride _ => .perFrame
  | .uStride _ => .perFrame
  | .vStride _ => .perFrame
  | .dstBase _ => .perFrame
  | .dstSize _ => .perFrame
  | .yp _ => .working
  | .up _ => .working
  | .vp _ => .working
  | .dp _ => .working
  | .uc _ => .working
  | .vc _ => .working
  | .val => .readOnly
  | .row => .working
  | .col => .readOnly
  | .phase => .readOnly

/-- The half of a 64-bit register a read returns (R48). -/
def getHalf : Half → BitVec 64 → Word32
  | .lo, v => BitVec.ofNat 32 v.toNat
  | .hi, v => BitVec.ofNat 32 (v.toNat / 2 ^ 32)

/-- A 64-bit register after a write of one half; the other half is unchanged (R48). -/
def putHalf : Half → BitVec 64 → Word32 → BitVec 64
  | .lo, v, x => BitVec.ofNat 64 (v.toNat / 2 ^ 32 * 2 ^ 32 + x.toNat)
  | .hi, v, x => BitVec.ofNat 64 (x.toNat * 2 ^ 32 + v.toNat % 2 ^ 32)

/-- The value a read of a register returns, reserved bits 0 (R32 to R49). -/
def Reg.value (s : State) : Reg → Word32
  | .ctrl => 0
  | .status => BitVec.ofNat 32 s.flags.status
  | .errcode => BitVec.ofNat 32 s.flags.errcode.code
  | .inten => BitVec.ofNat 32 s.flags.ie.toNat
  | .format => BitVec.ofNat 32 s.frame.fmt.toNat
  | .width => BitVec.ofNat 32 s.frame.width.toNat
  | .height => BitVec.ofNat 32 s.frame.height.toNat
  | .variant => BitVec.ofNat 32 (s.variant.sf10.toNat * 16 + s.variant.sf8.toNat)
  | .framectl => BitVec.ofNat 32 s.frame.ilace.toNat
  | .cmd => 0
  | .lineStride => BitVec.ofNat 32 s.derived.lineStride.toNat
  | .linePad => BitVec.ofNat 32 s.derived.linePad.toNat
  | .frameSize h => getHalf h s.derived.frameSize
  | .yBase h => getHalf h s.frame.yBase
  | .uBase h => getHalf h s.frame.uBase
  | .vBase h => getHalf h s.frame.vBase
  | .yStride h => getHalf h s.frame.yStride
  | .uStride h => getHalf h s.frame.uStride
  | .vStride h => getHalf h s.frame.vStride
  | .dstBase h => getHalf h s.frame.dstBase
  | .dstSize h => getHalf h s.frame.dstSize
  | .yp h => getHalf h s.work.yp
  | .up h => getHalf h s.work.up
  | .vp h => getHalf h s.work.vp
  | .dp h => getHalf h s.work.dp
  | .uc h => getHalf h s.work.uc
  | .vc h => getHalf h s.work.vc
  | .val => s.work.val
  | .row => BitVec.ofNat 32 s.seq.row.toNat
  | .col => BitVec.ofNat 32 s.seq.col.toNat
  | .phase => BitVec.ofNat 32 s.seq.phase.code

/-- A read of a byte offset (R49); an unmapped offset reads 0 (R50). -/
def readOffset (offset : Nat) (s : State) : Word32 :=
  match regAt offset with
  | some r => r.value s
  | none => 0

/-- The state after an accepted write of a value to a register that stores it; reserved bits ignore the write (R31, R35 to
R44). The registers no accepted write reaches (read-only and command ones) are unchanged. -/
def Reg.put (v : Word32) (s : State) : Reg → State
  | .inten => s.setFlags { s.flags with ie := v.toNat % 2 = 1 }
  | .format => s.setFrame { s.frame with fmt := BitVec.ofNat 2 v.toNat }
  | .width => s.setFrame { s.frame with width := BitVec.ofNat 16 v.toNat }
  | .height => s.setFrame { s.frame with height := BitVec.ofNat 16 v.toNat }
  | .framectl => s.setFrame { s.frame with ilace := v.toNat % 2 = 1 }
  | .yBase h => s.setFrame { s.frame with yBase := putHalf h s.frame.yBase v }
  | .uBase h => s.setFrame { s.frame with uBase := putHalf h s.frame.uBase v }
  | .vBase h => s.setFrame { s.frame with vBase := putHalf h s.frame.vBase v }
  | .yStride h => s.setFrame { s.frame with yStride := putHalf h s.frame.yStride v }
  | .uStride h => s.setFrame { s.frame with uStride := putHalf h s.frame.uStride v }
  | .vStride h => s.setFrame { s.frame with vStride := putHalf h s.frame.vStride v }
  | .dstBase h => s.setFrame { s.frame with dstBase := putHalf h s.frame.dstBase v }
  | .dstSize h => s.setFrame { s.frame with dstSize := putHalf h s.frame.dstSize v }
  | .yp h => s.setWork { s.work with yp := putHalf h s.work.yp v }
  | .up h => s.setWork { s.work with up := putHalf h s.work.up v }
  | .vp h => s.setWork { s.work with vp := putHalf h s.work.vp v }
  | .dp h => s.setWork { s.work with dp := putHalf h s.work.dp v }
  | .uc h => s.setWork { s.work with uc := putHalf h s.work.uc v }
  | .vc h => s.setWork { s.work with vc := putHalf h s.work.vc v }
  | .row => s.setSeq { s.seq with row := BitVec.ofNat 16 v.toNat }
  | .ctrl => s
  | .status => s
  | .errcode => s
  | .variant => s
  | .cmd => s
  | .lineStride => s
  | .linePad => s
  | .frameSize _ => s
  | .val => s
  | .col => s
  | .phase => s

/-- A write to `CTRL` (R168): an illegal value is `ILL_CMD` in every `ST`. -/
def writeCtrl (v : Word32) : Op := fun s =>
  match decodeCtrl v with
  | .ok i => exec i s
  | .error _ => .next (raiseErr .illCmd s)

/-- A write to `CMD` (R167): `ST` is checked first, then the word (R220). -/
def writeCmd (v : Word32) : Op := fun s =>
  if s.flags.st ≠ .ready then .next (raiseErr .hostProtocol s)
  else
    match decodeCmd v with
    | .ok i => exec i s
    | .error _ => .next (raiseErr .illCmd s)

/-- A write to a register that takes part in a run: refused while `BUSY` (R47, R216). -/
def writeUnlessBusy (v : Word32) (r : Reg) : Op := fun s =>
  if s.flags.st = .busy then .next (raiseErr .hostProtocol s) else .next (r.put v s)

/-- A write to a setup register: as above, and the setup is no longer validated (R47, R248). -/
def writeSetup (v : Word32) (r : Reg) : Op := fun s =>
  if s.flags.st = .busy then .next (raiseErr .hostProtocol s) else .next (setSt .unconf (r.put v s))

/-- A write to a mapped register, by its class (R47). -/
def writeReg (v : Word32) (r : Reg) : Op := fun s =>
  match r.cls with
  | .free => .next (r.put v s)
  | .setup => writeSetup v r s
  | .perFrame => writeUnlessBusy v r s
  | .working => writeUnlessBusy v r s
  | .command => if r = .ctrl then writeCtrl v s else writeCmd v s
  | .readOnly => .next (raiseErr .hostProtocol s)

/-- A write to a byte offset; an unmapped one is refused (R50). -/
def writeOffset (offset : Nat) (v : Word32) : Op := fun s =>
  match regAt offset with
  | some r => writeReg v r s
  | none => .next (raiseErr .hostProtocol s)

/-- The host may not write a source byte, nor touch a destination byte, of the run in progress (R85, R245). DESIGN CHOICE: the
run is in progress while `ST` is `BUSY`; from its completing step on the host may write these bytes, although R84 lets it do so
only once it has observed `DONE = 1` (unsafe: log entry 23). -/
def mayPoke (a : Addr) (s : State) : Bool := s.flags.st ≠ .busy || !(inSource s.frame a || inDest s a)

/-- The host may not read a destination byte of the run in progress (R85, R245). DESIGN CHOICE: from the run's completing step
on it may, before it has observed `DONE = 1` too, and then reads the bytes the run has left, which R79 and R84 promise only
after that (unsafe: log entry 23). -/
def mayPeek (a : Addr) (s : State) : Bool := s.flags.st ≠ .busy || !(inDest s a)

/-- Free bytes in place of `n` bytes at `a +% i, a +% (i+1), ...` (R242, U6). -/
def storeFree (count : Nat) : Nat → Nat → Addr → Memory → Memory
  | 0, _, _, m => m
  | n + 1, i, a, m => storeFree count n (i + 1) (a + 1) (m.write a.toNat (Config.freeByte count i))

/-- The reset input (R240, R241): every register at its reset value; memory untouched, but for the destination region of a
run in progress, which holds any value (R242, U6). -/
def platformReset (s : State) : State :=
  let t : State :=
    { State.resetFor s.variant with
      mem := s.mem, regions := s.regions, inputs := s.inputs, reply := s.reply, freeCount := s.freeCount }
  if s.flags.st = .busy then
    { t with
      mem := storeFree s.freeCount s.derived.frameSize.toNat 0 s.frame.dstBase s.mem
      freeCount := s.freeCount + 1 }
  else t

/-- One host or platform action (R169). -/
def hostAct : HostAct → Op
  | .write slot v => fun s => writeOffset (4 * slot) v s
  | .read slot => fun s => .next (s.setReply (some (readOffset (4 * slot) s)))
  | .poke a b => fun s =>
    if mayPoke a s then .next (s.setMem (s.mem.write a.toNat b)) else .refused .hostTouchesBuffer
  | .peek a => fun s =>
    if mayPeek a s then .next (s.setReply (some (BitVec.ofNat 32 (s.byteAt a).toNat)))
    else .refused .hostTouchesBuffer
  | .reset => fun s => .next (platformReset s)

/-- Whose turn it is (R169, R49): the next host action once its block steps have passed, or at once when no run is in
progress; else a step of the block. -/
def takeTurn : Op := fun s =>
  match s.inputs with
  | [] => blockStep s
  | e :: rest =>
    if e.after = 0 || s.flags.st ≠ .busy then hostAct e.act (s.setInputs rest)
    else blockStep (s.setInputs ({ e with after := e.after - 1 } :: rest))

end Sys2Proof.Machine
end

