-- ==== Sys2Proof/Machine/Step.lean ====
section
/-! DEFINITION. One step of the machine, and the placing of a word where the next step takes it from. -/

namespace Sys2Proof.Machine

/-- One step: a host action or a step of the block (R169). -/
def step : State → Host.Outcome State Fault Refusal := fun s => takeTurn s

/-- The next host action is a write of `v` to the given register slot. -/
def State.withHostWrite (s : State) (slot : Nat) (v : Word32) : State :=
  s.setInputs (⟨0, .write slot v⟩ :: s.inputs)

/-- `s` with the word as the very next host write: to `CTRL` (slot 0) for a host command, else to `CMD` (slot 9) with
`ST = READY`, which the command port needs (R167; log entry 12). -/
def State.withFetchWord (s : State) (nbits w : Nat) : State :=
  let v := BitVec.ofNat 32 (w % 2 ^ nbits)
  match decodeCtrl v with
  | .ok _ => s.withHostWrite 0 v
  | .error _ => (setSt .ready s).withHostWrite 9 v

end Sys2Proof.Machine
end

