-- ==== Sys2Proof/Machine/Layout.lean ====
section
/-! DEFINITION. What the operations and a run are to leave behind, in closed form: the samples an operation consumes
(R126, R135), the output line (R94) and its source addresses (R180), the line program (R178) and the step counts (R179). No
step of the machine uses these; they are the terms claims are stated in. -/

namespace Sys2Proof.Machine

/-- The address is outside the `n` bytes at `base, base +% 1, ...`. -/
abbrev outside (a base : Addr) (n : Nat) : Prop := n ≤ (a - base).toNat

/-- The sample stored at an address (R66): 1 byte, or 2 bytes little-endian. -/
def State.sampleAt (s : State) : Depth → Addr → Nat
  | .d8, a => (s.byteAt a).toNat
  | .d10, a => (s.byteAt a).toNat + 256 * (s.byteAt (a + 1)).toNat

/-- The field of the `i`-th next sample of a source pointer. -/
def State.nextField (s : State) (d : Depth) (c : Src) (i : Nat) : Nat :=
  field d (s.sampleAt d (s.work.ptr c + BitVec.ofNat 64 (i * bps d)))

/-- The source and the count of its samples read before, slot by slot (R126: the two luma samples of `YUY` and `YVY` come in
order through `YP`). -/
def patSample : Pat → Slot → Src × Nat
  | .uyv, .s0 => (.u, 0)
  | .uyv, .s1 => (.y, 0)
  | .uyv, .s2 => (.v, 0)
  | .yuy, .s0 => (.y, 0)
  | .yuy, .s1 => (.u, 0)
  | .yuy, .s2 => (.y, 1)
  | .vyu, .s0 => (.v, 0)
  | .vyu, .s1 => (.y, 0)
  | .vyu, .s2 => (.u, 0)
  | .yvy, .s0 => (.y, 0)
  | .yvy, .s1 => (.v, 0)
  | .yvy, .s2 => (.y, 1)

/-- Samples a pattern reads through each pointer (R126, R135). -/
def patUses : Pat → Src → Nat
  | .uyv, .y => 1
  | .uyv, .u => 1
  | .uyv, .v => 1
  | .yuy, .y => 2
  | .yuy, .u => 1
  | .yuy, .v => 0
  | .vyu, .y => 1
  | .vyu, .u => 1
  | .vyu, .v => 1
  | .yvy, .y => 2
  | .yvy, .u => 0
  | .yvy, .v => 1

/-- `W = s0 + 1024 * s1 + 1048576 * s2` (R90). -/
def packed (s0 s1 s2 : Nat) : Nat := s0 + 1024 * s1 + 1048576 * s2

/-- `crow(h)`, the source chroma row of output row `h` (R180). -/
def crow (f : FrameRegs) (h : Nat) : Nat := if f.fmt = 1 then h / 2 else h

/-- Address of sample `x` of row `r` of a plane (R180). -/
def sampleAddr (f : FrameRegs) (base stride : Addr) (r x : Nat) : Addr :=
  base + BitVec.ofNat 64 r * stride + BitVec.ofNat 64 (x * bpsOfFmt f.fmt)

/-- Component `i` of output row `h`: `C[4j] = U[j]`, `C[4j+1] = Y[2j]`, `C[4j+2] = V[j]`, `C[4j+3] = Y[2j+1]` (R94), with the
samples of R180. -/
def component (s : State) (h i : Nat) : Nat :=
  let f := s.frame
  let d := depthOfFmt f.fmt
  if i % 4 = 0 then s.sampleAt d (sampleAddr f f.uBase f.uStride (crow f h) (i / 4))
  else if i % 4 = 1 then s.sampleAt d (sampleAddr f f.yBase f.yStride h (2 * (i / 4)))
  else if i % 4 = 2 then s.sampleAt d (sampleAddr f f.vBase f.vStride (crow f h) (i / 4))
  else s.sampleAt d (sampleAddr f f.yBase f.yStride h (2 * (i / 4) + 1))

/-- The value of slot position `i` of a line: the field of component `i`, or 0 past the last one (R91, R94). -/
def slotField (s : State) (h i : Nat) : Nat :=
  if i < 2 * s.frame.width.toNat then field (depthOfFmt s.frame.fmt) (component s h i) else 0

/-- `Word[m]` of output row `h` (R94). -/
def lineWord (s : State) (h m : Nat) : Nat :=
  packed (slotField s h (3 * m)) (slotField s h (3 * m + 1)) (slotField s h (3 * m + 2))

/-- Byte `j` of output line `h`: the content words little-endian, then zeros (R94, R181). -/
def lineByte (s : State) (h j : Nat) : Nat :=
  if j < contentBytes s.frame.width.toNat then lineWord s h (j / 4) / 256 ^ (j % 4) % 256 else 0

/-- `k` of R178: the groups left to the scalar loop after the bulk routine. -/
def extraGroups (s : State) : Nat := (s.frame.width.toNat - bulkCount s) / 6

/-- Sequencer steps of one row (R179). -/
def rowSteps (s : State) : Nat := 7 + extraGroups s

/-- Sequencer steps of a run (R179). -/
def runSteps (s : State) : Nat := s.frame.height.toNat * rowSteps s + 1

/-- The remainder operation of a line (R178). -/
def tailOps (d : Depth) (w : Nat) : List Instr :=
  if w % 6 = 2 then [.tail2 d] else if w % 6 = 4 then [.tail4 d] else []

/-- The line program (R178). -/
def lineProgram (s : State) : List Instr :=
  [.rowsel, .bulk (depthOfFmt s.frame.fmt) (bulkCount s)]
    ++ List.replicate (extraGroups s) (.group (depthOfFmt s.frame.fmt))
    ++ tailOps (depthOfFmt s.frame.fmt) s.frame.width.toNat
    ++ [.zfill (linePadOf s.frame.width.toNat), .rowadv]

/-- The samples read through `YP`, `UP`, `VP` and the bytes written by each packing operation (R135). -/
def packTotals : Instr → Option (Nat × Nat × Nat × Nat)
  | .word _ p => some (patUses p .y, patUses p .u, patUses p .v, 4)
  | .group _ => some (6, 3, 3, 16)
  | .bulk _ n => some (n, n / 2, n / 2, 16 * (n / 6))
  | .tail2 _ => some (2, 1, 1, 8)
  | .tail4 _ => some (4, 2, 2, 12)
  | .nop => none
  | .acc _ _ _ => none
  | .flush => none
  | .zfill _ => none
  | .rowsel => none
  | .rowadv => none
  | .init => none
  | .start => none
  | .ack => none

/-- The depth field of a packing operation (R96). -/
def packDepth : Instr → Depth
  | .word d _ => d
  | .group d => d
  | .bulk d _ => d
  | .tail2 d => d
  | .tail4 d => d
  | .acc d _ _ => d
  | .nop => .d8
  | .flush => .d8
  | .zfill _ => .d8
  | .rowsel => .d8
  | .rowadv => .d8
  | .init => .d8
  | .start => .d8
  | .ack => .d8

/-- The low bits of a register that an accepted write stores (R31, column "bits used"). -/
def bitsStored : Reg → Nat
  | .inten => 1
  | .format => 2
  | .width => 16
  | .height => 16
  | .framectl => 1
  | .row => 16
  | .yBase _ => 32
  | .uBase _ => 32
  | .vBase _ => 32
  | .yStride _ => 32
  | .uStride _ => 32
  | .vStride _ => 32
  | .dstBase _ => 32
  | .dstSize _ => 32
  | .yp _ => 32
  | .up _ => 32
  | .vp _ => 32
  | .dp _ => 32
  | .uc _ => 32
  | .vc _ => 32
  | .ctrl => 0
  | .status => 0
  | .errcode => 0
  | .variant => 0
  | .cmd => 0
  | .lineStride => 0
  | .linePad => 0
  | .frameSize _ => 0
  | .val => 0
  | .col => 0
  | .phase => 0

/-- The operations of a list, one after another (R20). -/
def runOps : List Instr → Op
  | [] => fun s => .next s
  | i :: l => andThen (exec i) (runOps l)

end Sys2Proof.Machine
end

