-- ==== Sys2Proof/Safety.lean ====
section
/-! DEFINITION. What claims call a sound state and a proper run: the invariant of the state (R53), the states a machine can
reach, the start of a run (R165), and the host's duties toward its buffers (R73 to R75). -/

namespace Sys2Proof.Machine

/-- The setup is valid and the derived registers describe it (R45, R53). -/
structure SetupValid (s : State) : Prop where
  evenWidth : s.frame.width.toNat % 2 = 0
  legalFormat : s.frame.fmt ≠ 3
  lineStride : s.derived.lineStride.toNat = lineStrideOf s.frame.width.toNat
  linePad : s.derived.linePad.toNat = linePadOf s.frame.width.toNat
  frameSize : s.derived.frameSize.toNat = frameSizeOf s.frame.width.toNat s.frame.height.toNat

/-- Where the sequencer can be in each phase (R27, R170 to R176). -/
def PositionOk (s : State) : Prop :=
  let w := s.frame.width.toNat
  let row := s.seq.row.toNat
  let col := s.seq.col.toNat
  match s.seq.phase with
  | .chk => row ≤ s.frame.height.toNat ∧ col = 0
  | .sel => row < s.frame.height.toNat ∧ col = 0
  | .bulk => row < s.frame.height.toNat ∧ col = 0
  | .grp => row < s.frame.height.toNat ∧ col ≤ w ∧ col % 6 = 0
  | .tail => row < s.frame.height.toNat ∧ col ≤ w ∧ col % 6 = 0 ∧ w < col + 6
  | .fill => row < s.frame.height.toNat ∧ col = w
  | .adv => row < s.frame.height.toNat ∧ col = w

/-- What holds while a run is in progress (R53). -/
structure RunOk (s : State) : Prop where
  fits : s.derived.frameSize.toNat ≤ s.frame.dstSize.toNat
  valZero : s.work.val = 0
  position : PositionOk s

/-- The invariant of the state: R53, strengthened so that every step keeps it. -/
structure StateInv (s : State) : Prop where
  memWf : Memory.wf s.mem
  factors : 1 ≤ s.variant.sf8.toNat ∧ 1 ≤ s.variant.sf10.toNat
  errCode : s.flags.err = true ↔ s.flags.errcode ≠ .none
  valPad : s.work.val.toNat < 2 ^ 30
  setup : s.flags.st ≠ .unconf → SetupValid s
  run : s.flags.st = .busy → RunOk s

/-- A state right after reset, with any legal sample factors (R9), any memory contents in canonical form, any provided
regions and any host actions to come. -/
def Launched (s : State) : Prop :=
  ∃ v m rs l, 1 ≤ v.sf8.toNat ∧ 1 ≤ v.sf10.toNat ∧ Memory.wf m ∧
    s = { State.resetFor v with mem := m, regions := rs, inputs := l }

/-- The states reached from a launch. -/
inductive Reachable : State → Prop where
  | launch (s : State) : Launched s → Reachable s
  | step (s t : State) : Reachable s → Sys2Proof.Machine.step s = .next t → Reachable t

/-- The first state of a run, as an accepted `START` leaves it (R165), with no host action to come. -/
structure RunStart (s : State) : Prop where
  inv : StateInv s
  busy : s.flags.st = .busy
  position : s.seq = ⟨0, .chk, 0⟩
  luma : s.work.yp = s.frame.yBase
  chromaU : s.work.up = s.frame.uBase
  chromaV : s.work.vp = s.frame.vBase
  dest : s.work.dp = s.frame.dstBase
  quiet : s.inputs = []

/-- A step of the state executes `i` completely and then moves the sequencer position by `f`; where `i` stops, so does the
step (R20, R169). -/
def StepIssues (s : State) (i : Instr) (f : SeqPos → SeqPos) : Prop :=
  (∀ r, exec i s = .next r → step s = .next (r.setSeq (f r.seq))) ∧
    (∀ q, exec i s = .fault q → step s = .fault q)

/-- The head of the input list is the action `a`, and its turn has come; `r` is the state without it (R169). -/
def Due (s : State) (a : HostAct) (r : State) : Prop :=
  ∃ k rest, s.inputs = ⟨k, a⟩ :: rest ∧ (k = 0 ∨ s.flags.st ≠ .busy) ∧ r = s.setInputs rest

/-- The host has provided every byte of the source and destination regions (R73, R74). -/
structure BuffersProvided (s : State) : Prop where
  sources : ∀ a, inSource s.frame a = true → s.canRead a = true
  dest : ∀ a, inDest s a = true → s.canWrite a = true

/-- The destination region overlaps no source region (R75). -/
def BuffersDisjoint (s : State) : Prop := ∀ a, inDest s a = true → inSource s.frame a = false

/-- The host's contract on the regions of a run (R75, R251): the destination overlaps no source, and neither it nor a source
region wraps, within a row or between rows. The claims of the spec about the contents of a run are made for such runs alone
(R246, U3, D21). -/
structure RegionsInContract (s : State) : Prop where
  apart : BuffersDisjoint s
  dest : destNoWrap s
  sources : sourcesNoWrap s.frame

/-- Everything but the working registers and the bytes of memory is the same in both states. -/
structure KeepsRest (s t : State) : Prop where
  seq : t.seq = s.seq
  flags : t.flags = s.flags
  frame : t.frame = s.frame
  derived : t.derived = s.derived
  variant : t.variant = s.variant
  regions : t.regions = s.regions
  inputs : t.inputs = s.inputs
  reply : t.reply = s.reply
  freeCount : t.freeCount = s.freeCount

end Sys2Proof.Machine
end

