-- ==== Sys2Proof/Certificates/Slice0/Obligations.lean ====
section
/-! DEFINITION. The statements for the provers: what the rules of the spec say the instructions, the register port, the
sequencer and a run do, and what the whole machine keeps. -/

open Sys2Proof Sys2Proof.Machine

/-! ### Reset and the invariant -/

/-- R52: after reset every register of the map reads as its reset value, all zero except `VARIANT`, for every build; so the
block is `UNCONF`, no flag is set, `irq` is low, `VAL` is 0 and the sequencer is at `(0, CHK, 0)`. -/
def Obligations.ResetValuesOfEveryRegister : Prop :=
  ∀ v : Variant,
    (∀ slot, readOffset (4 * slot) (State.resetFor v) =
      if 4 * slot = 0x1C then BitVec.ofNat 32 (v.sf10.toNat * 16 + v.sf8.toNat) else 0) ∧
    (State.resetFor v).flags = ⟨.unconf, false, false, .none, false⟩ ∧
    (State.resetFor v).flags.irq = false ∧
    (State.resetFor v).seq = ⟨0, .chk, 0⟩ ∧
    (State.resetFor v).work = ⟨0, 0, 0, 0, 0, 0, 0⟩ ∧
    (State.resetFor v).frame = ⟨0, 0, 0, false, 0, 0, 0, 0, 0, 0, 0, 0⟩ ∧
    (State.resetFor v).derived = ⟨0, 0, 0⟩

/-- R241: the reset input puts every register at its reset value, `VARIANT` keeps the build's factors, memory is not touched
(but for the destination bytes of a run in progress, which R242 leaves open: log entry 9), and after it the block does nothing until a
host action comes. -/
def Obligations.ResetInputResetsTheBlock : Prop :=
  ∀ s r, Due s .reset r →
    ∃ t, step s = .next t ∧
      t.work = ⟨0, 0, 0, 0, 0, 0, 0⟩ ∧ t.seq = ⟨0, .chk, 0⟩ ∧ t.flags = ⟨.unconf, false, false, .none, false⟩ ∧
      t.frame = ⟨0, 0, 0, false, 0, 0, 0, 0, 0, 0, 0, 0⟩ ∧ t.derived = ⟨0, 0, 0⟩ ∧
      t.variant = s.variant ∧ t.flags.irq = false ∧
      (s.flags.st ≠ .busy → ∀ a, t.byteAt a = s.byteAt a) ∧
      (∀ a, inDest s a = false → t.byteAt a = s.byteAt a) ∧
      (t.inputs = [] → step t = .next t)

/-- The invariant holds right after reset, for every build. -/
def Obligations.InvariantHoldsAtReset : Prop :=
  ∀ v : Variant, 1 ≤ v.sf8.toNat → 1 ≤ v.sf10.toNat → StateInv (State.resetFor v)

/-- From every state that meets the invariant, whatever the host does next, a step gives a state that meets it: the memory
keeps its canonical form, `ERR` goes with `ERRCODE`, `VAL[31:30]` stays 0, a validated setup stays validated, and a run's
position stays legal. -/
def Obligations.EveryStepKeepsTheInvariant : Prop :=
  ∀ s t, StateInv s → step s = .next t → StateInv t

/-- R53, clause by clause, in every state reached from a launch. -/
def Obligations.ReachableStatesObeyTheStateRules : Prop :=
  ∀ s, Reachable s →
    s.flags.status % 4 ≠ 3 ∧
    (Reg.phase.value s).toNat ≠ 7 ∧
    s.work.val.toNat / 2 ^ 30 = 0 ∧
    (s.flags.err = true ↔ s.flags.errcode.code ≠ 0) ∧
    ((s.flags.st = .ready ∨ s.flags.st = .busy) →
      s.frame.width.toNat % 2 = 0 ∧ s.frame.fmt ≠ 3 ∧
      s.derived.lineStride.toNat = lineStrideOf s.frame.width.toNat ∧
      s.derived.linePad.toNat = linePadOf s.frame.width.toNat ∧
      s.derived.frameSize.toNat = frameSizeOf s.frame.width.toNat s.frame.height.toNat) ∧
    (s.flags.st = .busy →
      s.derived.frameSize.toNat ≤ s.frame.dstSize.toNat ∧
      s.seq.row.toNat ≤ s.frame.height.toNat ∧
      s.seq.col.toNat ≤ s.frame.width.toNat ∧
      s.seq.col.toNat % 2 = 0 ∧
      s.work.val = 0)

/-! ### Encoding -/

/-- Decoding the word of a well-formed instruction, at the register it is written to, gives that instruction, with every
operand at every value its field admits. -/
def Obligations.DecodeOfEncodeIsTheInstruction : Prop :=
  ∀ i : Instr, i.wf = true → decode i.port (encode i) = .ok i

/-- The other direction (R103: "two different legal words are different operations"): a legal word is the encoding of what it
decodes to, so no legal word has a second reading and no two legal words share one. -/
def Obligations.LegalWordIsTheEncodingOfItsReading : Prop :=
  ∀ p w i, decode p w = .ok i → i.port = p ∧ i.wf = true ∧ encode i = w

/-- R103's count of the legal micro-operation words among all `2^32`. -/
def Obligations.LegalMicroOperationWordsNumber196644 : Prop :=
  Nat.card {c : Word32 // ∃ i, decodeCmd c = .ok i} = 196644

/-- R104: a word is a row's operation exactly when `c & mask = match` and the row's extra condition holds (for `ACC`,
`SLOT != 3` and `SRC != 3`); and no two rows share a word. -/
def Obligations.OpcodeMapSelectsTheOperation : Prop :=
  (∀ c : Word32, ∀ e ∈ opcodeMap,
    (∃ i, decodeCmd c = .ok i ∧ i.opc = some e.1) ↔
      (c &&& e.2.2 = e.2.1 ∧ (e.1 = 1 → bits c 26 25 ≠ 3 ∧ bits c 24 23 ≠ 3))) ∧
  (∀ c : Word32, ∀ e ∈ opcodeMap, ∀ e' ∈ opcodeMap, c &&& e.2.2 = e.2.1 → c &&& e'.2.2 = e'.2.1 → e = e')

/-- Words written out from the spec's encodings (R109, V4 and V5 of `95_test_vectors.md`), one per family and some illegal
ones. -/
def Obligations.SampleWordsDecodeAsTheSpecSays : Prop :=
  decodeCmd 0x00000000 = .ok .nop ∧
  decodeCmd 0x1A000000 = .ok (.acc .d10 .s1 .y) ∧
  decodeCmd 0x15000000 = .ok (.acc .d8 .s2 .v) ∧
  decodeCmd 0x20000000 = .ok .flush ∧
  decodeCmd 0x3C000000 = .ok (.word .d10 .vyu) ∧
  decodeCmd 0x48000000 = .ok (.group .d10) ∧
  decodeCmd 0x58000030 = .ok (.bulk .d10 48) ∧
  decodeCmd 0x68000000 = .ok (.tail2 .d10) ∧
  decodeCmd 0x70000000 = .ok (.tail4 .d8) ∧
  decodeCmd 0x80000070 = .ok (.zfill 112) ∧
  decodeCmd 0x90000000 = .ok .rowsel ∧
  decodeCmd 0xA0000000 = .ok .rowadv ∧
  decodeCtrl 1 = .ok .init ∧ decodeCtrl 2 = .ok .start ∧ decodeCtrl 4 = .ok .ack ∧
  decodeCmd 0x1E000000 = .error .reservedSlot ∧
  decodeCmd 0x10010000 = .error .zeroBits ∧
  decodeCmd 0xB0000000 = .error .reservedOpc ∧
  decodeCtrl 3 = .error .reservedCtrl

/-! ### One step runs one thing -/

/-- R167 and R168: what a write to `CMD` (slot 9) and to `CTRL` (slot 0) does. A legal word's step IS the instruction's
meaning at that state; `CMD` is refused with `HOST_PROTOCOL` unless `READY`, checked before the word; an illegal word or value
raises `ILL_CMD` and does nothing else. -/
def Obligations.CommandWriteRunsTheDecodedInstruction : Prop :=
  ∀ s r w,
    (Due s (.write 9 w) r →
      (s.flags.st ≠ .ready → step s = .next (raiseErr .hostProtocol r)) ∧
      (s.flags.st = .ready → ∀ i, decodeCmd w = .ok i → step s = exec i r) ∧
      (s.flags.st = .ready → ∀ e, decodeCmd w = .error e → step s = .next (raiseErr .illCmd r))) ∧
    (Due s (.write 0 w) r →
      (w = 1 → step s = exec .init r) ∧ (w = 2 → step s = exec .start r) ∧ (w = 4 → step s = exec .ack r) ∧
      (w ≠ 1 → w ≠ 2 → w ≠ 4 → step s = .next (raiseErr .illCmd r)))

/-- The model's own interface (log entries 12 and 13): with a table word placed as the next host write, the very next step is
the meaning of the instruction the word decodes to. -/
def Obligations.PlacedTableWordRunsNext : Prop :=
  ∀ (s : State) (w : Nat) (i : Instr), w < 2 ^ 32 → decodeTableWord 32 w = some i →
    step (s.withFetchWord 32 w) = exec i (if i.port = .cmd then setSt .ready s else s)

/-- R170 to R176: a step of a running block, no host action pending, is the step its `PHASE` names: it executes the named
micro-operation with the operands of the rule and moves `PHASE` and `COL` as the rule says. -/
def Obligations.SequencerStepIssuesItsOperation : Prop :=
  ∀ s : State, s.flags.st = .busy → s.inputs = [] →
    let d := if s.frame.fmt = 2 then Depth.d10 else Depth.d8
    let gs := if s.frame.fmt = 2 then 6 * s.variant.sf10.toNat else 12 * s.variant.sf8.toNat
    let w := s.frame.width.toNat
    let col := s.seq.col.toNat
    let n := w / gs * gs
    (s.seq.phase = .chk → s.seq.row = s.frame.height →
      step s = .next (s.setFlags { s.flags with st := .ready, done := true })) ∧
    (s.seq.phase = .chk → s.seq.row ≠ s.frame.height → step s = .next (s.setSeq { s.seq with phase := .sel })) ∧
    (s.seq.phase = .sel → StepIssues s .rowsel (fun q => { q with phase := .bulk })) ∧
    (s.seq.phase = .bulk → StepIssues s (.bulk d n) (fun q => { q with col := BitVec.ofNat 16 n, phase := .grp })) ∧
    (s.seq.phase = .grp → col + 6 ≤ w →
      StepIssues s (.group d) (fun q => { q with col := BitVec.ofNat 16 (q.col.toNat + 6) })) ∧
    (s.seq.phase = .grp → w < col + 6 → step s = .next (s.setSeq { s.seq with phase := .tail })) ∧
    (s.seq.phase = .tail → w = col + 2 →
      StepIssues s (.tail2 d) (fun q => { q with col := BitVec.ofNat 16 (q.col.toNat + 2), phase := .fill })) ∧
    (s.seq.phase = .tail → w = col + 4 →
      StepIssues s (.tail4 d) (fun q => { q with col := BitVec.ofNat 16 (q.col.toNat + 4), phase := .fill })) ∧
    (s.seq.phase = .tail → w = col → step s = .next (s.setSeq { s.seq with phase := .fill })) ∧
    (s.seq.phase = .fill → StepIssues s (.zfill s.derived.linePad.toNat) (fun q => { q with phase := .adv })) ∧
    (s.seq.phase = .adv → StepIssues s .rowadv (fun q => { q with col := 0, phase := .chk }))

/-- The model's own ordering of host and block (log entries 7 and 11): a due action is taken, and what the block does while an
action waits is what it does with none to come; a block that is not `BUSY` and has no action to take stays as it is
(R230). -/
def Obligations.TurnsFollowTheInputList : Prop :=
  (∀ s a r, Due s a r → step s = hostAct a r) ∧
  (∀ s k a rest, s.inputs = ⟨k + 1, a⟩ :: rest → s.flags.st = .busy →
    step s = seqStep (s.setInputs (⟨k, a⟩ :: rest))) ∧
  (∀ s, s.inputs = [] → s.flags.st = .busy → step s = seqStep s) ∧
  (∀ s, s.inputs = [] → s.flags.st ≠ .busy → step s = .next s)

/-! ### Formats -/

/-- R13 to R15: the clips and the field value. -/
def Obligations.FieldValuesAndClips : Prop :=
  (∀ v, v ≤ 4 → clip10 v = 4) ∧ (∀ v, 4 ≤ v → v ≤ 1019 → clip10 v = v) ∧ (∀ v, 1019 ≤ v → clip10 v = 1019) ∧
  clip8 0 = 1 ∧ clip8 255 = 254 ∧ (∀ v, 1 ≤ v → v ≤ 254 → clip8 v = v) ∧
  (∀ v, field .d10 v = clip10 v ∧ 4 ≤ field .d10 v ∧ field .d10 v ≤ 1019) ∧
  (∀ v, field .d8 v = clip8 v * 4 ∧ 4 ≤ field .d8 v ∧ field .d8 v ≤ 1016 ∧ field .d8 v % 4 = 0) ∧
  (∀ d v, 0 < field d v ∧ field d v < 1024)

/-- R16 to R19: the size formulas, their second forms and their bounds. -/
def Obligations.LineAndFrameSizes : Prop :=
  (∀ w, lineStrideOf w = ceilDiv w 48 * 48 * 8 / 3 ∧ lineStrideOf w = ceilDiv w 48 * 128 ∧ lineStrideOf w % 4 = 0) ∧
  lineStrideOf 0 = 0 ∧ lineStrideOf 65534 = 174848 ∧ (∀ w, w < 65535 → lineStrideOf w ≤ 174848) ∧ 174848 < 2 ^ 18 ∧
  (∀ w, w % 2 = 0 → contentWords w = 4 * (w / 6) + (if w % 6 = 2 then 2 else if w % 6 = 4 then 3 else 0) ∧
    contentWords w = ceilDiv (2 * w) 3 ∧ contentBytes w = 4 * contentWords w) ∧
  (∀ w, w % 2 = 0 → contentBytes w ≤ lineStrideOf w ∧ linePadOf w = lineStrideOf w - contentBytes w ∧
    linePadOf w ≤ 120 ∧ (linePadOf w = 0 ↔ w % 48 = 0)) ∧
  linePadOf 2 = 120 ∧ linePadOf 4 = 116 ∧ linePadOf 6 = 112 ∧ linePadOf 48 = 0 ∧ linePadOf 50 = 120 ∧
  linePadOf 52 = 116 ∧ linePadOf 1280 = 40 ∧ linePadOf 1920 = 0 ∧
  (∀ w h, frameSizeOf w h = h * lineStrideOf w) ∧
  (∀ w h, w < 65535 → h < 65536 → frameSizeOf w h ≤ 11458663680) ∧ 11458663680 < 2 ^ 34

/-! ### The micro-operations -/

/-- R122: from any state `NOP` leaves the state unchanged. -/
def Obligations.NopChangesNothing : Prop :=
  encode .nop = 0 ∧
  ∀ s : State, exec .nop s = .next s

/-- R123: where the sample's bytes are provided, `ACC` completes: it reads one sample through the named pointer (1 byte, or 2
little-endian), advances that pointer by the sample's bytes, and ORs the field into `VAL` at the slot. Nothing else
changes. -/
def Obligations.AccOrsOneFieldIntoVal : Prop :=
  (∀ d slot c, encode (.acc d slot c) = packFields 1 d.code slot.code c.code 0) ∧
  ∀ (d : Depth) (slot : Slot) (c : Src) (s : State), s.readable (s.work.ptr c) (bps d) = true →
    ∃ t, exec (.acc d slot c) s = .next t ∧
      t.work.ptr c = s.work.ptr c + BitVec.ofNat 64 (bps d) ∧
      t.work.val = s.work.val ||| (BitVec.ofNat 32 (field d (s.sampleAt d (s.work.ptr c))) <<< (10 * slot.code)) ∧
      (∀ c', c' ≠ c → t.work.ptr c' = s.work.ptr c') ∧
      t.work.dp = s.work.dp ∧ t.work.uc = s.work.uc ∧ t.work.vc = s.work.vc ∧
      KeepsRest s t ∧ (∀ a, t.byteAt a = s.byteAt a)

/-- R124, R64: where the four bytes at `DP` are provided, `FLUSH` completes: byte `k` at `DP +% k` is `VAL[8k+7:8k]`, `DP`
advances by 4, `VAL` is 0. Every other byte and register is unchanged. -/
def Obligations.FlushStoresValLittleEndian : Prop :=
  encode .flush = packFields 2 0 0 0 0 ∧
  ∀ s : State, s.writable s.work.dp 4 = true →
    ∃ t, exec .flush s = .next t ∧
      (∀ k, k < 4 → t.byteAt (s.work.dp + BitVec.ofNat 64 k) = s.work.val.extractLsb' (8 * k) 8) ∧
      (∀ a, outside a s.work.dp 4 → t.byteAt a = s.byteAt a) ∧
      t.work.dp = s.work.dp + 4 ∧ t.work.val = 0 ∧
      (∀ c, t.work.ptr c = s.work.ptr c) ∧ t.work.uc = s.work.uc ∧ t.work.vc = s.work.vc ∧ KeepsRest s t

/-- R125, R126: where its samples and its four output bytes are provided, `WORD` completes: the three components of the
pattern, in order, are ORed with what `VAL` held into one word stored little-endian at `DP`; each pointer advances by the
table of R126; `VAL` is 0. Nothing else changes. -/
def Obligations.WordPacksItsPattern : Prop :=
  (∀ d p, encode (.word d p) = packFields 3 d.code p.code 0 0) ∧
  ∀ (d : Depth) (p : Pat) (s : State),
    (∀ c, s.readable (s.work.ptr c) (patUses p c * bps d) = true) → s.writable s.work.dp 4 = true →
    ∃ t, exec (.word d p) s = .next t ∧
      t.loadLE 4 s.work.dp =
        (s.work.val
          ||| BitVec.ofNat 32 (s.nextField d (patSample p .s0).1 (patSample p .s0).2)
          ||| (BitVec.ofNat 32 (s.nextField d (patSample p .s1).1 (patSample p .s1).2) <<< 10)
          ||| (BitVec.ofNat 32 (s.nextField d (patSample p .s2).1 (patSample p .s2).2) <<< 20)).toNat ∧
      (∀ a, outside a s.work.dp 4 → t.byteAt a = s.byteAt a) ∧
      (∀ c, t.work.ptr c = s.work.ptr c + BitVec.ofNat 64 (patUses p c * bps d)) ∧
      t.work.dp = s.work.dp + 4 ∧ t.work.val = 0 ∧ t.work.uc = s.work.uc ∧ t.work.vc = s.work.vc ∧ KeepsRest s t

/-- R133, R90: with `VAL = 0` on entry the three lanes of the word a `WORD` writes are the three fields, each from one sample
alone, and the two top bits are 0; and a sample inside its legal range is in its lane unchanged. -/
def Obligations.WordLanesAreIndependent : Prop :=
  (∀ (d : Depth) (p : Pat) (s t : State), s.work.val = 0 → exec (.word d p) s = .next t →
    t.loadLE 4 s.work.dp % 1024 = s.nextField d (patSample p .s0).1 (patSample p .s0).2 ∧
    t.loadLE 4 s.work.dp / 1024 % 1024 = s.nextField d (patSample p .s1).1 (patSample p .s1).2 ∧
    t.loadLE 4 s.work.dp / 1048576 % 1024 = s.nextField d (patSample p .s2).1 (patSample p .s2).2 ∧
    t.loadLE 4 s.work.dp / 2 ^ 30 = 0) ∧
  (∀ v, 4 ≤ v → v ≤ 1019 → field .d10 v = v) ∧ (∀ v, 1 ≤ v → v ≤ 254 → field .d8 v / 4 = v)

/-- R127, R93: where 6 luma and 3 + 3 chroma samples and 16 output bytes are provided, `GROUP` completes: the pointers
advance by them, `DP` by 16, `VAL` is 0, every byte outside `[DP, DP+16)` and every other register is unchanged; and with
`VAL = 0` on entry and the output apart from the samples, the four words are those of R93's table. -/
def Obligations.GroupPacksSixLumaSamples : Prop :=
  (∀ d, encode (.group d) = packFields 4 d.code 0 0 0) ∧
  ∀ (d : Depth) (s : State),
    s.readable s.work.yp (6 * bps d) = true → s.readable s.work.up (3 * bps d) = true →
    s.readable s.work.vp (3 * bps d) = true → s.writable s.work.dp 16 = true →
    ∃ t, exec (.group d) s = .next t ∧
      t.work = { s.work with
        yp := s.work.yp + BitVec.ofNat 64 (6 * bps d)
        up := s.work.up + BitVec.ofNat 64 (3 * bps d)
        vp := s.work.vp + BitVec.ofNat 64 (3 * bps d)
        dp := s.work.dp + 16
        val := 0 } ∧
      KeepsRest s t ∧ (∀ a, outside a s.work.dp 16 → t.byteAt a = s.byteAt a) ∧
      (s.work.val = 0 →
        (∀ i, i < 6 * bps d → outside (s.work.yp + BitVec.ofNat 64 i) s.work.dp 16) →
        (∀ i, i < 3 * bps d → outside (s.work.up + BitVec.ofNat 64 i) s.work.dp 16) →
        (∀ i, i < 3 * bps d → outside (s.work.vp + BitVec.ofNat 64 i) s.work.dp 16) →
        t.loadLE 4 s.work.dp = packed (s.nextField d .u 0) (s.nextField d .y 0) (s.nextField d .v 0) ∧
        t.loadLE 4 (s.work.dp + 4) = packed (s.nextField d .y 1) (s.nextField d .u 1) (s.nextField d .y 2) ∧
        t.loadLE 4 (s.work.dp + 8) = packed (s.nextField d .v 1) (s.nextField d .y 3) (s.nextField d .u 2) ∧
        t.loadLE 4 (s.work.dp + 12) = packed (s.nextField d .y 4) (s.nextField d .v 2) (s.nextField d .y 5))

/-- R128: a `BULK` whose count is a multiple of the group size is that many whole groups one after another, and completes
where the samples and the output bytes are provided, advancing the pointers by `N`, `N/2`, `N/2` samples and `DP` by
`N/6 * 16`, with `VAL = 0` after (`BULK 0` does nothing), every byte outside the output and every other register unchanged; a
`BULK` with any other count raises `ILL_CMD` and does nothing else. -/
def Obligations.BulkPacksWholeGroupsOrRefuses : Prop :=
  (∀ d n, encode (.bulk d n) = packFields 5 d.code 0 0 n) ∧
  ∀ (d : Depth) (n : Nat) (s : State),
    let gs := match d with
      | .d10 => 6 * s.variant.sf10.toNat
      | .d8 => 12 * s.variant.sf8.toNat
    (n % gs = 0 → exec (.bulk d n) s = repeatOp (n / 6) (exec (.group d)) s) ∧
    (n % gs = 0 →
      s.readable s.work.yp (n * bps d) = true → s.readable s.work.up (n / 2 * bps d) = true →
      s.readable s.work.vp (n / 2 * bps d) = true → s.writable s.work.dp (n / 6 * 16) = true →
      ∃ t, exec (.bulk d n) s = .next t ∧
        t.work.yp = s.work.yp + BitVec.ofNat 64 (n * bps d) ∧
        t.work.up = s.work.up + BitVec.ofNat 64 (n / 2 * bps d) ∧
        t.work.vp = s.work.vp + BitVec.ofNat 64 (n / 2 * bps d) ∧
        t.work.dp = s.work.dp + BitVec.ofNat 64 (n / 6 * 16) ∧
        t.work.uc = s.work.uc ∧ t.work.vc = s.work.vc ∧
        (t.work.val = if n = 0 then s.work.val else 0) ∧
        KeepsRest s t ∧ (∀ a, outside a s.work.dp (n / 6 * 16) → t.byteAt a = s.byteAt a)) ∧
    (n % gs ≠ 0 → exec (.bulk d n) s = .next (raiseErr .illCmd s))

/-- R130: where 2 luma and 1 + 1 chroma samples and 8 output bytes are provided, `TAIL2` completes, with the pointers advanced
by them, `DP` by 8, `VAL = 0`, nothing else changed; and with `VAL = 0` on entry and the output apart from the samples, it
writes the words `(U0, Y0, V0)` and `(Y1, -, -)`. -/
def Obligations.Tail2PacksTwoLumaSamples : Prop :=
  (∀ d, encode (.tail2 d) = packFields 6 d.code 0 0 0) ∧
  ∀ (d : Depth) (s : State),
    s.readable s.work.yp (2 * bps d) = true → s.readable s.work.up (bps d) = true →
    s.readable s.work.vp (bps d) = true → s.writable s.work.dp 8 = true →
    ∃ t, exec (.tail2 d) s = .next t ∧
      t.work = { s.work with
        yp := s.work.yp + BitVec.ofNat 64 (2 * bps d)
        up := s.work.up + BitVec.ofNat 64 (bps d)
        vp := s.work.vp + BitVec.ofNat 64 (bps d)
        dp := s.work.dp + 8
        val := 0 } ∧
      KeepsRest s t ∧ (∀ a, outside a s.work.dp 8 → t.byteAt a = s.byteAt a) ∧
      (s.work.val = 0 →
        (∀ i, i < 2 * bps d → outside (s.work.yp + BitVec.ofNat 64 i) s.work.dp 8) →
        (∀ i, i < bps d → outside (s.work.up + BitVec.ofNat 64 i) s.work.dp 8) →
        (∀ i, i < bps d → outside (s.work.vp + BitVec.ofNat 64 i) s.work.dp 8) →
        t.loadLE 4 s.work.dp = packed (s.nextField d .u 0) (s.nextField d .y 0) (s.nextField d .v 0) ∧
        t.loadLE 4 (s.work.dp + 4) = packed (s.nextField d .y 1) 0 0)

/-- R131: where 4 luma and 2 + 2 chroma samples and 12 output bytes are provided, `TAIL4` completes, with the pointers
advanced by them, `DP` by 12, `VAL = 0`, nothing else changed; and with `VAL = 0` on entry and the output apart from the
samples, it writes the words `(U0, Y0, V0)`, `(Y1, U1, Y2)` and `(V1, Y3, -)`. -/
def Obligations.Tail4PacksFourLumaSamples : Prop :=
  (∀ d, encode (.tail4 d) = packFields 7 d.code 0 0 0) ∧
  ∀ (d : Depth) (s : State),
    s.readable s.work.yp (4 * bps d) = true → s.readable s.work.up (2 * bps d) = true →
    s.readable s.work.vp (2 * bps d) = true → s.writable s.work.dp 12 = true →
    ∃ t, exec (.tail4 d) s = .next t ∧
      t.work = { s.work with
        yp := s.work.yp + BitVec.ofNat 64 (4 * bps d)
        up := s.work.up + BitVec.ofNat 64 (2 * bps d)
        vp := s.work.vp + BitVec.ofNat 64 (2 * bps d)
        dp := s.work.dp + 12
        val := 0 } ∧
      KeepsRest s t ∧ (∀ a, outside a s.work.dp 12 → t.byteAt a = s.byteAt a) ∧
      (s.work.val = 0 →
        (∀ i, i < 4 * bps d → outside (s.work.yp + BitVec.ofNat 64 i) s.work.dp 12) →
        (∀ i, i < 2 * bps d → outside (s.work.up + BitVec.ofNat 64 i) s.work.dp 12) →
        (∀ i, i < 2 * bps d → outside (s.work.vp + BitVec.ofNat 64 i) s.work.dp 12) →
        t.loadLE 4 s.work.dp = packed (s.nextField d .u 0) (s.nextField d .y 0) (s.nextField d .v 0) ∧
        t.loadLE 4 (s.work.dp + 4) = packed (s.nextField d .y 1) (s.nextField d .u 1) (s.nextField d .y 2) ∧
        t.loadLE 4 (s.work.dp + 8) = packed (s.nextField d .v 1) (s.nextField d .y 3) 0)

/-- R151: where the `N` bytes at `DP` are provided, `ZFILL N` completes: each of them is 0, `DP` advances by `N`, `VAL` and
every other register and byte are unchanged; `ZFILL 0` changes nothing. -/
def Obligations.ZfillWritesZeroBytes : Prop :=
  (∀ n, encode (.zfill n) = packFields 8 0 0 0 n) ∧
  ∀ (n : Nat) (s : State), s.writable s.work.dp n = true →
    ∃ t, exec (.zfill n) s = .next t ∧
      (∀ i, i < n → t.byteAt (s.work.dp + BitVec.ofNat 64 i) = 0) ∧
      (∀ a, outside a s.work.dp n → t.byteAt a = s.byteAt a) ∧
      t.work = { s.work with dp := s.work.dp + BitVec.ofNat 64 n } ∧ KeepsRest s t ∧ (n = 0 → t = s)

/-- R162: `ROWSEL` always completes. With `FMT = 1` an even row captures the chroma pointers and an odd row goes back to the
captured ones, in progressive and interlaced mode alike; with another format nothing changes. It touches neither memory nor
any other register. -/
def Obligations.RowselCapturesOrReusesTheChromaRow : Prop :=
  encode .rowsel = packFields 9 0 0 0 0 ∧
  ∀ s : State, ∃ t, exec .rowsel s = .next t ∧
    (s.frame.fmt = 1 → s.seq.row.toNat % 2 = 0 → t.work = { s.work with uc := s.work.up, vc := s.work.vp }) ∧
    (s.frame.fmt = 1 → s.seq.row.toNat % 2 = 1 → t.work = { s.work with up := s.work.uc, vp := s.work.vc }) ∧
    (s.frame.fmt ≠ 1 → t.work = s.work) ∧
    KeepsRest s t ∧ (∀ a, t.byteAt a = s.byteAt a)

/-- R163: `ROWADV` always completes: each source pointer moves by its stride less the bytes of the row, modulo `2^64`, and
`ROW` counts up modulo `2^16`. It touches neither memory nor any other register. -/
def Obligations.RowadvMovesToTheNextRow : Prop :=
  encode .rowadv = packFields 10 0 0 0 0 ∧
  ∀ s : State,
    let b := if s.frame.fmt = 2 then 2 else 1
    let w := s.frame.width.toNat
    ∃ t, exec .rowadv s = .next t ∧
      t.work = { s.work with
        yp := s.work.yp + s.frame.yStride - BitVec.ofNat 64 (w * b)
        up := s.work.up + s.frame.uStride - BitVec.ofNat 64 (w / 2 * b)
        vp := s.work.vp + s.frame.vStride - BitVec.ofNat 64 (w / 2 * b) } ∧
      t.seq = { s.seq with row := s.seq.row + 1 } ∧
      t.flags = s.flags ∧ t.frame = s.frame ∧ t.derived = s.derived ∧ t.variant = s.variant ∧
      t.regions = s.regions ∧ t.inputs = s.inputs ∧ t.reply = s.reply ∧ t.freeCount = s.freeCount ∧
      (∀ a, t.byteAt a = s.byteAt a)

/-! ### The host commands -/

/-- R164: `INIT`. While `BUSY` it is refused. Otherwise it clears `DONE`, `ERR` and `ERRCODE`; an odd width is
`CFG_ODD_WIDTH` and, with an even width, `FMT = 3` is `CFG_BAD_FORMAT`, each leaving `UNCONF` and nothing else changed; else
the derived registers get their values, `VAL` and `seq` start anew and the block is `READY`. It touches no memory and no
other register. -/
def Obligations.InitValidatesTheSetup : Prop :=
  encode .init = 1 ∧
  ∀ s : State,
    (s.flags.st = .busy → exec .init s = .next (raiseErr .hostProtocol s)) ∧
    (s.flags.st ≠ .busy → s.frame.width.toNat % 2 = 1 →
      exec .init s = .next (s.setFlags ⟨.unconf, false, true, .cfgOddWidth, s.flags.ie⟩)) ∧
    (s.flags.st ≠ .busy → s.frame.width.toNat % 2 = 0 → s.frame.fmt = 3 →
      exec .init s = .next (s.setFlags ⟨.unconf, false, true, .cfgBadFormat, s.flags.ie⟩)) ∧
    (s.flags.st ≠ .busy → s.frame.width.toNat % 2 = 0 → s.frame.fmt ≠ 3 →
      ∃ t, exec .init s = .next t ∧
        t.derived.lineStride.toNat = lineStrideOf s.frame.width.toNat ∧
        t.derived.linePad.toNat = linePadOf s.frame.width.toNat ∧
        t.derived.frameSize.toNat = frameSizeOf s.frame.width.toNat s.frame.height.toNat ∧
        t.work = { s.work with val := 0 } ∧ t.seq = ⟨0, .chk, 0⟩ ∧
        t.flags = ⟨.ready, false, false, .none, s.flags.ie⟩ ∧
        t.frame = s.frame ∧ t.variant = s.variant ∧ t.regions = s.regions ∧ t.inputs = s.inputs ∧
        t.reply = s.reply ∧ t.freeCount = s.freeCount ∧ (∀ a, t.byteAt a = s.byteAt a))

/-- R165: `START`. Unless `READY` it is refused. It clears `DONE`, `ERR` and `ERRCODE`; a buffer smaller than the frame is
`RES_NO_BUFFER`, the block staying `READY` and no pointer loaded; else the four pointers are loaded from the bases, `VAL` and
`seq` start anew and the block is `BUSY`. It touches no memory and no other register; `UC` and `VC` are not loaded. -/
def Obligations.StartBeginsARun : Prop :=
  encode .start = 2 ∧
  ∀ s : State,
    (s.flags.st ≠ .ready → exec .start s = .next (raiseErr .hostProtocol s)) ∧
    (s.flags.st = .ready → s.derived.frameSize.toNat > s.frame.dstSize.toNat →
      exec .start s = .next (s.setFlags ⟨.ready, false, true, .resNoBuffer, s.flags.ie⟩)) ∧
    (s.flags.st = .ready → s.derived.frameSize.toNat ≤ s.frame.dstSize.toNat →
      ∃ t, exec .start s = .next t ∧
        t.work = ⟨s.frame.yBase, s.frame.uBase, s.frame.vBase, s.frame.dstBase, s.work.uc, s.work.vc, 0⟩ ∧
        t.seq = ⟨0, .chk, 0⟩ ∧ t.flags = ⟨.busy, false, false, .none, s.flags.ie⟩ ∧
        t.frame = s.frame ∧ t.derived = s.derived ∧ t.variant = s.variant ∧ t.regions = s.regions ∧
        t.inputs = s.inputs ∧ t.reply = s.reply ∧ t.freeCount = s.freeCount ∧ (∀ a, t.byteAt a = s.byteAt a))

/-- R166: `ACK`. While `BUSY` it is refused; otherwise it clears `DONE`, `ERR` and `ERRCODE` and changes nothing else, so
`irq` is low. -/
def Obligations.AckClearsTheFlags : Prop :=
  encode .ack = 4 ∧
  ∀ s : State,
    (s.flags.st = .busy → exec .ack s = .next (raiseErr .hostProtocol s)) ∧
    (s.flags.st ≠ .busy →
      ∃ t, exec .ack s = .next t ∧ t = s.setFlags ⟨s.flags.st, false, false, .none, s.flags.ie⟩ ∧ t.flags.irq = false)

/-- In a sound state a `START` that is accepted, with no further host action to come, is the start of a run. -/
def Obligations.AcceptedStartIsARunStart : Prop :=
  ∀ s : State, StateInv s → s.flags.st = .ready → s.inputs = [] → s.derived.frameSize.toNat ≤ s.frame.dstSize.toNat →
    ∃ t, exec .start s = .next t ∧ RunStart t

/-! ### Rules over all micro-operations -/

/-- R76 as the model reads it (U2: no step): an access to a byte the platform has not provided stops the primitive
operations, and no instruction stops for another reason or is refused. -/
def Obligations.OnlyUnprovidedMemoryStopsAnInstruction : Prop :=
  (∀ d slot c s, s.readable (s.work.ptr c) (bps d) = false → exec (.acc d slot c) s = .fault .memNotProvided) ∧
  (∀ s, s.writable s.work.dp 4 = false → exec .flush s = .fault .memNotProvided) ∧
  (∀ n s, s.writable s.work.dp n = false → exec (.zfill n) s = .fault .memNotProvided) ∧
  (∀ i s, (∃ t, exec i s = .next t) ∨ exec i s = .fault .memNotProvided)

/-- A micro-operation changes no configuration or derived register, no `ST`, `DONE` or `IE`, no `PHASE` or `COL`; `ROW` only
by `ROWADV`; and no error flag, except that a refused `BULK` raises `ILL_CMD` (R29, R167). -/
def Obligations.MicroOperationsKeepTheControlState : Prop :=
  ∀ i s t, i.port = .cmd → exec i s = .next t →
    t.frame = s.frame ∧ t.derived = s.derived ∧ t.variant = s.variant ∧ t.regions = s.regions ∧
    t.inputs = s.inputs ∧ t.reply = s.reply ∧ t.freeCount = s.freeCount ∧
    t.seq.phase = s.seq.phase ∧ t.seq.col = s.seq.col ∧ (i ≠ .rowadv → t.seq.row = s.seq.row) ∧
    t.flags.st = s.flags.st ∧ t.flags.done = s.flags.done ∧ t.flags.ie = s.flags.ie ∧
    (t.flags ≠ s.flags → ∃ d n, i = .bulk d n ∧ n % groupSize s.variant d ≠ 0 ∧ t = raiseErr .illCmd s)

/-- R134: from `VAL = 0`, the packing operations the sequencer issues end with `VAL = 0`. -/
def Obligations.PackingLeavesValEmpty : Prop :=
  ∀ i s t, (packTotals i).isSome = true → s.work.val = 0 → exec i s = .next t → t.work.val = 0

/-- R135: the samples each packing operation reads through each pointer and the bytes it writes, started with `VAL = 0`; a
`BULK` with a legal count. -/
def Obligations.ConsumptionTotals : Prop :=
  ∀ i s t y u v o, packTotals i = some (y, u, v, o) → s.work.val = 0 →
    (∀ d n, i = .bulk d n → n % groupSize s.variant d = 0) → exec i s = .next t →
    t.work.yp = s.work.yp + BitVec.ofNat 64 (y * bps (packDepth i)) ∧
    t.work.up = s.work.up + BitVec.ofNat 64 (u * bps (packDepth i)) ∧
    t.work.vp = s.work.vp + BitVec.ofNat 64 (v * bps (packDepth i)) ∧
    t.work.dp = s.work.dp + BitVec.ofNat 64 o

/-! ### Errors and the register port -/

/-- R215: the first error is kept; raising one changes `ERR` and `ERRCODE` alone. -/
def Obligations.FirstErrorIsKept : Prop :=
  ∀ (c : ErrCode) (s : State),
    (s.flags.err = false → raiseErr c s = s.setFlags { s.flags with err := true, errcode := c }) ∧
    (s.flags.err = true → raiseErr c s = s)

/-- R221: a step that takes an error changes exactly `ERR` and `ERRCODE`, for codes 1 and 2 also `ST` to `UNCONF`, for codes
1, 2 and 3 also `DONE` to 0. No other register changes and no byte of memory does. -/
def Obligations.ErrorEntryIsPrecise : Prop :=
  ∀ s t, step s = .next t → s.flags.err = false → t.flags.err = true →
    t.work = s.work ∧ t.seq = s.seq ∧ t.frame = s.frame ∧ t.derived = s.derived ∧ t.variant = s.variant ∧
    t.mem = s.mem ∧ t.flags.ie = s.flags.ie ∧ t.flags.errcode ≠ .none ∧
    (t.flags.errcode = .cfgOddWidth ∨ t.flags.errcode = .cfgBadFormat →
      t.flags.st = .unconf ∧ t.flags.done = false) ∧
    (t.flags.errcode = .resNoBuffer → t.flags.st = s.flags.st ∧ t.flags.done = false) ∧
    (t.flags.errcode = .illCmd ∨ t.flags.errcode = .hostProtocol →
      t.flags.st = s.flags.st ∧ t.flags.done = s.flags.done)

/-- R47: the classes of the registers, and what a host write does in each state: accepted (the register stores the value), or
refused with `HOST_PROTOCOL`; an accepted setup write leaves the block `UNCONF`. -/
def Obligations.WriteClassesOfTheRegisters : Prop :=
  (∀ r : Reg, r.cls = .free ↔ r = .inten) ∧
  (∀ r : Reg, r.cls = .setup ↔ r = .format ∨ r = .width ∨ r = .height) ∧
  (∀ r : Reg, r.cls = .perFrame ↔ r = .framectl ∨ (∃ h, r = .yBase h ∨ r = .uBase h ∨ r = .vBase h ∨ r = .yStride h ∨
    r = .uStride h ∨ r = .vStride h ∨ r = .dstBase h ∨ r = .dstSize h)) ∧
  (∀ r : Reg, r.cls = .working ↔ r = .row ∨
    (∃ h, r = .yp h ∨ r = .up h ∨ r = .vp h ∨ r = .dp h ∨ r = .uc h ∨ r = .vc h)) ∧
  (∀ r : Reg, r.cls = .command ↔ r = .ctrl ∨ r = .cmd) ∧
  (∀ r : Reg, r.cls = .readOnly ↔ r = .status ∨ r = .errcode ∨ r = .variant ∨ r = .lineStride ∨ r = .linePad ∨
    (∃ h, r = .frameSize h) ∨ r = .val ∨ r = .col ∨ r = .phase) ∧
  (∀ s q slot v r, regAt (4 * slot) = some r → Due s (.write slot v) q →
    (r.cls = .free → step s = .next (r.put v q)) ∧
    (r.cls = .setup → s.flags.st = .busy → step s = .next (raiseErr .hostProtocol q)) ∧
    (r.cls = .setup → s.flags.st ≠ .busy → step s = .next (setSt .unconf (r.put v q))) ∧
    (r.cls = .perFrame ∨ r.cls = .working → s.flags.st = .busy → step s = .next (raiseErr .hostProtocol q)) ∧
    (r.cls = .perFrame ∨ r.cls = .working → s.flags.st ≠ .busy → step s = .next (r.put v q)) ∧
    (r.cls = .readOnly → step s = .next (raiseErr .hostProtocol q)))

/-- R48, R47 and the columns of R31. The store of a value in a register that accepts writes, `Reg.put`: the register then
reads back the value with its unused bits 0, and every other register, the other half of a 64-bit one among them, reads as
before (but `STATUS`, whose `IRQ` bit `INTEN` drives). The accepted host write itself, which for `INTEN` is accepted in every
`ST` and for the others while not `BUSY`: the same, and after a write to `FORMAT`, `WIDTH` or `HEIGHT` `ST` is `UNCONF`, so
that `STATUS` need not read as before; after any other write `ST` is as it was. -/
def Obligations.WrittenRegisterReadsBack : Prop :=
  ∀ (r : Reg) (v : Word32) (s : State), r.cls ≠ .readOnly → r.cls ≠ .command →
    ((r.value (r.put v s)).toNat = v.toNat % 2 ^ bitsStored r ∧
      (∀ r' : Reg, r' ≠ r → (r' = .status → r ≠ .inten) → r'.value (r.put v s) = r'.value s) ∧
      (r.put v s).flags.st = s.flags.st ∧ (r.put v s).flags.done = s.flags.done ∧
      (r.put v s).flags.err = s.flags.err ∧ (r.put v s).flags.errcode = s.flags.errcode ∧
      (∀ a, (r.put v s).byteAt a = s.byteAt a)) ∧
    (∀ slot q, regAt (4 * slot) = some r → Due s (.write slot v) q → (r.cls = .free ∨ s.flags.st ≠ .busy) →
      ∃ t, step s = .next t ∧
        (r.value t).toNat = v.toNat % 2 ^ bitsStored r ∧
        (∀ r' : Reg, r' ≠ r → (r' = .status → r ≠ .inten ∧ r.cls ≠ .setup) → r'.value t = r'.value s) ∧
        t.flags.st = (if r.cls = .setup then .unconf else s.flags.st) ∧
        t.flags.done = s.flags.done ∧ t.flags.err = s.flags.err ∧ t.flags.errcode = s.flags.errcode ∧
        (∀ a, t.byteAt a = s.byteAt a))

/-- R50: the unmapped offsets read 0 without side effect, and a write to one is refused. -/
def Obligations.UnmappedOffsets : Prop :=
  (∀ slot, regAt (4 * slot) = none ↔ 4 * slot = 0x38 ∨ 4 * slot = 0x3C ∨ 0xC0 ≤ 4 * slot) ∧
  (∀ s r slot, regAt (4 * slot) = none → Due s (.read slot) r → step s = .next (r.setReply (some 0))) ∧
  (∀ s r slot v, regAt (4 * slot) = none → Due s (.write slot v) r →
    step s = .next (raiseErr .hostProtocol r))

/-- A host read returns the register's value and changes nothing else, in every `ST` (R49; the reply is the model's own
field, log entry 17). -/
def Obligations.ReadsHaveNoSideEffect : Prop :=
  ∀ s q slot r, regAt (4 * slot) = some r → Due s (.read slot) q →
    ∃ t, step s = .next t ∧ t.reply = some (r.value s) ∧ t.setReply s.reply = q

/-- R33, R219: the fields of `STATUS` and the level of `irq`; and the numbers a host reads: for `ST` in `STATUS[1:0]` (R30),
in `ERRCODE` (R34) and in `PHASE` (R28). -/
def Obligations.StatusFieldsAndIrq : Prop :=
  ∀ s : State,
    let v := (Reg.status.value s).toNat
    v / 4 % 2 = s.flags.done.toNat ∧ v / 8 % 2 = s.flags.err.toNat ∧
    v / 16 % 2 = s.flags.irq.toNat ∧ v / 32 = 0 ∧
    (s.flags.irq = true ↔ s.flags.ie = true ∧ (s.flags.done = true ∨ s.flags.err = true)) ∧
    (s.flags.st = .unconf → v % 4 = 0) ∧ (s.flags.st = .ready → v % 4 = 1) ∧ (s.flags.st = .busy → v % 4 = 2) ∧
    (s.flags.errcode = .none → Reg.errcode.value s = 0) ∧
    (s.flags.errcode = .cfgOddWidth → Reg.errcode.value s = 1) ∧
    (s.flags.errcode = .cfgBadFormat → Reg.errcode.value s = 2) ∧
    (s.flags.errcode = .resNoBuffer → Reg.errcode.value s = 3) ∧
    (s.flags.errcode = .illCmd → Reg.errcode.value s = 4) ∧
    (s.flags.errcode = .hostProtocol → Reg.errcode.value s = 5) ∧
    (s.seq.phase = .chk → Reg.phase.value s = 0) ∧ (s.seq.phase = .sel → Reg.phase.value s = 1) ∧
    (s.seq.phase = .bulk → Reg.phase.value s = 2) ∧ (s.seq.phase = .grp → Reg.phase.value s = 3) ∧
    (s.seq.phase = .tail → Reg.phase.value s = 4) ∧ (s.seq.phase = .fill → Reg.phase.value s = 5) ∧
    (s.seq.phase = .adv → Reg.phase.value s = 6)

/-! ### Whole-machine rules -/

/-- The sample factors never change (R38: "fixed for the life of the instance"). -/
def Obligations.VariantNeverChanges : Prop :=
  ∀ s t, step s = .next t → t.variant = s.variant

/-- Only completion and the reset input end a run (R168, R177): a step that leaves `BUSY` is the `CHK` step that finds
`ROW = HEIGHT`, and then `DONE` is set and the block is `READY`, or it is a reset. -/
def Obligations.OnlyCompletionOrResetEndsARun : Prop :=
  ∀ s t, step s = .next t → s.flags.st = .busy → t.flags.st ≠ .busy →
    (s.seq.phase = .chk ∧ s.seq.row = s.frame.height ∧ t.flags.st = .ready ∧ t.flags.done = true ∧
      t.work = s.work ∧ t.seq = s.seq ∧ t.mem = s.mem ∧ t.flags.err = s.flags.err ∧
      t.flags.errcode = s.flags.errcode) ∨
    ∃ r, Due s .reset r

/-- While a run goes on its inputs are immutable (R82, R47): no step changes a setup, per-frame or derived register, and no
host action moves a working register, the sequencer position or a byte of its regions. -/
def Obligations.RunInputsAreImmutable : Prop :=
  ∀ s t, step s = .next t → s.flags.st = .busy → t.flags.st = .busy →
    t.frame = s.frame ∧ t.derived = s.derived ∧
    (∀ a r, Due s a r → t.work = s.work ∧ t.seq = s.seq ∧
      ∀ x, inSource s.frame x = true ∨ inDest s x = true → t.byteAt x = s.byteAt x)

/-- Host actions on the buffers of a running frame are no moves of the model's host (R245, U4; log entry 8): they are
refused by name. Running is `ST = BUSY`: that the buffers are the host's from the completing step on, and not only once it has
observed `DONE = 1` (R84), is the model's choice (log entry 23). Every other host byte access is carried out, at an address no region provides too, which is the model's
choice (log entry 19), and a read's value stands in the model's own field `reply` (log entry 17). -/
def Obligations.HostMayNotTouchRunningBuffers : Prop :=
  (∀ s r a b, Due s (.poke a b) r → s.flags.st = .busy → inSource s.frame a = true ∨ inDest s a = true →
    step s = .refused .hostTouchesBuffer) ∧
  (∀ s r a, Due s (.peek a) r → s.flags.st = .busy → inDest s a = true → step s = .refused .hostTouchesBuffer) ∧
  (∀ s r a b, Due s (.poke a b) r → s.flags.st ≠ .busy ∨ (inSource s.frame a = false ∧ inDest s a = false) →
    ∃ t, step s = .next t ∧ t.byteAt a = b ∧ (∀ x, x ≠ a → t.byteAt x = s.byteAt x) ∧ t.setMem r.mem = r) ∧
  (∀ s r a, Due s (.peek a) r → s.flags.st ≠ .busy ∨ inDest s a = false →
    step s = .next (r.setReply (some (BitVec.ofNat 32 (s.byteAt a).toNat))))

/-- A step of the block itself writes only at `DP`, sweeping it forward (R61, R24): every byte outside
`[DP before, DP after)` is unchanged. -/
def Obligations.BlockWritesOnlyBelowItsNewDp : Prop :=
  ∀ s t, s.inputs = [] → step s = .next t →
    ∀ a, outside a s.work.dp (t.work.dp - s.work.dp).toNat → t.byteAt a = s.byteAt a

/-! ### Runs -/

/-- R178: the sequencer steps of one row, from its `CHK`, are exactly the row's line program executed in order, in every
outcome. -/
def Obligations.RowStepsRunTheLineProgram : Prop :=
  ∀ s, StateInv s → s.flags.st = .busy → s.inputs = [] → s.seq.phase = .chk → s.seq.row ≠ s.frame.height →
    Sys2Proof.core.run (rowSteps s) s = runOps (lineProgram s) s

/-- R177, R179, with the pointers of R180's proof sketch: a run, no host action during it, whose buffers the host has provided completes in exactly `HEIGHT * (7 + k) + 1` steps, `BUSY` until
the last: then the block is `READY` with `DONE` set and `irq` as `IE` says, `ERR` and `ERRCODE` are as they were, `DP`, `YP`,
`UP` and `VP` stand at the end of the frame (with `FMT = 1` `UP` and `VP` past `ceil(HEIGHT / 2)` chroma rows), `UC` and `VC`
hold the last captured chroma row with `FMT = 1` and are as they were where none is captured, `VAL` is 0 and the position is
`(HEIGHT, CHK, 0)`. No clause is about the contents of memory, so the premise of R75 is not needed. -/
def Obligations.RunCompletes : Prop :=
  ∀ s, RunStart s → BuffersProvided s →
    let h := s.frame.height.toNat
    let chromaRowsPassed := if s.frame.fmt = 1 then (h + 1) / 2 else h
    (∀ n, n < runSteps s → ∃ r, Sys2Proof.core.run n s = .next r ∧ r.flags.st = .busy) ∧
    ∃ t : State, Sys2Proof.core.run (runSteps s) s = .next t ∧
      t.flags = { s.flags with st := .ready, done := true } ∧
      (s.flags.ie = true → t.flags.irq = true) ∧
      t.work.dp = s.frame.dstBase + s.derived.frameSize ∧
      t.work.yp = s.frame.yBase + BitVec.ofNat 64 s.frame.height.toNat * s.frame.yStride ∧
      t.work.up = s.frame.uBase + BitVec.ofNat 64 chromaRowsPassed * s.frame.uStride ∧
      t.work.vp = s.frame.vBase + BitVec.ofNat 64 chromaRowsPassed * s.frame.vStride ∧
      (s.frame.fmt = 1 → 0 < h →
        t.work.uc = s.frame.uBase + BitVec.ofNat 64 ((h - 1) / 2) * s.frame.uStride ∧
        t.work.vc = s.frame.vBase + BitVec.ofNat 64 ((h - 1) / 2) * s.frame.vStride) ∧
      (s.frame.fmt ≠ 1 ∨ h = 0 → t.work.uc = s.work.uc ∧ t.work.vc = s.work.vc) ∧
      t.work.val = 0 ∧ t.seq = ⟨s.frame.height, .chk, 0⟩ ∧
      t.frame = s.frame ∧ t.derived = s.derived ∧ t.variant = s.variant

/-- R74: a run changes no byte outside its destination region, wherever its regions lie. -/
def Obligations.RunWritesOnlyItsDestination : Prop :=
  ∀ s, RunStart s → BuffersProvided s →
    ∃ t : State, Sys2Proof.core.run (runSteps s) s = .next t ∧ ∀ a, inDest s a = false → t.byteAt a = s.byteAt a

/-- R181, with the line of R94 and the addresses of R180: after a run whose regions are in the contract of R75 and
R251 (the destination overlaps no source and no region wraps, within a row or between rows: U3), byte `j` of output line `h` is byte `j` of the closed form, built
from the source samples as they were at the start: the content words little-endian, then zeros. -/
def Obligations.RunOutputIsTheClosedForm : Prop :=
  ∀ s, RunStart s → BuffersProvided s → RegionsInContract s →
    ∃ t : State, Sys2Proof.core.run (runSteps s) s = .next t ∧
      ∀ h j, h < s.frame.height.toNat → j < lineStrideOf s.frame.width.toNat →
        (t.byteAt (s.frame.dstBase + BitVec.ofNat 64 (h * lineStrideOf s.frame.width.toNat + j))).toNat =
          lineByte s h j

/-- R182: in a run whose regions are in the contract of R75, with `FMT = 1`, in progressive and interlaced mode alike, the chroma slots (components `4j` and `4j+2`) of output
rows `2k` and `2k+1` hold the same values. -/
def Obligations.ChromaSlotsOfARowPairAgree : Prop :=
  ∀ s, RunStart s → BuffersProvided s → RegionsInContract s → s.frame.fmt = 1 →
    ∃ t : State, Sys2Proof.core.run (runSteps s) s = .next t ∧
      ∀ k i, 2 * k + 1 < s.frame.height.toNat → i < 2 * s.frame.width.toNat → i % 2 = 0 →
        let slot := fun h => t.loadLE 4 (s.frame.dstBase +
          BitVec.ofNat 64 (h * lineStrideOf s.frame.width.toNat + 4 * (i / 3))) / 2 ^ (10 * (i % 3)) % 1024
        slot (2 * k) = slot (2 * k + 1)

/-- R183, for a run whose regions are in the contract of R75 (under overlap R246 says the opposite, and the model's order is
log entry 10): the end of a run does not depend on the sample factors: with any others the run ends, in its own number of steps,
in the same state but for `VARIANT`, so in the same bytes and the same registers. -/
def Obligations.RunDoesNotDependOnTheVariant : Prop :=
  ∀ (s : State) (v : Variant), RunStart s → BuffersProvided s → RegionsInContract s → 1 ≤ v.sf8.toNat → 1 ≤ v.sf10.toNat →
    ∃ t : State, Sys2Proof.core.run (runSteps s) s = .next t ∧
      Sys2Proof.core.run (runSteps { s with variant := v }) { s with variant := v } = .next { t with variant := v }

/-- R180: in a run whose regions are in the contract of R75 (U3), once row `h` has passed its `SEL` step the source pointers stand at the first samples of the rows it is
packed from: luma row `h` and chroma row `crow h`. -/
def Obligations.RowReadsFromItsSourceRows : Prop :=
  ∀ s h, RunStart s → BuffersProvided s → RegionsInContract s → h < s.frame.height.toNat →
    ∃ t : State, Sys2Proof.core.run (h * rowSteps s + 2) s = .next t ∧ t.seq = ⟨BitVec.ofNat 16 h, .bulk, 0⟩ ∧
      t.work.yp = s.frame.yBase + BitVec.ofNat 64 h * s.frame.yStride ∧
      t.work.up = s.frame.uBase + BitVec.ofNat 64 (if s.frame.fmt = 1 then h / 2 else h) * s.frame.uStride ∧
      t.work.vp = s.frame.vBase + BitVec.ofNat 64 (if s.frame.fmt = 1 then h / 2 else h) * s.frame.vStride

/-- R152: in a run, wherever its regions lie, after row `h` `DP` stands at the start of line `h + 1` and the last `LINE_PAD` bytes of line `h` are 0,
whatever they held before. -/
def Obligations.EachRowEndsWithZeroPadding : Prop :=
  ∀ s h, RunStart s → BuffersProvided s → h < s.frame.height.toNat →
    ∃ t : State, Sys2Proof.core.run ((h + 1) * rowSteps s) s = .next t ∧
      t.work.dp = s.frame.dstBase + BitVec.ofNat 64 ((h + 1) * s.derived.lineStride.toNat) ∧
      ∀ i, i < s.derived.linePad.toNat → t.byteAt (t.work.dp - BitVec.ofNat 64 (i + 1)) = 0

/-- R91, R90: in the output of a run whose regions are in the contract of R75 a slot that holds a component holds at least 4, a slot past the line's last component
holds 0, the pad bits of every content word are 0, and no content word is 0. -/
def Obligations.OutputSlotsAreFilledInOrder : Prop :=
  ∀ s, RunStart s → BuffersProvided s → RegionsInContract s →
    ∃ t : State, Sys2Proof.core.run (runSteps s) s = .next t ∧
      ∀ h m, h < s.frame.height.toNat → m < contentWords s.frame.width.toNat →
        let word := t.loadLE 4 (s.frame.dstBase + BitVec.ofNat 64 (h * lineStrideOf s.frame.width.toNat + 4 * m))
        word ≠ 0 ∧ word / 2 ^ 30 = 0 ∧
        (∀ i, i < 3 → 3 * m + i < 2 * s.frame.width.toNat → 4 ≤ word / 2 ^ (10 * i) % 1024) ∧
        (∀ i, i < 3 → 2 * s.frame.width.toNat ≤ 3 * m + i → word / 2 ^ (10 * i) % 1024 = 0)

/-- R185: the degenerate sizes. A width of 0 gives a line of 0 bytes, a row that packs and fills nothing, a `START` that
capacity never refuses and a run that changes no byte; a height of 0 gives a run that its first `CHK` step ends; widths 2
and 4 give one `TAIL2` or `TAIL4` a row. -/
def Obligations.DegenerateSizes : Prop :=
  ∀ s, SetupValid s →
    let d := if s.frame.fmt = 2 then Depth.d10 else Depth.d8
    (s.frame.width = 0 →
      s.derived.lineStride = 0 ∧ s.derived.frameSize = 0 ∧
      lineProgram s = [.rowsel, .bulk d 0, .zfill 0, .rowadv] ∧
      (s.flags.st = .ready → ∃ t, exec .start s = .next t ∧ t.flags.st = .busy) ∧
      (RunStart s → ∃ t : State, Sys2Proof.core.run (runSteps s) s = .next t ∧ t.flags.done = true ∧
        ∀ a, t.byteAt a = s.byteAt a)) ∧
    (s.frame.height = 0 → RunStart s →
      step s = .next (s.setFlags { s.flags with st := .ready, done := true })) ∧
    (s.frame.width = 2 → lineProgram s = [.rowsel, .bulk d 0, .tail2 d, .zfill 120, .rowadv] ∧
      contentBytes s.frame.width.toNat = 8) ∧
    (s.frame.width = 4 → lineProgram s = [.rowsel, .bulk d 0, .tail4 d, .zfill 116, .rowadv] ∧
      contentBytes s.frame.width.toNat = 12)

/-! ### The register map -/

/-- R31: the register at every mapped byte offset, one by one. -/
def Obligations.RegisterMapOffsets : Prop :=
  (regAt 0x00 = some .ctrl ∧ regAt 0x04 = some .status ∧ regAt 0x08 = some .errcode ∧ regAt 0x0C = some .inten ∧
    regAt 0x10 = some .format ∧ regAt 0x14 = some .width ∧ regAt 0x18 = some .height ∧ regAt 0x1C = some .variant ∧
    regAt 0x20 = some .framectl ∧ regAt 0x24 = some .cmd ∧ regAt 0x28 = some .lineStride ∧ regAt 0x2C = some .linePad ∧
    regAt 0x30 = some (.frameSize .lo) ∧ regAt 0x34 = some (.frameSize .hi)) ∧
  (regAt 0x40 = some (.yBase .lo) ∧ regAt 0x44 = some (.yBase .hi) ∧ regAt 0x48 = some (.uBase .lo) ∧
    regAt 0x4C = some (.uBase .hi) ∧ regAt 0x50 = some (.vBase .lo) ∧ regAt 0x54 = some (.vBase .hi) ∧
    regAt 0x58 = some (.yStride .lo) ∧ regAt 0x5C = some (.yStride .hi) ∧ regAt 0x60 = some (.uStride .lo) ∧
    regAt 0x64 = some (.uStride .hi) ∧ regAt 0x68 = some (.vStride .lo) ∧ regAt 0x6C = some (.vStride .hi) ∧
    regAt 0x70 = some (.dstBase .lo) ∧ regAt 0x74 = some (.dstBase .hi) ∧ regAt 0x78 = some (.dstSize .lo) ∧
    regAt 0x7C = some (.dstSize .hi)) ∧
  (regAt 0x80 = some (.yp .lo) ∧ regAt 0x84 = some (.yp .hi) ∧ regAt 0x88 = some (.up .lo) ∧ regAt 0x8C = some (.up .hi) ∧
    regAt 0x90 = some (.vp .lo) ∧ regAt 0x94 = some (.vp .hi) ∧ regAt 0x98 = some (.dp .lo) ∧ regAt 0x9C = some (.dp .hi) ∧
    regAt 0xA0 = some (.uc .lo) ∧ regAt 0xA4 = some (.uc .hi) ∧ regAt 0xA8 = some (.vc .lo) ∧ regAt 0xAC = some (.vc .hi) ∧
    regAt 0xB0 = some .val ∧ regAt 0xB4 = some .row ∧ regAt 0xB8 = some .col ∧ regAt 0xBC = some .phase)

/-- R25, R27, R31, R35 to R45, R48: which quantity a read of each register returns: the field, zero-extended, or the low or
high word of a 64-bit one; `CTRL` and `CMD` read 0 (R32, R39). (`STATUS`, `ERRCODE` and `PHASE` are
`StatusFieldsAndIrq`.) -/
def Obligations.ReadsReturnTheirQuantity : Prop :=
  ∀ s : State,
    let halves := fun (r : Half → Reg) (q : Addr) =>
      ((r .lo).value s).toNat = q.toNat % 2 ^ 32 ∧ ((r .hi).value s).toNat = q.toNat / 2 ^ 32
    (Reg.ctrl.value s = 0 ∧ Reg.cmd.value s = 0 ∧ (Reg.inten.value s).toNat = s.flags.ie.toNat ∧
      (Reg.format.value s).toNat = s.frame.fmt.toNat ∧ (Reg.width.value s).toNat = s.frame.width.toNat ∧
      (Reg.height.value s).toNat = s.frame.height.toNat ∧ (Reg.framectl.value s).toNat = s.frame.ilace.toNat ∧
      (Reg.variant.value s).toNat % 16 = s.variant.sf8.toNat ∧ (Reg.variant.value s).toNat / 16 = s.variant.sf10.toNat ∧
      (Reg.lineStride.value s).toNat = s.derived.lineStride.toNat ∧
      (Reg.linePad.value s).toNat = s.derived.linePad.toNat ∧ halves .frameSize s.derived.frameSize) ∧
    (halves .yBase s.frame.yBase ∧ halves .uBase s.frame.uBase ∧ halves .vBase s.frame.vBase ∧
      halves .yStride s.frame.yStride ∧ halves .uStride s.frame.uStride ∧ halves .vStride s.frame.vStride ∧
      halves .dstBase s.frame.dstBase ∧ halves .dstSize s.frame.dstSize) ∧
    (halves .yp s.work.yp ∧ halves .up s.work.up ∧ halves .vp s.work.vp ∧ halves .dp s.work.dp ∧
      halves .uc s.work.uc ∧ halves .vc s.work.vc ∧ Reg.val.value s = s.work.val ∧
      (Reg.row.value s).toNat = s.seq.row.toNat ∧ (Reg.col.value s).toNat = s.seq.col.toNat)
end

