-- ==== Sys2Proof/Laws/Encoding.lean ====
section
/-! SUPPORT. The encoding: a word built from its fields has those fields, decoding goes by the fields alone, a reading is
unique, and a masked comparison is a comparison of fields. -/

namespace Sys2Proof

/-- The value of a word built from fields that fit their places (R96). -/
theorem toNat_packFields {opc d sel src n : Nat} (h1 : opc < 16) (h2 : d < 2) (h3 : sel < 4) (h4 : src < 4) (h5 : n < 65536) :
    (packFields opc d sel src n).toNat = opc * 2 ^ 28 + d * 2 ^ 27 + sel * 2 ^ 25 + src * 2 ^ 23 + n := by
  rw [packFields, BitVec.toNat_ofNat, Nat.mod_eq_of_lt (by omega)]

/-- Decoding a word built from its fields is decoding the fields. -/
theorem decodeCmd_packFields {opc d sel src n : Nat} (h1 : opc < 16) (h2 : d < 2) (h3 : sel < 4) (h4 : src < 4) (h5 : n < 65536) :
    decodeCmd (packFields opc d sel src n) = decodeFields opc d sel src 0 n := by
  have h := toNat_packFields h1 h2 h3 h4 h5
  have e1 : bits (packFields opc d sel src n) 31 28 = opc := by rw [bits, h]; omega
  have e2 : bits (packFields opc d sel src n) 27 27 = d := by rw [bits, h]; omega
  have e3 : bits (packFields opc d sel src n) 26 25 = sel := by rw [bits, h]; omega
  have e4 : bits (packFields opc d sel src n) 24 23 = src := by rw [bits, h]; omega
  have e5 : bits (packFields opc d sel src n) 22 16 = 0 := by rw [bits, h]; omega
  have e6 : bits (packFields opc d sel src n) 15 0 = n := by rw [bits, h]; omega
  rw [decodeCmd, e1, e2, e3, e4, e5, e6]

/-- A word whose bits 22:16 are 0 is built from its own fields. -/
theorem packFields_bits (c : Word32) (h : bits c 22 16 = 0) :
    packFields (bits c 31 28) (bits c 27 27) (bits c 26 25) (bits c 24 23) (bits c 15 0) = c := by
  apply BitVec.eq_of_toNat_eq
  have hc := c.isLt
  rw [toNat_packFields]
  · simp only [bits] at *; omega
  all_goals simp only [bits]; omega

/-- The depth fits its bit. -/
theorem Depth.code_lt (d : Depth) : d.code < 2 := by cases d <;> decide

/-- The pattern fits its field. -/
theorem Pat.code_lt (d : Pat) : d.code < 4 := by cases d <;> decide

/-- The slot fits its field. -/
theorem Slot.code_lt (d : Slot) : d.code < 4 := by cases d <;> decide

/-- The source fits its field. -/
theorem Src.code_lt (d : Src) : d.code < 4 := by cases d <;> decide

/-- A depth is read back from its bit. -/
theorem depthOf_code (d : Depth) : depthOf d.code = d := by cases d <;> rfl

/-- A pattern is read back from its field. -/
theorem patOf_code (p : Pat) : patOf p.code = p := by cases p <;> rfl

/-- A slot is read back from its field. -/
theorem slotOf_code (p : Slot) : slotOf p.code = some p := by cases p <;> rfl

/-- A source is read back from its field. -/
theorem srcOf_code (p : Src) : srcOf p.code = some p := by cases p <;> rfl

/-- A `D` bit is the code of the depth it selects. -/
theorem code_depthOf {d : Nat} (h : d < 2) : (depthOf d).code = d := by
  interval_cases d <;> rfl

/-- A `PAT` field is the code of the pattern it names. -/
theorem code_patOf {d : Nat} (h : d < 4) : (patOf d).code = d := by
  interval_cases d <;> rfl

/-- `onlyIf` accepts its instruction alone. -/
theorem onlyIf_ok {b : Bool} {i j : Instr} (h : onlyIf b i = .ok j) : b = true ∧ j = i := by
  unfold onlyIf at h; split at h <;> simp_all

/-- A reading of the fields is encoded by those fields, and its `OPC` is the one read. -/
theorem decodeFields_ok {opc d sel src z n : Nat} {i : Instr} (hd : d < 2) (hs : sel < 4) (hr : src < 4) (hn : n < 65536)
    (h : decodeFields opc d sel src z n = .ok i) :
    z = 0 ∧ i.port = .cmd ∧ i.wf = true ∧ encode i = packFields opc d sel src n ∧ i.opc = some opc := by
  unfold decodeFields at h
  by_cases hz : z = 0
  · rw [if_neg (by simpa using hz)] at h
    refine ⟨hz, ?_⟩
    have plain : ∀ (b : Bool) (j : Instr), onlyIf b j = .ok i →
        (b = true → j.port = .cmd ∧ j.wf = true ∧ encode j = packFields opc d sel src n ∧ j.opc = some opc) →
        i.port = .cmd ∧ i.wf = true ∧ encode i = packFields opc d sel src n ∧ i.opc = some opc := by
      intro b j hb hj
      obtain ⟨hb', rfl⟩ := onlyIf_ok hb
      exact hj hb'
    by_cases h0 : opc = 0
    · rw [if_pos h0] at h; subst h0
      exact plain _ _ h fun hb => by simp at hb; simp [Instr.port, Instr.wf, encode, hb, Instr.opc]
    rw [if_neg h0] at h
    by_cases h1 : opc = 1
    · rw [if_pos h1] at h; subst h1
      unfold decodeAcc at h
      split at h
      · exact absurd h (by simp)
      · exact absurd h (by simp)
      · rename_i slot c e1 e2
        have e3 : slot.code = sel := by
          unfold slotOf at e1; interval_cases sel <;> simp at e1 <;> subst e1 <;> rfl
        have e4 : c.code = src := by
          unfold srcOf at e2; interval_cases src <;> simp at e2 <;> subst e2 <;> rfl
        exact plain _ _ h fun hb => by
          simp at hb; simp [Instr.port, Instr.wf, encode, hb, Instr.opc, e3, e4, code_depthOf hd]
    rw [if_neg h1] at h
    by_cases h2 : opc = 2
    · rw [if_pos h2] at h; subst h2
      exact plain _ _ h fun hb => by simp at hb; simp [Instr.port, Instr.wf, encode, hb, Instr.opc]
    rw [if_neg h2] at h
    by_cases h3 : opc = 3
    · rw [if_pos h3] at h; subst h3
      exact plain _ _ h fun hb => by
        simp at hb; simp [Instr.port, Instr.wf, encode, hb, Instr.opc, code_depthOf hd, code_patOf hs]
    rw [if_neg h3] at h
    by_cases h4 : opc = 4
    · rw [if_pos h4] at h; subst h4
      exact plain _ _ h fun hb => by
        simp at hb; simp [Instr.port, Instr.wf, encode, hb, Instr.opc, code_depthOf hd]
    rw [if_neg h4] at h
    by_cases h5 : opc = 5
    · rw [if_pos h5] at h; subst h5
      exact plain _ _ h fun hb => by
        simp at hb; simp [Instr.port, Instr.wf, encode, hb, Instr.opc, code_depthOf hd, countFits, hn]
    rw [if_neg h5] at h
    by_cases h6 : opc = 6
    · rw [if_pos h6] at h; subst h6
      exact plain _ _ h fun hb => by
        simp at hb; simp [Instr.port, Instr.wf, encode, hb, Instr.opc, code_depthOf hd]
    rw [if_neg h6] at h
    by_cases h7 : opc = 7
    · rw [if_pos h7] at h; subst h7
      exact plain _ _ h fun hb => by
        simp at hb; simp [Instr.port, Instr.wf, encode, hb, Instr.opc, code_depthOf hd]
    rw [if_neg h7] at h
    by_cases h8 : opc = 8
    · rw [if_pos h8] at h; subst h8
      exact plain _ _ h fun hb => by
        simp at hb; simp [Instr.port, Instr.wf, encode, hb, Instr.opc, countFits, hn]
    rw [if_neg h8] at h
    by_cases h9 : opc = 9
    · rw [if_pos h9] at h; subst h9
      exact plain _ _ h fun hb => by simp at hb; simp [Instr.port, Instr.wf, encode, hb, Instr.opc]
    rw [if_neg h9] at h
    by_cases h10 : opc = 10
    · rw [if_pos h10] at h; subst h10
      exact plain _ _ h fun hb => by simp at hb; simp [Instr.port, Instr.wf, encode, hb, Instr.opc]
    rw [if_neg h10] at h
    exact absurd h (by simp)
  · rw [if_pos (by simpa using hz)] at h
    exact absurd h (by simp)

/-- A reading of a word is encoded by that word, and its `OPC` is the one read. -/
theorem decodeCmd_ok {c : Word32} {i : Instr} (h : decodeCmd c = .ok i) :
    bits c 22 16 = 0 ∧ i.port = .cmd ∧ i.wf = true ∧ encode i = c ∧ i.opc = some (bits c 31 28) := by
  unfold decodeCmd at h
  obtain ⟨hz, hp, hw, he, ho⟩ := decodeFields_ok (by simp only [bits]; omega) (by simp only [bits]; omega) (by simp only [bits]; omega) (by simp only [bits]; omega) h
  exact ⟨hz, hp, hw, by rw [he, packFields_bits c hz], ho⟩

/-- What a `CTRL` value decodes to, if anything (R168). -/
theorem decodeCtrl_ok {c : Word32} {i : Instr} (h : decodeCtrl c = .ok i) :
    i.port = .ctrl ∧ i.wf = true ∧ encode i = c := by
  simp only [decodeCtrl] at h
  split at h
  · cases h; subst c; decide
  · split at h
    · cases h; subst c; decide
    · split at h
      · cases h; subst c; decide
      · cases h

/-- A field of a word, bit by bit. -/
theorem bits_eq_iff (c : Word32) (hi lo v : Nat) (hv : v < 2 ^ (hi - lo + 1)) :
    bits c hi lo = v ↔ ∀ i < hi - lo + 1, c.getLsbD (lo + i) = v.testBit i := by
  unfold bits
  constructor
  · rintro rfl i hi'
    rw [Nat.testBit_mod_two_pow, Nat.testBit_div_two_pow]
    simp [hi', BitVec.getLsbD, Nat.add_comm]
  · intro h
    apply Nat.eq_of_testBit_eq
    intro i
    rw [Nat.testBit_mod_two_pow, Nat.testBit_div_two_pow]
    by_cases hi' : i < hi - lo + 1
    · rw [← h i hi']; simp [hi', BitVec.getLsbD, Nat.add_comm]
    · have : v.testBit i = false := Nat.testBit_lt_two_pow (Nat.lt_of_lt_of_le hv (Nat.pow_le_pow_right (by omega) (by omega)))
      simp [hi', this]

/-- A masked word, bit by bit. -/
theorem and_eq_iff (c m n : Word32) : c &&& m = n ↔ ∀ i < 32, (c.getLsbD i && m.getLsbD i) = n.getLsbD i := by
  constructor
  · rintro rfl i h; simp [BitVec.getLsbD_and]
  · intro h; apply BitVec.eq_of_getLsbD_eq; intro i hi; rw [BitVec.getLsbD_and]; exact h i hi

/-- A mask made of whole fields `(hi, lo, value)` compares exactly those fields. -/
theorem and_fields (c m n : Word32) (fs : List (Nat × Nat × Nat)) -- (hi, lo, value)
   (hv : ∀ f ∈ fs, f.2.2 < 2 ^ (f.1 - f.2.1 + 1) ∧ f.2.1 ≤ f.1 ∧ f.1 < 32)
   (hm : ∀ i < 32, m.getLsbD i = fs.any fun f => f.2.1 ≤ i && i ≤ f.1)
   (hn : ∀ f ∈ fs, ∀ i < f.1 - f.2.1 + 1, n.getLsbD (f.2.1 + i) = f.2.2.testBit i)
   (hz : ∀ i < 32, m.getLsbD i = false → n.getLsbD i = false) :
   c &&& m = n ↔ ∀ f ∈ fs, bits c f.1 f.2.1 = f.2.2 := by
  rw [and_eq_iff]
  constructor
  · intro h f hf
    obtain ⟨h1, h2, h3⟩ := hv f hf
    rw [bits_eq_iff _ _ _ _ h1]
    intro i hi
    have := h (f.2.1 + i) (by omega)
    have hmi : m.getLsbD (f.2.1 + i) = true := by
      rw [hm _ (by omega), List.any_eq_true]; exact ⟨f, hf, by simp; omega⟩
    rw [hmi, Bool.and_true, hn f hf i hi] at this
    exact this
  · intro h i hi
    by_cases hmi : m.getLsbD i = true
    · have := hmi
      rw [hm _ hi, List.any_eq_true] at this
      obtain ⟨f, hf, hif⟩ := this
      simp only [Bool.and_eq_true, decide_eq_true_eq] at hif
      obtain ⟨h1, h2, h3⟩ := hv f hf
      have hb := (bits_eq_iff c _ _ _ h1).mp (h f hf) (i - f.2.1) (by omega)
      have hn' := hn f hf (i - f.2.1) (by omega)
      rw [show f.2.1 + (i - f.2.1) = i by omega] at hb hn'
      rw [hmi, Bool.and_true, hb, hn']
    · simp only [Bool.not_eq_true] at hmi
      rw [hmi, hz i hi hmi, Bool.and_false]

end Sys2Proof
end

