-- ==== Sys2Proof/Laws/Formats.lean ====
section
/-! SUPPORT. The arithmetic of fields, slots, words and line sizes (R13 to R19, R90). -/

namespace Sys2Proof.Machine

/-- A field is a positive 10-bit value (R15). -/
theorem field_pos (d : Depth) (v : Nat) : 4 ≤ field d v := by
  cases d <;> simp only [field, clip8, clip10] <;> omega

theorem field_lt (d : Depth) (v : Nat) : field d v < 1024 := by
  cases d <;> simp only [field, clip8, clip10] <;> omega

theorem slotField_lt (s : State) (h i : Nat) : slotField s h i < 1024 := by
  unfold slotField
  split
  · exact field_lt _ _
  · omega

theorem packed_lt {a b c : Nat} (ha : a < 1024) (hb : b < 1024) (hc : c < 1024) : packed a b c < 2 ^ 30 := by
  unfold packed; omega

/-- OR of three slots is their sum (R132). -/
theorem or_slots {a b c : Nat} (ha : a < 1024) (hb : b < 1024) :
    a ||| b * 2 ^ 10 ||| c * 2 ^ 20 = packed a b c := by
  have h1 : a ||| b * 2 ^ 10 = 2 ^ 10 * b + a := by
    rw [Nat.two_pow_add_eq_or_of_lt ha b, Nat.or_comm, Nat.mul_comm]
  have h2 : (2 ^ 10 * b + a) ||| c * 2 ^ 20 = 2 ^ 20 * c + (2 ^ 10 * b + a) := by
    rw [Nat.two_pow_add_eq_or_of_lt (by omega) c, Nat.or_comm, Nat.mul_comm c]
  rw [h1, h2]
  unfold packed
  omega

/-- A slot's content is below `2^30`. -/
theorem slotValue_lt (d : Depth) (slot : Slot) (v : Nat) : slotValue d slot v < 2 ^ 30 := by
  have := field_lt d v
  cases slot <;> simp only [slotValue, slotShift] <;> omega

/-- The word of three fields ORed into an empty accumulator (R125, R132). -/
theorem toNat_or_slots (d : Depth) (x y z : Nat) :
    ((0 : Word32) ||| BitVec.ofNat 32 (slotValue d .s0 x) ||| BitVec.ofNat 32 (slotValue d .s1 y)
      ||| BitVec.ofNat 32 (slotValue d .s2 z)).toNat = packed (field d x) (field d y) (field d z) := by
  have hx := field_lt d x
  have hy := field_lt d y
  have hz := field_lt d z
  have h : ∀ s v, BitVec.toNat (BitVec.ofNat 32 (slotValue d s v)) = slotValue d s v := fun s v => by
    rw [BitVec.toNat_ofNat, Nat.mod_eq_of_lt (Nat.lt_trans (slotValue_lt d s v) (by omega))]
  simp only [BitVec.toNat_or, h]
  simp only [slotValue, slotShift, Nat.pow_zero, Nat.mul_one]
  simpa using or_slots hx hy

theorem toNat_or_two (d : Depth) (x y : Nat) :
    ((0 : Word32) ||| BitVec.ofNat 32 (slotValue d .s0 x) ||| BitVec.ofNat 32 (slotValue d .s1 y)).toNat
      = packed (field d x) (field d y) 0 := by
  have hx := field_lt d x
  have hy := field_lt d y
  have h : ∀ s v, BitVec.toNat (BitVec.ofNat 32 (slotValue d s v)) = slotValue d s v := fun s v => by
    rw [BitVec.toNat_ofNat, Nat.mod_eq_of_lt (Nat.lt_trans (slotValue_lt d s v) (by omega))]
  simp only [BitVec.toNat_or, h]
  simp only [slotValue, slotShift, Nat.pow_zero, Nat.mul_one]
  simpa using or_slots (c := 0) hx hy

theorem toNat_or_one (d : Depth) (x : Nat) :
    ((0 : Word32) ||| BitVec.ofNat 32 (slotValue d .s0 x)).toNat = packed (field d x) 0 0 := by
  have hx := field_lt d x
  simp only [BitVec.toNat_or, BitVec.toNat_ofNat, slotValue, slotShift, packed]
  simp
  omega

/-! ### Line sizes -/

/-- R16's second form. -/
theorem lineStrideOf_eq (w : Nat) : lineStrideOf w = ceilDiv w 48 * 128 := by
  unfold lineStrideOf ceilDiv; omega

/-- R17's second form. -/
theorem contentWords_eq (w : Nat) (h : w % 2 = 0) : contentWords w = ceilDiv (2 * w) 3 := by
  unfold contentWords tailWords ceilDiv
  split
  · omega
  · split <;> omega

/-- The content fits the line (R18). -/
theorem contentBytes_le (w : Nat) (h : w % 2 = 0) : contentBytes w ≤ lineStrideOf w := by
  rw [contentBytes, contentWords_eq w h, lineStrideOf_eq]
  unfold ceilDiv; omega

theorem linePadOf_le (w : Nat) (h : w % 2 = 0) : linePadOf w ≤ 120 := by
  rw [linePadOf, contentBytes, contentWords_eq w h, lineStrideOf_eq]
  unfold ceilDiv; omega

theorem lineStrideOf_lt (w : Nat) (h : w < 65536) : lineStrideOf w < 2 ^ 18 := by
  rw [lineStrideOf_eq]
  unfold ceilDiv; omega

theorem frameSizeOf_lt (w h : Nat) (hw : w < 65536) (hh : h < 65536) : frameSizeOf w h < 2 ^ 34 := by
  have h1 : lineStrideOf w ≤ 174848 := by rw [lineStrideOf_eq]; unfold ceilDiv; omega
  unfold frameSizeOf
  calc h * lineStrideOf w ≤ 65535 * 174848 := Nat.mul_le_mul (by omega) h1
    _ < 2 ^ 34 := by omega

end Sys2Proof.Machine
end

