-- ==== Sys2Proof/Laws/State.lean ====
section
/-! SUPPORT. One lemma per field per update of State, of the working registers and of the flags, each true by `rfl`: no
later proof unfolds a record update. -/

namespace Sys2Proof.Machine

variable (s : State)

/-! ### `setWork` -/

@[simp] theorem State.setWork_work (w : WorkRegs) : (s.setWork w).work = w := rfl
@[simp] theorem State.setWork_seq (w : WorkRegs) : (s.setWork w).seq = s.seq := rfl
@[simp] theorem State.setWork_flags (w : WorkRegs) : (s.setWork w).flags = s.flags := rfl
@[simp] theorem State.setWork_frame (w : WorkRegs) : (s.setWork w).frame = s.frame := rfl
@[simp] theorem State.setWork_derived (w : WorkRegs) : (s.setWork w).derived = s.derived := rfl
@[simp] theorem State.setWork_variant (w : WorkRegs) : (s.setWork w).variant = s.variant := rfl
@[simp] theorem State.setWork_mem (w : WorkRegs) : (s.setWork w).mem = s.mem := rfl
@[simp] theorem State.setWork_regions (w : WorkRegs) : (s.setWork w).regions = s.regions := rfl
@[simp] theorem State.setWork_inputs (w : WorkRegs) : (s.setWork w).inputs = s.inputs := rfl
@[simp] theorem State.setWork_reply (w : WorkRegs) : (s.setWork w).reply = s.reply := rfl
@[simp] theorem State.setWork_freeCount (w : WorkRegs) : (s.setWork w).freeCount = s.freeCount := rfl
@[simp] theorem State.setWork_setWork (w w' : WorkRegs) : (s.setWork w).setWork w' = s.setWork w' := rfl
@[simp] theorem State.setWork_self : s.setWork s.work = s := rfl

/-! ### `setSeq` -/

@[simp] theorem State.setSeq_work (q : SeqPos) : (s.setSeq q).work = s.work := rfl
@[simp] theorem State.setSeq_seq (q : SeqPos) : (s.setSeq q).seq = q := rfl
@[simp] theorem State.setSeq_flags (q : SeqPos) : (s.setSeq q).flags = s.flags := rfl
@[simp] theorem State.setSeq_frame (q : SeqPos) : (s.setSeq q).frame = s.frame := rfl
@[simp] theorem State.setSeq_derived (q : SeqPos) : (s.setSeq q).derived = s.derived := rfl
@[simp] theorem State.setSeq_variant (q : SeqPos) : (s.setSeq q).variant = s.variant := rfl
@[simp] theorem State.setSeq_mem (q : SeqPos) : (s.setSeq q).mem = s.mem := rfl
@[simp] theorem State.setSeq_regions (q : SeqPos) : (s.setSeq q).regions = s.regions := rfl
@[simp] theorem State.setSeq_inputs (q : SeqPos) : (s.setSeq q).inputs = s.inputs := rfl
@[simp] theorem State.setSeq_reply (q : SeqPos) : (s.setSeq q).reply = s.reply := rfl
@[simp] theorem State.setSeq_freeCount (q : SeqPos) : (s.setSeq q).freeCount = s.freeCount := rfl
@[simp] theorem State.setSeq_setSeq (q q' : SeqPos) : (s.setSeq q).setSeq q' = s.setSeq q' := rfl
@[simp] theorem State.setSeq_self : s.setSeq s.seq = s := rfl

/-! ### `setFlags` -/

@[simp] theorem State.setFlags_work (f : StatusFlags) : (s.setFlags f).work = s.work := rfl
@[simp] theorem State.setFlags_seq (f : StatusFlags) : (s.setFlags f).seq = s.seq := rfl
@[simp] theorem State.setFlags_flags (f : StatusFlags) : (s.setFlags f).flags = f := rfl
@[simp] theorem State.setFlags_frame (f : StatusFlags) : (s.setFlags f).frame = s.frame := rfl
@[simp] theorem State.setFlags_derived (f : StatusFlags) : (s.setFlags f).derived = s.derived := rfl
@[simp] theorem State.setFlags_variant (f : StatusFlags) : (s.setFlags f).variant = s.variant := rfl
@[simp] theorem State.setFlags_mem (f : StatusFlags) : (s.setFlags f).mem = s.mem := rfl
@[simp] theorem State.setFlags_regions (f : StatusFlags) : (s.setFlags f).regions = s.regions := rfl
@[simp] theorem State.setFlags_inputs (f : StatusFlags) : (s.setFlags f).inputs = s.inputs := rfl
@[simp] theorem State.setFlags_reply (f : StatusFlags) : (s.setFlags f).reply = s.reply := rfl
@[simp] theorem State.setFlags_freeCount (f : StatusFlags) : (s.setFlags f).freeCount = s.freeCount := rfl
@[simp] theorem State.setFlags_setFlags (f f' : StatusFlags) : (s.setFlags f).setFlags f' = s.setFlags f' := rfl
@[simp] theorem State.setFlags_self : s.setFlags s.flags = s := rfl

/-! ### `setFrame` -/

@[simp] theorem State.setFrame_work (f : FrameRegs) : (s.setFrame f).work = s.work := rfl
@[simp] theorem State.setFrame_seq (f : FrameRegs) : (s.setFrame f).seq = s.seq := rfl
@[simp] theorem State.setFrame_flags (f : FrameRegs) : (s.setFrame f).flags = s.flags := rfl
@[simp] theorem State.setFrame_frame (f : FrameRegs) : (s.setFrame f).frame = f := rfl
@[simp] theorem State.setFrame_derived (f : FrameRegs) : (s.setFrame f).derived = s.derived := rfl
@[simp] theorem State.setFrame_variant (f : FrameRegs) : (s.setFrame f).variant = s.variant := rfl
@[simp] theorem State.setFrame_mem (f : FrameRegs) : (s.setFrame f).mem = s.mem := rfl
@[simp] theorem State.setFrame_regions (f : FrameRegs) : (s.setFrame f).regions = s.regions := rfl
@[simp] theorem State.setFrame_inputs (f : FrameRegs) : (s.setFrame f).inputs = s.inputs := rfl
@[simp] theorem State.setFrame_reply (f : FrameRegs) : (s.setFrame f).reply = s.reply := rfl
@[simp] theorem State.setFrame_freeCount (f : FrameRegs) : (s.setFrame f).freeCount = s.freeCount := rfl
@[simp] theorem State.setFrame_setFrame (f f' : FrameRegs) : (s.setFrame f).setFrame f' = s.setFrame f' := rfl
@[simp] theorem State.setFrame_self : s.setFrame s.frame = s := rfl

/-! ### `setDerived` -/

@[simp] theorem State.setDerived_work (d : DerivedRegs) : (s.setDerived d).work = s.work := rfl
@[simp] theorem State.setDerived_seq (d : DerivedRegs) : (s.setDerived d).seq = s.seq := rfl
@[simp] theorem State.setDerived_flags (d : DerivedRegs) : (s.setDerived d).flags = s.flags := rfl
@[simp] theorem State.setDerived_frame (d : DerivedRegs) : (s.setDerived d).frame = s.frame := rfl
@[simp] theorem State.setDerived_derived (d : DerivedRegs) : (s.setDerived d).derived = d := rfl
@[simp] theorem State.setDerived_variant (d : DerivedRegs) : (s.setDerived d).variant = s.variant := rfl
@[simp] theorem State.setDerived_mem (d : DerivedRegs) : (s.setDerived d).mem = s.mem := rfl
@[simp] theorem State.setDerived_regions (d : DerivedRegs) : (s.setDerived d).regions = s.regions := rfl
@[simp] theorem State.setDerived_inputs (d : DerivedRegs) : (s.setDerived d).inputs = s.inputs := rfl
@[simp] theorem State.setDerived_reply (d : DerivedRegs) : (s.setDerived d).reply = s.reply := rfl
@[simp] theorem State.setDerived_freeCount (d : DerivedRegs) : (s.setDerived d).freeCount = s.freeCount := rfl
@[simp] theorem State.setDerived_setDerived (d d' : DerivedRegs) : (s.setDerived d).setDerived d' = s.setDerived d' := rfl
@[simp] theorem State.setDerived_self : s.setDerived s.derived = s := rfl

/-! ### `setMem` -/

@[simp] theorem State.setMem_work (m : Memory) : (s.setMem m).work = s.work := rfl
@[simp] theorem State.setMem_seq (m : Memory) : (s.setMem m).seq = s.seq := rfl
@[simp] theorem State.setMem_flags (m : Memory) : (s.setMem m).flags = s.flags := rfl
@[simp] theorem State.setMem_frame (m : Memory) : (s.setMem m).frame = s.frame := rfl
@[simp] theorem State.setMem_derived (m : Memory) : (s.setMem m).derived = s.derived := rfl
@[simp] theorem State.setMem_variant (m : Memory) : (s.setMem m).variant = s.variant := rfl
@[simp] theorem State.setMem_mem (m : Memory) : (s.setMem m).mem = m := rfl
@[simp] theorem State.setMem_regions (m : Memory) : (s.setMem m).regions = s.regions := rfl
@[simp] theorem State.setMem_inputs (m : Memory) : (s.setMem m).inputs = s.inputs := rfl
@[simp] theorem State.setMem_reply (m : Memory) : (s.setMem m).reply = s.reply := rfl
@[simp] theorem State.setMem_freeCount (m : Memory) : (s.setMem m).freeCount = s.freeCount := rfl
@[simp] theorem State.setMem_setMem (m m' : Memory) : (s.setMem m).setMem m' = s.setMem m' := rfl
@[simp] theorem State.setMem_self : s.setMem s.mem = s := rfl

/-! ### `setInputs` -/

@[simp] theorem State.setInputs_work (l : List Input) : (s.setInputs l).work = s.work := rfl
@[simp] theorem State.setInputs_seq (l : List Input) : (s.setInputs l).seq = s.seq := rfl
@[simp] theorem State.setInputs_flags (l : List Input) : (s.setInputs l).flags = s.flags := rfl
@[simp] theorem State.setInputs_frame (l : List Input) : (s.setInputs l).frame = s.frame := rfl
@[simp] theorem State.setInputs_derived (l : List Input) : (s.setInputs l).derived = s.derived := rfl
@[simp] theorem State.setInputs_variant (l : List Input) : (s.setInputs l).variant = s.variant := rfl
@[simp] theorem State.setInputs_mem (l : List Input) : (s.setInputs l).mem = s.mem := rfl
@[simp] theorem State.setInputs_regions (l : List Input) : (s.setInputs l).regions = s.regions := rfl
@[simp] theorem State.setInputs_inputs (l : List Input) : (s.setInputs l).inputs = l := rfl
@[simp] theorem State.setInputs_reply (l : List Input) : (s.setInputs l).reply = s.reply := rfl
@[simp] theorem State.setInputs_freeCount (l : List Input) : (s.setInputs l).freeCount = s.freeCount := rfl
@[simp] theorem State.setInputs_setInputs (l l' : List Input) : (s.setInputs l).setInputs l' = s.setInputs l' := rfl
@[simp] theorem State.setInputs_self : s.setInputs s.inputs = s := rfl

/-! ### `setReply` -/

@[simp] theorem State.setReply_work (r : Option Word32) : (s.setReply r).work = s.work := rfl
@[simp] theorem State.setReply_seq (r : Option Word32) : (s.setReply r).seq = s.seq := rfl
@[simp] theorem State.setReply_flags (r : Option Word32) : (s.setReply r).flags = s.flags := rfl
@[simp] theorem State.setReply_frame (r : Option Word32) : (s.setReply r).frame = s.frame := rfl
@[simp] theorem State.setReply_derived (r : Option Word32) : (s.setReply r).derived = s.derived := rfl
@[simp] theorem State.setReply_variant (r : Option Word32) : (s.setReply r).variant = s.variant := rfl
@[simp] theorem State.setReply_mem (r : Option Word32) : (s.setReply r).mem = s.mem := rfl
@[simp] theorem State.setReply_regions (r : Option Word32) : (s.setReply r).regions = s.regions := rfl
@[simp] theorem State.setReply_inputs (r : Option Word32) : (s.setReply r).inputs = s.inputs := rfl
@[simp] theorem State.setReply_reply (r : Option Word32) : (s.setReply r).reply = r := rfl
@[simp] theorem State.setReply_freeCount (r : Option Word32) : (s.setReply r).freeCount = s.freeCount := rfl
@[simp] theorem State.setReply_setReply (r r' : Option Word32) : (s.setReply r).setReply r' = s.setReply r' := rfl
@[simp] theorem State.setReply_self : s.setReply s.reply = s := rfl

/-! ### Working registers -/

variable (w : WorkRegs)

@[simp] theorem WorkRegs.setDp_yp (x : Addr) : (w.setDp x).yp = w.yp := rfl
@[simp] theorem WorkRegs.setDp_up (x : Addr) : (w.setDp x).up = w.up := rfl
@[simp] theorem WorkRegs.setDp_vp (x : Addr) : (w.setDp x).vp = w.vp := rfl
@[simp] theorem WorkRegs.setDp_dp (x : Addr) : (w.setDp x).dp = x := rfl
@[simp] theorem WorkRegs.setDp_uc (x : Addr) : (w.setDp x).uc = w.uc := rfl
@[simp] theorem WorkRegs.setDp_vc (x : Addr) : (w.setDp x).vc = w.vc := rfl
@[simp] theorem WorkRegs.setDp_val (x : Addr) : (w.setDp x).val = w.val := rfl
@[simp] theorem WorkRegs.setDp_ptr (x : Addr) (c : Src) : (w.setDp x).ptr c = w.ptr c := by cases c <;> rfl
@[simp] theorem WorkRegs.setVal_yp (x : Word32) : (w.setVal x).yp = w.yp := rfl
@[simp] theorem WorkRegs.setVal_up (x : Word32) : (w.setVal x).up = w.up := rfl
@[simp] theorem WorkRegs.setVal_vp (x : Word32) : (w.setVal x).vp = w.vp := rfl
@[simp] theorem WorkRegs.setVal_dp (x : Word32) : (w.setVal x).dp = w.dp := rfl
@[simp] theorem WorkRegs.setVal_uc (x : Word32) : (w.setVal x).uc = w.uc := rfl
@[simp] theorem WorkRegs.setVal_vc (x : Word32) : (w.setVal x).vc = w.vc := rfl
@[simp] theorem WorkRegs.setVal_val (x : Word32) : (w.setVal x).val = x := rfl
@[simp] theorem WorkRegs.setVal_ptr (x : Word32) (c : Src) : (w.setVal x).ptr c = w.ptr c := by cases c <;> rfl
@[simp] theorem WorkRegs.setPtr_dp (c : Src) (x : Addr) : (w.setPtr c x).dp = w.dp := by cases c <;> rfl
@[simp] theorem WorkRegs.setPtr_uc (c : Src) (x : Addr) : (w.setPtr c x).uc = w.uc := by cases c <;> rfl
@[simp] theorem WorkRegs.setPtr_vc (c : Src) (x : Addr) : (w.setPtr c x).vc = w.vc := by cases c <;> rfl
@[simp] theorem WorkRegs.setPtr_val (c : Src) (x : Addr) : (w.setPtr c x).val = w.val := by cases c <;> rfl
@[simp] theorem WorkRegs.setPtr_ptr_same (c : Src) (x : Addr) : (w.setPtr c x).ptr c = x := by cases c <;> rfl
@[simp] theorem WorkRegs.setPtr_ptr_other (c c' : Src) (x : Addr) (h : c' ≠ c) : (w.setPtr c x).ptr c' = w.ptr c' := by
  cases c <;> cases c' <;> first | rfl | exact absurd rfl h
@[simp] theorem WorkRegs.ptr_y : w.ptr .y = w.yp := rfl
@[simp] theorem WorkRegs.setPtr_y_yp (x : Addr) : (w.setPtr .y x).yp = x := rfl
@[simp] theorem WorkRegs.setPtr_y_up (x : Addr) : (w.setPtr .y x).up = w.up := rfl
@[simp] theorem WorkRegs.setPtr_y_vp (x : Addr) : (w.setPtr .y x).vp = w.vp := rfl
@[simp] theorem WorkRegs.ptr_u : w.ptr .u = w.up := rfl
@[simp] theorem WorkRegs.setPtr_u_yp (x : Addr) : (w.setPtr .u x).yp = w.yp := rfl
@[simp] theorem WorkRegs.setPtr_u_up (x : Addr) : (w.setPtr .u x).up = x := rfl
@[simp] theorem WorkRegs.setPtr_u_vp (x : Addr) : (w.setPtr .u x).vp = w.vp := rfl
@[simp] theorem WorkRegs.ptr_v : w.ptr .v = w.vp := rfl
@[simp] theorem WorkRegs.setPtr_v_yp (x : Addr) : (w.setPtr .v x).yp = w.yp := rfl
@[simp] theorem WorkRegs.setPtr_v_up (x : Addr) : (w.setPtr .v x).up = w.up := rfl
@[simp] theorem WorkRegs.setPtr_v_vp (x : Addr) : (w.setPtr .v x).vp = x := rfl

/-! ### Flags -/

@[simp] theorem raiseErr_work (c : ErrCode) : (raiseErr c s).work = s.work := rfl
@[simp] theorem raiseErr_seq (c : ErrCode) : (raiseErr c s).seq = s.seq := rfl
@[simp] theorem raiseErr_frame (c : ErrCode) : (raiseErr c s).frame = s.frame := rfl
@[simp] theorem raiseErr_derived (c : ErrCode) : (raiseErr c s).derived = s.derived := rfl
@[simp] theorem raiseErr_variant (c : ErrCode) : (raiseErr c s).variant = s.variant := rfl
@[simp] theorem raiseErr_mem (c : ErrCode) : (raiseErr c s).mem = s.mem := rfl
@[simp] theorem raiseErr_regions (c : ErrCode) : (raiseErr c s).regions = s.regions := rfl
@[simp] theorem raiseErr_inputs (c : ErrCode) : (raiseErr c s).inputs = s.inputs := rfl
@[simp] theorem raiseErr_reply (c : ErrCode) : (raiseErr c s).reply = s.reply := rfl
@[simp] theorem raiseErr_freeCount (c : ErrCode) : (raiseErr c s).freeCount = s.freeCount := rfl
@[simp] theorem clearFlags_work : (clearFlags s).work = s.work := rfl
@[simp] theorem clearFlags_seq : (clearFlags s).seq = s.seq := rfl
@[simp] theorem clearFlags_frame : (clearFlags s).frame = s.frame := rfl
@[simp] theorem clearFlags_derived : (clearFlags s).derived = s.derived := rfl
@[simp] theorem clearFlags_variant : (clearFlags s).variant = s.variant := rfl
@[simp] theorem clearFlags_mem : (clearFlags s).mem = s.mem := rfl
@[simp] theorem clearFlags_regions : (clearFlags s).regions = s.regions := rfl
@[simp] theorem clearFlags_inputs : (clearFlags s).inputs = s.inputs := rfl
@[simp] theorem clearFlags_reply : (clearFlags s).reply = s.reply := rfl
@[simp] theorem clearFlags_freeCount : (clearFlags s).freeCount = s.freeCount := rfl
@[simp] theorem setSt_work (st : RunState) : (setSt st s).work = s.work := rfl
@[simp] theorem setSt_seq (st : RunState) : (setSt st s).seq = s.seq := rfl
@[simp] theorem setSt_frame (st : RunState) : (setSt st s).frame = s.frame := rfl
@[simp] theorem setSt_derived (st : RunState) : (setSt st s).derived = s.derived := rfl
@[simp] theorem setSt_variant (st : RunState) : (setSt st s).variant = s.variant := rfl
@[simp] theorem setSt_mem (st : RunState) : (setSt st s).mem = s.mem := rfl
@[simp] theorem setSt_regions (st : RunState) : (setSt st s).regions = s.regions := rfl
@[simp] theorem setSt_inputs (st : RunState) : (setSt st s).inputs = s.inputs := rfl
@[simp] theorem setSt_reply (st : RunState) : (setSt st s).reply = s.reply := rfl
@[simp] theorem setSt_freeCount (st : RunState) : (setSt st s).freeCount = s.freeCount := rfl
@[simp] theorem clearFlags_flags_st : (clearFlags s).flags.st = s.flags.st := rfl
@[simp] theorem clearFlags_flags_done : (clearFlags s).flags.done = false := rfl
@[simp] theorem clearFlags_flags_err : (clearFlags s).flags.err = false := rfl
@[simp] theorem clearFlags_flags_errcode : (clearFlags s).flags.errcode = .none := rfl
@[simp] theorem clearFlags_flags_ie : (clearFlags s).flags.ie = s.flags.ie := rfl
@[simp] theorem setSt_flags_st (st : RunState) : (setSt st s).flags.st = st := rfl
@[simp] theorem setSt_flags_done (st : RunState) : (setSt st s).flags.done = s.flags.done := rfl
@[simp] theorem setSt_flags_err (st : RunState) : (setSt st s).flags.err = s.flags.err := rfl
@[simp] theorem setSt_flags_errcode (st : RunState) : (setSt st s).flags.errcode = s.flags.errcode := rfl
@[simp] theorem setSt_flags_ie (st : RunState) : (setSt st s).flags.ie = s.flags.ie := rfl
@[simp] theorem raiseErr_flags_st (c : ErrCode) : (raiseErr c s).flags.st = s.flags.st := by
  simp only [raiseErr, raiseFlags, State.setFlags_flags]; split <;> rfl
@[simp] theorem raiseErr_flags_done (c : ErrCode) : (raiseErr c s).flags.done = s.flags.done := by
  simp only [raiseErr, raiseFlags, State.setFlags_flags]; split <;> rfl
@[simp] theorem raiseErr_flags_ie (c : ErrCode) : (raiseErr c s).flags.ie = s.flags.ie := by
  simp only [raiseErr, raiseFlags, State.setFlags_flags]; split <;> rfl
@[simp] theorem raiseErr_flags_err (c : ErrCode) : (raiseErr c s).flags.err = true := by
  simp only [raiseErr, raiseFlags, State.setFlags_flags]; split <;> simp_all
/-- The first error is kept (R215). -/
theorem raiseErr_flags_errcode (c : ErrCode) :
    (raiseErr c s).flags.errcode = if s.flags.err then s.flags.errcode else c := by
  simp only [raiseErr, raiseFlags, State.setFlags_flags]; split <;> simp_all
@[simp] theorem raiseErr_of_err (c : ErrCode) (h : s.flags.err = true) : raiseErr c s = s := by
  simp [raiseErr, raiseFlags, h]

end Sys2Proof.Machine
end

