-- ==== Sys2Proof/Laws/Memory.lean ====
section
/-! SUPPORT. The memory object: a read after a write, the canonical form, and what the little-endian and zero stores leave
at every address. -/

namespace Sys2Proof.Machine

/-! ### The list of bytes -/

theorem Memory.read_write_same (m : Memory) (a : Nat) (b : Byte) : Memory.read (Memory.write m a b) a = some b := by
  induction m with
  | nil => simp [Memory.write, Memory.read]
  | cons e m ih =>
    obtain ⟨x, c⟩ := e
    simp only [Memory.write]
    split
    · simp [Memory.read]
    · split
      · simp [Memory.read]
      · rename_i h1 h2
        simp [Memory.read, Ne.symm h2, ih]

theorem Memory.read_write_other (m : Memory) (a x : Nat) (b : Byte) (h : x ≠ a) :
    Memory.read (Memory.write m a b) x = Memory.read m x := by
  induction m with
  | nil => simp [Memory.write, Memory.read, Ne.symm h]
  | cons e m ih =>
    obtain ⟨y, c⟩ := e
    simp only [Memory.write]
    split
    · simp [Memory.read, Ne.symm h]
    · split
      · rename_i h1 h2
        subst h2
        simp [Memory.read, Ne.symm h]
      · simp only [Memory.read, ih]

theorem Memory.mem_write (m : Memory) (a : Nat) (b : Byte) (c : Host.Cell) (h : c ∈ Memory.write m a b) :
    c = (a, b) ∨ c ∈ m := by
  induction m with
  | nil => simp [Memory.write] at h; exact .inl h
  | cons e m ih =>
    obtain ⟨x, d⟩ := e
    simp only [Memory.write] at h
    split at h
    · simpa using h
    · split at h
      · rcases List.mem_cons.mp h with h | h
        · exact .inl h
        · exact .inr (List.mem_cons_of_mem _ h)
      · rcases List.mem_cons.mp h with h | h
        · exact .inr (h ▸ List.mem_cons_self ..)
        · exact (ih h).imp id (List.mem_cons_of_mem _)

/-- Every write keeps the canonical form. -/
theorem Memory.wf_write (m : Memory) (a : Nat) (b : Byte) (ha : a < 2 ^ 64) (h : Memory.wf m) :
    Memory.wf (Memory.write m a b) := by
  refine ⟨?_, fun c hc => ?_⟩
  · obtain ⟨h, -⟩ := h
    induction m with
    | nil => simp [Memory.write]
    | cons e m ih =>
      obtain ⟨x, d⟩ := e
      rw [List.pairwise_cons] at h
      simp only [Memory.write]
      split
      · rename_i hx
        refine List.pairwise_cons.mpr ⟨fun c hc => ?_, List.pairwise_cons.mpr h⟩
        rcases List.mem_cons.mp hc with rfl | hc
        · exact hx
        · exact Nat.lt_trans hx (h.1 c hc)
      · split
        · rename_i h1 h2
          subst h2
          exact List.pairwise_cons.mpr h
        · rename_i h1 h2
          refine List.pairwise_cons.mpr ⟨fun c hc => ?_, ih h.2⟩
          rcases Memory.mem_write m a b c hc with rfl | hc
          · show x < a
            omega
          · exact h.1 c hc
  · rcases Memory.mem_write m a b c hc with rfl | hc
    · exact ha
    · exact h.2 c hc

/-! ### Bytes of a state -/

theorem byteAt_setMem_write (s : State) (a x : Addr) (b : Byte) :
    (s.setMem (Memory.write s.mem a.toNat b)).byteAt x = if x = a then b else s.byteAt x := by
  by_cases h : x = a
  · subst h
    simp [State.byteAt, Memory.read_write_same]
  · simp only [State.byteAt, State.setMem_mem, if_neg h]
    rw [Memory.read_write_other _ _ _ _ (fun e => h (BitVec.eq_of_toNat_eq e))]

section
variable (s : State)
@[simp] theorem byteAt_setWork (w : WorkRegs) (a : Addr) : (s.setWork w).byteAt a = s.byteAt a := rfl
@[simp] theorem byteAt_setSeq (q : SeqPos) (a : Addr) : (s.setSeq q).byteAt a = s.byteAt a := rfl
@[simp] theorem byteAt_setFlags (f : StatusFlags) (a : Addr) : (s.setFlags f).byteAt a = s.byteAt a := rfl
@[simp] theorem byteAt_setFrame (f : FrameRegs) (a : Addr) : (s.setFrame f).byteAt a = s.byteAt a := rfl
@[simp] theorem byteAt_setDerived (d : DerivedRegs) (a : Addr) : (s.setDerived d).byteAt a = s.byteAt a := rfl
@[simp] theorem byteAt_setInputs (l : List Input) (a : Addr) : (s.setInputs l).byteAt a = s.byteAt a := rfl
@[simp] theorem byteAt_setReply (r : Option Word32) (a : Addr) : (s.setReply r).byteAt a = s.byteAt a := rfl
@[simp] theorem byteAt_raiseErr (c : ErrCode) (a : Addr) : (raiseErr c s).byteAt a = s.byteAt a := rfl
@[simp] theorem byteAt_clearFlags (a : Addr) : (clearFlags s).byteAt a = s.byteAt a := rfl
@[simp] theorem byteAt_setSt (st : RunState) (a : Addr) : (setSt st s).byteAt a = s.byteAt a := rfl
end

/-- Bytes depend on the memory alone. -/
theorem byteAt_congr {s t : State} (h : t.mem = s.mem) (a : Addr) : t.byteAt a = s.byteAt a := by
  simp only [State.byteAt, h]

/-- Readability and writability depend on the provided regions alone. -/
theorem readable_congr {s t : State} (h : t.regions = s.regions) (a : Addr) (n : Nat) :
    t.readable a n = s.readable a n := by
  simp only [State.readable, State.canRead, h]

theorem writable_congr {s t : State} (h : t.regions = s.regions) (a : Addr) (n : Nat) :
    t.writable a n = s.writable a n := by
  simp only [State.writable, State.canWrite, h]

theorem readable_iff (s : State) (a : Addr) (n : Nat) :
    s.readable a n = true ↔ ∀ i < n, s.canRead (a + BitVec.ofNat 64 i) = true := by
  simp [State.readable]

theorem writable_iff (s : State) (a : Addr) (n : Nat) :
    s.writable a n = true ↔ ∀ i < n, s.canWrite (a + BitVec.ofNat 64 i) = true := by
  simp [State.writable]

/-- A part of a readable range is readable. -/
theorem readable_part {s : State} {a : Addr} {n : Nat} (h : s.readable a n = true) (k m : Nat) (hk : k + m ≤ n) :
    s.readable (a + BitVec.ofNat 64 k) m = true := by
  rw [readable_iff] at h ⊢
  intro i hi
  rw [BitVec.add_assoc, ← BitVec.ofNat_add]
  exact h (k + i) (by omega)

/-- A part of a writable range is writable. -/
theorem writable_part {s : State} {a : Addr} {n : Nat} (h : s.writable a n = true) (k m : Nat) (hk : k + m ≤ n) :
    s.writable (a + BitVec.ofNat 64 k) m = true := by
  rw [writable_iff] at h ⊢
  intro i hi
  rw [BitVec.add_assoc, ← BitVec.ofNat_add]
  exact h (k + i) (by omega)

/-! ### Address arithmetic -/

/-- The distance from `base` to `base +% k`. -/
theorem add_ofNat_sub (base : Addr) (k : Nat) (hk : k < 2 ^ 64) : (base + BitVec.ofNat 64 k - base).toNat = k := by
  rw [BitVec.add_comm, BitVec.add_sub_cancel, BitVec.toNat_ofNat, Nat.mod_eq_of_lt hk]

/-- Distances from two bases `k` apart. -/
theorem sub_add_ofNat (a base : Addr) (k : Nat) (hk : k ≤ (a - base).toNat) :
    (a - (base + BitVec.ofNat 64 k)).toNat = (a - base).toNat - k := by
  have h : a - (base + BitVec.ofNat 64 k) = (a - base) - BitVec.ofNat 64 k := by
    rw [sub_add_eq_sub_sub]
  rw [h]
  have hlt := (a - base).isLt
  generalize (a - base) = x at *
  rw [BitVec.toNat_sub_of_le]
  · rw [BitVec.toNat_ofNat, Nat.mod_eq_of_lt (by omega)]
  · rw [BitVec.le_def, BitVec.toNat_ofNat, Nat.mod_eq_of_lt (by omega)]
    exact hk

/-! ### Stores -/

/-- What a little-endian store leaves at every address (R64). -/
theorem byteAt_storeLE (n : Nat) (hn : n ≤ 2 ^ 64) (a : Addr) (v : Nat) (s : State) (x : Addr) :
    (s.setMem (storeLE n a v s.mem)).byteAt x =
      if (x - a).toNat < n then BitVec.ofNat 8 (v / 256 ^ (x - a).toNat) else s.byteAt x := by
  induction n generalizing a v s with
  | zero => simp [storeLE]
  | succ n ih =>
    have hrec := ih (by omega) (a + 1) (v / 256) (s.setMem (Memory.write s.mem a.toNat (BitVec.ofNat 8 v)))
    simp only [State.setMem_mem, State.setMem_setMem] at hrec
    rw [storeLE, hrec, byteAt_setMem_write]
    by_cases hxa : x = a
    · subst hxa
      have h1 : (x - (x + 1)).toNat = 2 ^ 64 - 1 := by
        rw [sub_add_eq_sub_sub, sub_self]; rfl
      rw [h1, if_neg (by omega), if_pos rfl, sub_self]
      simp
    · have h0 : (x - a).toNat ≠ 0 := fun h => hxa (by
        have : x - a = 0 := BitVec.eq_of_toNat_eq h
        exact sub_eq_zero.mp this)
      have h1 : (x - (a + 1)).toNat = (x - a).toNat - 1 := sub_add_ofNat x a 1 (by omega)
      rw [h1, if_neg hxa]
      obtain ⟨k, hk⟩ : ∃ k, (x - a).toNat = k + 1 := ⟨(x - a).toNat - 1, by omega⟩
      rw [hk]
      simp only [Nat.add_sub_cancel, Nat.add_lt_add_iff_right, Nat.pow_succ, Nat.div_div_eq_div_mul, Nat.mul_comm]

/-- What a zero store leaves at every address (R151). -/
theorem byteAt_storeZeros (n : Nat) (a : Addr) (s : State) (x : Addr) :
    (s.setMem (storeZeros n a s.mem)).byteAt x = if (x - a).toNat < n then 0 else s.byteAt x := by
  induction n generalizing a s with
  | zero => simp [storeZeros]
  | succ n ih =>
    have hrec := ih (a + 1) (s.setMem (Memory.write s.mem a.toNat 0))
    simp only [State.setMem_mem, State.setMem_setMem] at hrec
    rw [storeZeros, hrec, byteAt_setMem_write]
    by_cases hxa : x = a
    · subst hxa
      simp
    · have h0 : (x - a).toNat ≠ 0 := fun h => hxa (by
        have : x - a = 0 := BitVec.eq_of_toNat_eq h
        exact sub_eq_zero.mp this)
      have h1 : (x - (a + 1)).toNat = (x - a).toNat - 1 := sub_add_ofNat x a 1 (by omega)
      rw [h1, if_neg hxa]
      congr 1
      simp only [eq_iff_iff]
      omega

theorem wf_storeLE (n : Nat) (a : Addr) (v : Nat) (m : Memory) (h : Memory.wf m) : Memory.wf (storeLE n a v m) := by
  induction n generalizing a v m with
  | zero => exact h
  | succ n ih => exact ih _ _ _ (Memory.wf_write _ _ _ a.isLt h)

theorem wf_storeZeros (n : Nat) (a : Addr) (m : Memory) (h : Memory.wf m) : Memory.wf (storeZeros n a m) := by
  induction n generalizing a m with
  | zero => exact h
  | succ n ih => exact ih _ _ (Memory.wf_write _ _ _ a.isLt h)

/-! ### Loads -/

theorem loadLE_congr {s t : State} (n : Nat) (a : Addr)
    (h : ∀ i < n, t.byteAt (a + BitVec.ofNat 64 i) = s.byteAt (a + BitVec.ofNat 64 i)) : t.loadLE n a = s.loadLE n a := by
  induction n generalizing a with
  | zero => rfl
  | succ n ih =>
    have h0 := h 0 (by omega)
    simp only [BitVec.add_zero] at h0
    rw [State.loadLE, State.loadLE, h0, ih]
    intro i hi
    have := h (i + 1) (by omega)
    rwa [Nat.add_comm i 1, BitVec.ofNat_add, ← BitVec.add_assoc] at this

/-- The sample a depth reads (R66) is the little-endian value of its bytes (R63). -/
theorem loadLE_bps (s : State) (d : Depth) (a : Addr) : s.loadLE (bps d) a = s.sampleAt d a := by
  cases d <;> simp [bps, State.loadLE, State.sampleAt]

theorem sampleAt_congr {s t : State} (d : Depth) (a : Addr)
    (h : ∀ i < bps d, t.byteAt (a + BitVec.ofNat 64 i) = s.byteAt (a + BitVec.ofNat 64 i)) :
    t.sampleAt d a = s.sampleAt d a := by
  rw [← loadLE_bps, ← loadLE_bps, loadLE_congr _ _ h]

/-- Four bytes read back as the word whose bytes they are (R65). -/
theorem loadLE_four (s : State) (a : Addr) (v : Nat) (hv : v < 2 ^ 32)
    (h : ∀ k < 4, (s.byteAt (a + BitVec.ofNat 64 k)).toNat = v / 256 ^ k % 256) : s.loadLE 4 a = v := by
  have h0 := h 0 (by omega)
  have h1 := h 1 (by omega)
  have h2 := h 2 (by omega)
  have h3 := h 3 (by omega)
  have e2 : (1 : Addr) + 1 = BitVec.ofNat 64 2 := rfl
  have e3 : BitVec.ofNat 64 2 + (1 : Addr) = BitVec.ofNat 64 3 := rfl
  simp only [State.loadLE, BitVec.add_assoc, e2, e3]
  simp only [BitVec.add_zero] at h0
  change (s.byteAt (a + 1)).toNat = _ at h1
  rw [h0, h1, h2, h3]
  omega

end Sys2Proof.Machine
end

