-- ==== Sys2Proof/Laws/Ops.lean ====
section
/-! SUPPORT. One spec lemma per shared operation: when it completes, and what it then leaves. Callers cite these and do not
unfold the operation. -/

namespace Sys2Proof.Machine

/-! ### Sequencing -/

theorem andThen_next {f g : Op} {s t : State} :
    andThen f g s = .next t ↔ ∃ r, f s = .next r ∧ g r = .next t := by
  unfold andThen
  cases f s <;> simp

theorem andThen_of_next {f g : Op} {s r : State} (h : f s = .next r) : andThen f g s = g r := by
  simp only [andThen, h]

theorem andThen_assoc (f g k : Op) : andThen (andThen f g) k = andThen f (andThen g k) := by
  funext s
  simp only [andThen]
  cases f s <;> rfl

theorem andThen_ret (f : Op) : andThen f (fun s => .next s) = f := by
  funext s
  simp only [andThen]
  cases f s <;> rfl

theorem ret_andThen (f : Op) : andThen (fun s => .next s) f = f := rfl

theorem repeatOp_add (m n : Nat) (f : Op) : repeatOp (m + n) f = andThen (repeatOp m f) (repeatOp n f) := by
  induction m with
  | zero => rw [Nat.zero_add]; rfl
  | succ m ih => rw [Nat.succ_add, repeatOp, repeatOp, ih, andThen_assoc]

/-! ### What the rest of the state sees -/

theorem KeepsRest.rfl' (s : State) : KeepsRest s s := ⟨rfl, rfl, rfl, rfl, rfl, rfl, rfl, rfl, rfl⟩

theorem KeepsRest.trans' {s t r : State} (h : KeepsRest s t) (k : KeepsRest t r) : KeepsRest s r :=
  ⟨k.seq.trans h.seq, k.flags.trans h.flags, k.frame.trans h.frame, k.derived.trans h.derived,
   k.variant.trans h.variant, k.regions.trans h.regions, k.inputs.trans h.inputs, k.reply.trans h.reply,
   k.freeCount.trans h.freeCount⟩

theorem keepsRest_setWork (s : State) (w : WorkRegs) : KeepsRest s (s.setWork w) :=
  ⟨rfl, rfl, rfl, rfl, rfl, rfl, rfl, rfl, rfl⟩

theorem keepsRest_setMem (s : State) (m : Memory) : KeepsRest s (s.setMem m) :=
  ⟨rfl, rfl, rfl, rfl, rfl, rfl, rfl, rfl, rfl⟩

/-! ### Memory access -/

theorem memRead_bps (d : Depth) (a : Addr) (s : State) :
    memRead (bps d) a s = if s.readable a (bps d) then some (s.sampleAt d a) else none := by
  rw [memRead, loadLE_bps]

/-- Every outcome of `SampleRead` (R67). -/
theorem sampleRead_eq (d : Depth) (c : Src) (s : State) :
    sampleRead d c s = if s.readable (s.work.ptr c) (bps d) then
      some (s.sampleAt d (s.work.ptr c), s.setWork (s.work.setPtr c (s.work.ptr c + BitVec.ofNat 64 (bps d))))
      else none := by
  rw [sampleRead, memRead_bps]
  split <;> simp_all

/-- The state after `ACC` (R123). -/
def accResult (d : Depth) (slot : Slot) (c : Src) (s : State) : State :=
  s.setWork ((s.work.setPtr c (s.work.ptr c + BitVec.ofNat 64 (bps d))).setVal
    (s.work.val ||| BitVec.ofNat 32 (slotValue d slot (s.sampleAt d (s.work.ptr c)))))

/-- Every outcome of `ACC` (R123). -/
theorem accumulate_eq (d : Depth) (slot : Slot) (c : Src) (s : State) :
    accumulate d slot c s = if s.readable (s.work.ptr c) (bps d) then .next (accResult d slot c s)
      else .fault .memNotProvided := by
  rw [accumulate, sampleRead_eq]
  by_cases h : s.readable (s.work.ptr c) (bps d) = true <;> simp [h, accResult]

theorem accumulate_next {d : Depth} {slot : Slot} {c : Src} {s t : State} :
    accumulate d slot c s = .next t ↔ s.readable (s.work.ptr c) (bps d) = true ∧ t = accResult d slot c s := by
  rw [accumulate_eq]
  by_cases h : s.readable (s.work.ptr c) (bps d) = true <;> simp [h, eq_comm (a := t)]

/-- The state after `FLUSH` (R124). -/
def flushResult (s : State) : State :=
  (s.setMem (storeLE 4 s.work.dp s.work.val.toNat s.mem)).setWork ((s.work.setDp (s.work.dp + 4)).setVal 0)

/-- Every outcome of `FLUSH` (R124). -/
theorem flushWord_eq (s : State) :
    flushWord s = if s.writable s.work.dp 4 then .next (flushResult s) else .fault .memNotProvided := by
  rw [flushWord, memWrite]
  by_cases h : s.writable s.work.dp 4 = true <;> simp [h, flushResult]

theorem flushWord_next {s t : State} :
    flushWord s = .next t ↔ s.writable s.work.dp 4 = true ∧ t = flushResult s := by
  rw [flushWord_eq]
  by_cases h : s.writable s.work.dp 4 = true <;> simp [h, eq_comm (a := t)]

/-- The state after `ZFILL` (R151). -/
def zfillResult (n : Nat) (s : State) : State :=
  (s.setMem (storeZeros n s.work.dp s.mem)).setWork (s.work.setDp (s.work.dp + BitVec.ofNat 64 n))

/-- Every outcome of `ZFILL` (R151). -/
theorem execZfill_eq (n : Nat) (s : State) :
    execZfill n s = if s.writable s.work.dp n then .next (zfillResult n s) else .fault .memNotProvided := by
  rw [execZfill, memZero]
  by_cases h : s.writable s.work.dp n = true <;> simp [h, zfillResult]

theorem execZfill_next {n : Nat} {s t : State} :
    execZfill n s = .next t ↔ s.writable s.work.dp n = true ∧ t = zfillResult n s := by
  rw [execZfill_eq]
  by_cases h : s.writable s.work.dp n = true <;> simp [h, eq_comm (a := t)]

/-! ### What the packing operations do -/

/-- The working registers after `y`, `u`, `v` samples of `b` bytes are read and `o` bytes written, with `VAL` flushed. -/
def WorkRegs.after (w : WorkRegs) (b y u v o : Nat) : WorkRegs :=
  { w with
    yp := w.yp + BitVec.ofNat 64 (y * b)
    up := w.up + BitVec.ofNat 64 (u * b)
    vp := w.vp + BitVec.ofNat 64 (v * b)
    dp := w.dp + BitVec.ofNat 64 o
    val := 0 }

section
variable (w : WorkRegs) (b y u v o : Nat)
@[simp] theorem WorkRegs.after_yp : (w.after b y u v o).yp = w.yp + BitVec.ofNat 64 (y * b) := rfl
@[simp] theorem WorkRegs.after_up : (w.after b y u v o).up = w.up + BitVec.ofNat 64 (u * b) := rfl
@[simp] theorem WorkRegs.after_vp : (w.after b y u v o).vp = w.vp + BitVec.ofNat 64 (v * b) := rfl
@[simp] theorem WorkRegs.after_dp : (w.after b y u v o).dp = w.dp + BitVec.ofNat 64 o := rfl
@[simp] theorem WorkRegs.after_val : (w.after b y u v o).val = 0 := rfl
@[simp] theorem WorkRegs.after_uc : (w.after b y u v o).uc = w.uc := rfl
@[simp] theorem WorkRegs.after_vc : (w.after b y u v o).vc = w.vc := rfl

theorem WorkRegs.after_after (y' u' v' o' : Nat) :
    (w.after b y u v o).after b y' u' v' o' = w.after b (y + y') (u + u') (v + v') (o + o') := by
  simp only [WorkRegs.after, BitVec.add_assoc, ← BitVec.ofNat_add, Nat.add_mul]
end

/-- The state `t` is the state `s` after a packing operation that read `y`, `u`, `v` samples and wrote `o` bytes (R135). -/
structure Packs (d : Depth) (y u v o : Nat) (s t : State) : Prop where
  work : t.work = s.work.after (bps d) y u v o
  rest : KeepsRest s t
  bytes : ∀ a, outside a s.work.dp o → t.byteAt a = s.byteAt a
  wf : Memory.wf s.mem → Memory.wf t.mem

theorem outside_left {a base : Addr} {m n : Nat} (h : outside a base (m + n)) : outside a base m := by
  unfold outside at *; omega

theorem outside_right {a base : Addr} {m n : Nat} (h : outside a base (m + n)) :
    outside a (base + BitVec.ofNat 64 m) n := by
  unfold outside at *
  rw [sub_add_ofNat a base m (by omega)]
  omega

theorem Packs.compose {d : Depth} {y u v o y' u' v' o' : Nat} {s t r : State}
    (h : Packs d y u v o s t) (k : Packs d y' u' v' o' t r) : Packs d (y + y') (u + u') (v + v') (o + o') s r where
  work := by rw [k.work, h.work, WorkRegs.after_after]
  rest := h.rest.trans' k.rest
  bytes a ha := by
    rw [k.bytes a, h.bytes a (outside_left ha)]
    rw [h.work, WorkRegs.after_dp]
    exact outside_right ha
  wf hm := k.wf (h.wf hm)

/-- Bytes after a flush (R64, R124). -/
theorem byteAt_flushResult (s : State) (a : Addr) :
    (flushResult s).byteAt a =
      if (a - s.work.dp).toNat < 4 then BitVec.ofNat 8 (s.work.val.toNat / 256 ^ (a - s.work.dp).toNat)
      else s.byteAt a := by
  rw [flushResult, byteAt_setWork, byteAt_storeLE 4 (by omega)]

/-- The word just flushed, read back (R65). -/
theorem loadLE_flushResult (s : State) : (flushResult s).loadLE 4 s.work.dp = s.work.val.toNat := by
  apply loadLE_four _ _ _ s.work.val.isLt
  intro k hk
  rw [byteAt_flushResult, add_ofNat_sub _ _ (by omega), if_pos hk, BitVec.toNat_ofNat]

theorem packs_flushResult (d : Depth) (s : State) : Packs d 0 0 0 4 s (flushResult s) where
  work := by simp [flushResult, WorkRegs.after, WorkRegs.setDp, WorkRegs.setVal]
  rest := (keepsRest_setMem s _).trans' (keepsRest_setWork _ _)
  bytes a ha := by
    unfold outside at ha
    rw [byteAt_flushResult, if_neg (by omega)]
  wf h := wf_storeLE _ _ _ _ h

@[simp] theorem byteAt_accResult (d : Depth) (slot : Slot) (c : Src) (s : State) (a : Addr) :
    (accResult d slot c s).byteAt a = s.byteAt a := rfl

@[simp] theorem sampleAt_accResult (d : Depth) (slot : Slot) (c : Src) (s : State) (d' : Depth) (a : Addr) :
    (accResult d slot c s).sampleAt d' a = s.sampleAt d' a := by cases d' <;> rfl

/-- The word a `WORD` writes: the slots ORed into what `VAL` held (R125). -/
def wordValue (d : Depth) (p : Pat) (s : State) : Word32 :=
  let g := fun slot =>
    BitVec.ofNat 32 (slotValue d slot
      (s.sampleAt d (s.work.ptr (patSample p slot).1 + BitVec.ofNat 64 ((patSample p slot).2 * bps d))))
  s.work.val ||| g .s0 ||| g .s1 ||| g .s2

/-- The state after `WORD` (R125, R126). -/
def wordResult (d : Depth) (p : Pat) (s : State) : State :=
  (s.setMem (storeLE 4 s.work.dp (wordValue d p s).toNat s.mem)).setWork
    (s.work.after (bps d) (patUses p .y) (patUses p .u) (patUses p .v) 4)

/-- The bytes a `WORD` needs (R126). -/
def wordReady (d : Depth) (p : Pat) (s : State) : Prop :=
  (∀ c, s.readable (s.work.ptr c) (patUses p c * bps d) = true) ∧ s.writable s.work.dp 4 = true

theorem readable_add (s : State) (a : Addr) (m n : Nat) :
    s.readable a (m + n) = true ↔ s.readable a m = true ∧ s.readable (a + BitVec.ofNat 64 m) n = true := by
  constructor
  · intro h
    exact ⟨by simpa using readable_part h 0 m (by omega), readable_part h m n (by omega)⟩
  · rintro ⟨h1, h2⟩
    rw [readable_iff] at *
    intro i hi
    by_cases hm : i < m
    · exact h1 i hm
    · have := h2 (i - m) (by omega)
      rwa [BitVec.add_assoc, ← BitVec.ofNat_add, Nat.add_sub_cancel' (by omega)] at this

theorem writable_add (s : State) (a : Addr) (m n : Nat) :
    s.writable a (m + n) = true ↔ s.writable a m = true ∧ s.writable (a + BitVec.ofNat 64 m) n = true := by
  constructor
  · intro h
    exact ⟨by simpa using writable_part h 0 m (by omega), writable_part h m n (by omega)⟩
  · rintro ⟨h1, h2⟩
    rw [writable_iff] at *
    intro i hi
    by_cases hm : i < m
    · exact h1 i hm
    · have := h2 (i - m) (by omega)
      rwa [BitVec.add_assoc, ← BitVec.ofNat_add, Nat.add_sub_cancel' (by omega)] at this

@[simp] theorem readable_zero (s : State) (a : Addr) : s.readable a 0 = true := by simp [State.readable]
@[simp] theorem writable_zero (s : State) (a : Addr) : s.writable a 0 = true := by simp [State.writable]

@[simp] theorem readable_accResult (d : Depth) (slot : Slot) (c : Src) (s : State) (a : Addr) (n : Nat) :
    (accResult d slot c s).readable a n = s.readable a n := rfl
@[simp] theorem writable_accResult (d : Depth) (slot : Slot) (c : Src) (s : State) (a : Addr) (n : Nat) :
    (accResult d slot c s).writable a n = s.writable a n := rfl
@[simp] theorem accResult_mem (d : Depth) (slot : Slot) (c : Src) (s : State) :
    (accResult d slot c s).mem = s.mem := rfl
@[simp] theorem accResult_dp (d : Depth) (slot : Slot) (c : Src) (s : State) :
    (accResult d slot c s).work.dp = s.work.dp := by simp [accResult]

/-- The state `WORD` reaches step by step is `wordResult`. -/
theorem flush_acc_acc_acc (d : Depth) (p : Pat) (s : State) :
    flushResult (accResult d .s2 (patSrc p .s2) (accResult d .s1 (patSrc p .s1) (accResult d .s0 (patSrc p .s0) s)))
      = wordResult d p s := by
  have hm : ∀ (w : WorkRegs) (m : Memory), (s.setWork w).setMem m = (s.setMem m).setWork w := fun _ _ => rfl
  rw [flushResult, accResult_mem, accResult_mem, accResult_mem]
  rw [accResult, sampleAt_accResult, sampleAt_accResult]
  rw [accResult, sampleAt_accResult]
  rw [accResult]
  cases p <;>
    simp [hm, patSrc, patUses, patSample, wordResult, wordValue, WorkRegs.after, WorkRegs.setDp, WorkRegs.setVal,
      WorkRegs.setPtr, Nat.two_mul, BitVec.ofNat_add, BitVec.add_assoc]

theorem wordReady_iff (d : Depth) (p : Pat) (s : State) : wordReady d p s ↔
    s.readable (s.work.ptr (patSrc p .s0)) (bps d) = true ∧
    s.readable ((accResult d .s0 (patSrc p .s0) s).work.ptr (patSrc p .s1)) (bps d) = true ∧
    s.readable ((accResult d .s1 (patSrc p .s1) (accResult d .s0 (patSrc p .s0) s)).work.ptr (patSrc p .s2)) (bps d)
      = true ∧
    s.writable s.work.dp 4 = true := by
  have hall : ∀ q : Src → Prop, (∀ c, q c) ↔ q .y ∧ q .u ∧ q .v := fun q =>
    ⟨fun h => ⟨h _, h _, h _⟩, fun h c => by cases c <;> simp [h]⟩
  unfold wordReady
  rw [hall]
  cases p <;>
    simp [patSrc, patUses, accResult, WorkRegs.setVal, WorkRegs.setPtr, WorkRegs.ptr, Nat.two_mul, readable_add]
  all_goals tauto

/-- Every next state of `WORD` (R125), and when there is one. -/
theorem packWord_next {d : Depth} {p : Pat} {s t : State} :
    packWord d p s = .next t ↔ wordReady d p s ∧ t = wordResult d p s := by
  rw [wordReady_iff, ← flush_acc_acc_acc]
  simp only [packWord, andThen_next, accumulate_next, flushWord_next]
  constructor
  · rintro ⟨_, ⟨h1, rfl⟩, _, ⟨h2, rfl⟩, _, ⟨h3, rfl⟩, h4, rfl⟩
    simp only [readable_accResult, writable_accResult, accResult_dp] at h2 h3 h4
    exact ⟨⟨h1, h2, h3, h4⟩, rfl⟩
  · rintro ⟨⟨h1, h2, h3, h4⟩, rfl⟩
    refine ⟨_, ⟨h1, rfl⟩, _, ⟨h2, rfl⟩, _, ⟨h3, rfl⟩, ?_, rfl⟩
    simpa only [writable_accResult, accResult_dp] using h4

end Sys2Proof.Machine
end

