-- ==== Sys2Proof/Laws/Packing.lean ====
section
/-! SUPPORT. What each packing operation does, said once: when it completes (R76 read the other way), what it consumes
(R135), and the words it writes (R93, R130, R131). -/

namespace Sys2Proof.Machine

/-! ### `WORD` -/

theorem byteAt_wordResult (d : Depth) (p : Pat) (s : State) (a : Addr) :
    (wordResult d p s).byteAt a =
      if (a - s.work.dp).toNat < 4 then BitVec.ofNat 8 ((wordValue d p s).toNat / 256 ^ (a - s.work.dp).toNat)
      else s.byteAt a := by
  rw [wordResult, byteAt_setWork, byteAt_storeLE 4 (by omega)]

theorem packs_wordResult (d : Depth) (p : Pat) (s : State) :
    Packs d (patUses p .y) (patUses p .u) (patUses p .v) 4 s (wordResult d p s) where
  work := rfl
  rest := (keepsRest_setMem s _).trans' (keepsRest_setWork _ _)
  bytes a ha := by
    unfold outside at ha
    rw [byteAt_wordResult, if_neg (by omega)]
  wf h := wf_storeLE _ _ _ _ h

theorem loadLE_wordResult (d : Depth) (p : Pat) (s : State) :
    (wordResult d p s).loadLE 4 s.work.dp = (wordValue d p s).toNat := by
  apply loadLE_four _ _ _ (wordValue d p s).isLt
  intro k hk
  rw [byteAt_wordResult, add_ofNat_sub _ _ (by omega), if_pos hk, BitVec.toNat_ofNat]

/-- With an empty accumulator the word is its three fields (R90, R125). -/
theorem toNat_wordValue (d : Depth) (p : Pat) (s : State) (h : s.work.val = 0) :
    (wordValue d p s).toNat =
      packed (s.nextField d (patSample p .s0).1 (patSample p .s0).2)
        (s.nextField d (patSample p .s1).1 (patSample p .s1).2)
        (s.nextField d (patSample p .s2).1 (patSample p .s2).2) := by
  rw [wordValue, h]
  exact toNat_or_slots d _ _ _

theorem packWord_packs {d : Depth} {p : Pat} {s t : State} (h : packWord d p s = .next t) :
    Packs d (patUses p .y) (patUses p .u) (patUses p .v) 4 s t := by
  obtain ⟨-, rfl⟩ := packWord_next.mp h
  exact packs_wordResult d p s

/-! ### Readiness of longer operations -/

/-- The platform provides the next `y`, `u`, `v` samples and the next `o` output bytes. -/
structure Ready (d : Depth) (y u v o : Nat) (s : State) : Prop where
  luma : s.readable s.work.yp (y * bps d) = true
  chromaU : s.readable s.work.up (u * bps d) = true
  chromaV : s.readable s.work.vp (v * bps d) = true
  out : s.writable s.work.dp o = true

theorem wordReady_of_ready {d : Depth} {p : Pat} {s : State}
    (h : Ready d (patUses p .y) (patUses p .u) (patUses p .v) 4 s) : wordReady d p s :=
  ⟨fun c => by cases c <;> [exact h.luma; exact h.chromaU; exact h.chromaV], h.out⟩

theorem Ready.left {d : Depth} {y u v o y' u' v' o' : Nat} {s : State}
    (h : Ready d (y + y') (u + u') (v + v') (o + o') s) : Ready d y u v o s where
  luma := ((readable_add _ _ _ _).mp (Nat.add_mul y y' _ ▸ h.luma)).1
  chromaU := ((readable_add _ _ _ _).mp (Nat.add_mul u u' _ ▸ h.chromaU)).1
  chromaV := ((readable_add _ _ _ _).mp (Nat.add_mul v v' _ ▸ h.chromaV)).1
  out := ((writable_add _ _ _ _).mp h.out).1

/-- After the first part of an operation the platform provides what the second part needs. -/
theorem Ready.right {d : Depth} {y u v o y' u' v' o' : Nat} {s t : State}
    (h : Ready d (y + y') (u + u') (v + v') (o + o') s) (k : Packs d y u v o s t) : Ready d y' u' v' o' t where
  luma := by
    rw [readable_congr k.rest.regions, k.work, WorkRegs.after_yp]
    exact ((readable_add _ _ _ _).mp (Nat.add_mul y y' _ ▸ h.luma)).2
  chromaU := by
    rw [readable_congr k.rest.regions, k.work, WorkRegs.after_up]
    exact ((readable_add _ _ _ _).mp (Nat.add_mul u u' _ ▸ h.chromaU)).2
  chromaV := by
    rw [readable_congr k.rest.regions, k.work, WorkRegs.after_vp]
    exact ((readable_add _ _ _ _).mp (Nat.add_mul v v' _ ▸ h.chromaV)).2
  out := by
    rw [writable_congr k.rest.regions, k.work, WorkRegs.after_dp]
    exact ((writable_add _ _ _ _).mp h.out).2

/-- `f` packs `y`, `u`, `v` samples into `o` bytes: it completes whenever the platform provides them, and only so. -/
structure DoesPack (d : Depth) (y u v o : Nat) (f : Op) : Prop where
  completes : ∀ s, Ready d y u v o s → ∃ t, f s = .next t
  packs : ∀ s t, f s = .next t → Packs d y u v o s t

theorem DoesPack.compose {d : Depth} {y u v o y' u' v' o' : Nat} {f g : Op}
    (hf : DoesPack d y u v o f) (hg : DoesPack d y' u' v' o' g) :
    DoesPack d (y + y') (u + u') (v + v') (o + o') (andThen f g) where
  completes s h := by
    obtain ⟨r, hr⟩ := hf.completes s h.left
    obtain ⟨t, ht⟩ := hg.completes r (h.right (hf.packs s r hr))
    exact ⟨t, andThen_next.mpr ⟨r, hr, ht⟩⟩
  packs s t h := by
    obtain ⟨r, hr, ht⟩ := andThen_next.mp h
    exact (hf.packs s r hr).compose (hg.packs r t ht)

theorem doesPack_word (d : Depth) (p : Pat) :
    DoesPack d (patUses p .y) (patUses p .u) (patUses p .v) 4 (packWord d p) where
  completes _ h := ⟨_, packWord_next.mpr ⟨wordReady_of_ready h, rfl⟩⟩
  packs _ _ h := packWord_packs h

/-- `GROUP` (R127, R135). -/
theorem doesPack_group (d : Depth) : DoesPack d 6 3 3 16 (packGroup d) :=
  (doesPack_word d .uyv).compose ((doesPack_word d .yuy).compose ((doesPack_word d .vyu).compose (doesPack_word d .yvy)))

/-- One component and a flush: the one-component word that ends `TAIL2` (R110, R130). -/
theorem doesPack_word1 (d : Depth) : DoesPack d 1 0 0 4 (andThen (accumulate d .s0 .y) flushWord) where
  completes s h := by
    have h1 : s.readable (s.work.ptr .y) (bps d) = true := by simpa using h.luma
    exact ⟨_, andThen_next.mpr ⟨_, accumulate_next.mpr ⟨h1, rfl⟩,
      flushWord_next.mpr ⟨by simpa using h.out, rfl⟩⟩⟩
  packs s t h := by
    obtain ⟨r, hr, ht⟩ := andThen_next.mp h
    obtain ⟨-, rfl⟩ := accumulate_next.mp hr
    obtain ⟨-, rfl⟩ := flushWord_next.mp ht
    have k := packs_flushResult d (accResult d .s0 .y s)
    refine ⟨?_, (keepsRest_setWork s _).trans' k.rest, fun a ha => ?_, k.wf⟩
    · rw [k.work]
      simp [accResult, WorkRegs.after, WorkRegs.setVal, WorkRegs.setPtr]
    · rw [k.bytes a (by simpa using ha)]
      rfl

/-- Two components and a flush: the two-component word that ends `TAIL4` (R110, R131). -/
theorem doesPack_word2 (d : Depth) :
    DoesPack d 1 0 1 4 (andThen (accumulate d .s0 .v) (andThen (accumulate d .s1 .y) flushWord)) where
  completes s h := by
    have h1 : s.readable (s.work.ptr .v) (bps d) = true := by simpa using h.chromaV
    have h2 : (accResult d .s0 .v s).readable ((accResult d .s0 .v s).work.ptr .y) (bps d) = true := by
      rw [readable_accResult]
      simpa [accResult] using h.luma
    exact ⟨_, andThen_next.mpr ⟨_, accumulate_next.mpr ⟨h1, rfl⟩, andThen_next.mpr ⟨_, accumulate_next.mpr ⟨h2, rfl⟩,
      flushWord_next.mpr ⟨by simpa using h.out, rfl⟩⟩⟩⟩
  packs s t h := by
    obtain ⟨r, hr, h⟩ := andThen_next.mp h
    obtain ⟨q, hq, ht⟩ := andThen_next.mp h
    obtain ⟨-, rfl⟩ := accumulate_next.mp hr
    obtain ⟨-, rfl⟩ := accumulate_next.mp hq
    obtain ⟨-, rfl⟩ := flushWord_next.mp ht
    have k := packs_flushResult d (accResult d .s1 .y (accResult d .s0 .v s))
    refine ⟨?_, ((keepsRest_setWork s _).trans' (keepsRest_setWork _ _)).trans' k.rest, fun a ha => ?_, k.wf⟩
    · rw [k.work]
      simp [accResult, WorkRegs.after, WorkRegs.setVal, WorkRegs.setPtr]
    · rw [k.bytes a (by simpa using ha)]
      rfl

/-- `TAIL2` (R130, R135). -/
theorem doesPack_tail2 (d : Depth) : DoesPack d 2 1 1 8 (execTail2 d) :=
  (doesPack_word d .uyv).compose (doesPack_word1 d)

/-- `TAIL4` (R131, R135). -/
theorem doesPack_tail4 (d : Depth) : DoesPack d 4 2 2 12 (execTail4 d) :=
  (doesPack_word d .uyv).compose ((doesPack_word d .yuy).compose (doesPack_word2 d))

/-- `k + 1` groups (R128, R135). -/
theorem doesPack_groups (d : Depth) (k : Nat) :
    DoesPack d (6 * (k + 1)) (3 * (k + 1)) (3 * (k + 1)) (16 * (k + 1)) (repeatOp (k + 1) (packGroup d)) := by
  induction k with
  | zero =>
    rw [repeatOp, repeatOp, andThen_ret]
    exact doesPack_group d
  | succ k ih =>
    have := (doesPack_group d).compose ih
    rw [repeatOp]
    convert this using 1 <;> ring

/-- A packing operation with an empty accumulator on entry also holds when nothing is packed. -/
theorem packs_refl (d : Depth) (s : State) (h : s.work.val = 0) : Packs d 0 0 0 0 s s where
  work := by
    simp only [WorkRegs.after, Nat.zero_mul, BitVec.add_zero, ← h]
  rest := KeepsRest.rfl' s
  bytes _ _ := rfl
  wf := id

/-- `k` groups, `VAL = 0` on entry (R128, R134, R135). -/
theorem groups_packs {d : Depth} {k : Nat} {s t : State} (hv : s.work.val = 0)
    (h : repeatOp k (packGroup d) s = .next t) : Packs d (6 * k) (3 * k) (3 * k) (16 * k) s t := by
  cases k with
  | zero =>
    obtain rfl : s = t := by simpa [repeatOp] using h
    exact packs_refl d s hv
  | succ k => exact (doesPack_groups d k).packs s t h

theorem groups_complete {d : Depth} {k : Nat} {s : State} (h : Ready d (6 * k) (3 * k) (3 * k) (16 * k) s) :
    ∃ t, repeatOp k (packGroup d) s = .next t := by
  cases k with
  | zero => exact ⟨s, rfl⟩
  | succ k => exact (doesPack_groups d k).completes s h

/-! ### The words written -/

/-- A sample away from the bytes an operation writes is the same before and after. -/
theorem Packs.sampleAt {d : Depth} {y u v o : Nat} {s t : State} (h : Packs d y u v o s t) (a : Addr)
    (ha : ∀ i < bps d, outside (a + BitVec.ofNat 64 i) s.work.dp o) : t.sampleAt d a = s.sampleAt d a :=
  sampleAt_congr d a fun i hi => h.bytes _ (ha i hi)

/-- A word away from the bytes an operation writes is the same before and after. -/
theorem Packs.loadLE {d : Depth} {y u v o : Nat} {s t : State} (h : Packs d y u v o s t) (n : Nat) (a : Addr)
    (ha : ∀ i < n, outside (a + BitVec.ofNat 64 i) s.work.dp o) : t.loadLE n a = s.loadLE n a :=
  loadLE_congr n a fun i hi => h.bytes _ (ha i hi)

/-- The samples and the output bytes of an operation do not meet (R75). -/
structure Apart (d : Depth) (y u v o : Nat) (s : State) : Prop where
  luma : ∀ i < y * bps d, outside (s.work.yp + BitVec.ofNat 64 i) s.work.dp o
  chromaU : ∀ i < u * bps d, outside (s.work.up + BitVec.ofNat 64 i) s.work.dp o
  chromaV : ∀ i < v * bps d, outside (s.work.vp + BitVec.ofNat 64 i) s.work.dp o

/-- How many samples of a source an operation reads. -/
def used (y u v : Nat) : Src → Nat
  | .y => y
  | .u => u
  | .v => v

theorem Apart.src {d : Depth} {y u v o : Nat} {s : State} (h : Apart d y u v o s) (c : Src) :
    ∀ i < used y u v c * bps d, outside (s.work.ptr c + BitVec.ofNat 64 i) s.work.dp o := by
  cases c <;> [exact h.luma; exact h.chromaU; exact h.chromaV]

theorem ptr_after (w : WorkRegs) (b y u v o : Nat) (c : Src) :
    (w.after b y u v o).ptr c = w.ptr c + BitVec.ofNat 64 (used y u v c * b) := by
  cases c <;> rfl

/-- The next field after an operation is a later field before it, if the operation did not write it. -/
theorem Packs.nextField {d : Depth} {y u v o : Nat} {s t : State} (h : Packs d y u v o s t) (c : Src) (i : Nat)
    (ha : ∀ j < bps d,
      outside (s.work.ptr c + BitVec.ofNat 64 ((used y u v c + i) * bps d) + BitVec.ofNat 64 j) s.work.dp o) :
    t.nextField d c i = s.nextField d c (used y u v c + i) := by
  have e : s.work.ptr c + BitVec.ofNat 64 (used y u v c * bps d) + BitVec.ofNat 64 (i * bps d)
      = s.work.ptr c + BitVec.ofNat 64 ((used y u v c + i) * bps d) := by
    rw [BitVec.add_assoc, ← BitVec.ofNat_add, Nat.add_mul]
  rw [State.nextField, State.nextField, h.work, ptr_after, e, h.sampleAt _ ha]

theorem Apart.nextField {d : Depth} {y u v o y' u' v' o' : Nat} {s t : State} (ap : Apart d y u v o s)
    (h : Packs d y' u' v' o' s t) (ho : o' ≤ o) (c : Src) (i : Nat) (hi : used y' u' v' c + i < used y u v c) :
    t.nextField d c i = s.nextField d c (used y' u' v' c + i) := by
  apply h.nextField
  intro j hj
  rw [BitVec.add_assoc, ← BitVec.ofNat_add]
  have h1 : (used y' u' v' c + i + 1) * bps d ≤ used y u v c * bps d := Nat.mul_le_mul_right _ hi
  have := ap.src c ((used y' u' v' c + i) * bps d + j) (by rw [Nat.add_mul _ 1, Nat.one_mul] at h1; omega)
  unfold outside at *
  omega

/-- The word a `WORD` with `VAL = 0` leaves at the old `DP` (R125). -/
theorem word_written {d : Depth} {p : Pat} {s t : State} (hv : s.work.val = 0) (h : packWord d p s = .next t) :
    t.loadLE 4 s.work.dp =
      packed (s.nextField d (patSample p .s0).1 (patSample p .s0).2)
        (s.nextField d (patSample p .s1).1 (patSample p .s1).2)
        (s.nextField d (patSample p .s2).1 (patSample p .s2).2) := by
  obtain ⟨-, rfl⟩ := packWord_next.mp h
  rw [loadLE_wordResult, toNat_wordValue d p s hv]

/-- Bytes before an operation's output stay. -/
theorem Packs.loadLE_before {d : Depth} {y u v o : Nat} {s t : State} (h : Packs d y u v o s t) (n k : Nat)
    (hn : n ≤ k) (hk : k + o ≤ 2 ^ 64) (base : Addr) (hb : s.work.dp = base + BitVec.ofNat 64 k) :
    t.loadLE n base = s.loadLE n base := by
  apply h.loadLE
  intro i hi
  unfold outside
  rw [hb]
  have : base + BitVec.ofNat 64 i - (base + BitVec.ofNat 64 k) = BitVec.ofNat 64 i - BitVec.ofNat 64 k := by
    ring
  rw [this, BitVec.toNat_sub, BitVec.toNat_ofNat, BitVec.toNat_ofNat]
  omega

/-- Packing from an empty accumulator leaves it empty (R134). -/
theorem Packs.val {d : Depth} {y u v o : Nat} {s t : State} (h : Packs d y u v o s t) : t.work.val = 0 := by
  rw [h.work]; rfl

theorem Packs.dp {d : Depth} {y u v o : Nat} {s t : State} (h : Packs d y u v o s t) :
    t.work.dp = s.work.dp + BitVec.ofNat 64 o := by
  rw [h.work]; rfl

/-- The four words of a group (R93). -/
structure GroupWords (d : Depth) (s t : State) : Prop where
  word1 : t.loadLE 4 s.work.dp = packed (s.nextField d .u 0) (s.nextField d .y 0) (s.nextField d .v 0)
  word2 : t.loadLE 4 (s.work.dp + BitVec.ofNat 64 4) =
    packed (s.nextField d .y 1) (s.nextField d .u 1) (s.nextField d .y 2)
  word3 : t.loadLE 4 (s.work.dp + BitVec.ofNat 64 8) =
    packed (s.nextField d .v 1) (s.nextField d .y 3) (s.nextField d .u 2)
  word4 : t.loadLE 4 (s.work.dp + BitVec.ofNat 64 12) =
    packed (s.nextField d .y 4) (s.nextField d .v 2) (s.nextField d .y 5)

theorem group_written {d : Depth} {s t : State} (hv : s.work.val = 0) (ap : Apart d 6 3 3 16 s)
    (h : packGroup d s = .next t) : GroupWords d s t := by
  obtain ⟨r1, h1, h⟩ := andThen_next.mp h
  obtain ⟨r2, h2, h⟩ := andThen_next.mp h
  obtain ⟨r3, h3, h4⟩ := andThen_next.mp h
  have p1 := packWord_packs h1
  have p2 := packWord_packs h2
  have p3 := packWord_packs h3
  have p4 := packWord_packs h4
  have q2 := p1.compose p2
  have q3 := q2.compose p3
  have w1 := word_written hv h1
  have w2 := word_written p1.val h2
  have w3 := word_written q2.val h3
  have w4 := word_written q3.val h4
  have d1 := p1.dp
  have d2 := q2.dp
  have d3 := q3.dp
  simp only [patUses, patSample] at *
  have n1 := fun c i hi => ap.nextField p1 (by omega) c i hi
  have n2 := fun c i hi => ap.nextField q2 (by omega) c i hi
  have n3 := fun c i hi => ap.nextField q3 (by omega) c i hi
  refine ⟨?_, ?_, ?_, ?_⟩
  · rw [p4.loadLE_before 4 12 (by omega) (by omega) _ d3, p3.loadLE_before 4 8 (by omega) (by omega) _ d2,
      p2.loadLE_before 4 4 (by omega) (by omega) _ d1, w1]
  · have e2 : r2.work.dp = (s.work.dp + BitVec.ofNat 64 4) + BitVec.ofNat 64 4 := by
      rw [d2, BitVec.add_assoc, ← BitVec.ofNat_add]
    have e3 : r3.work.dp = (s.work.dp + BitVec.ofNat 64 4) + BitVec.ofNat 64 8 := by
      rw [d3, BitVec.add_assoc, ← BitVec.ofNat_add]
    rw [p4.loadLE_before 4 8 (by omega) (by omega) _ e3, p3.loadLE_before 4 4 (by omega) (by omega) _ e2, ← d1, w2,
      n1 .y 0 (by decide), n1 .u 0 (by decide), n1 .y 1 (by decide)]
    rfl
  · have e3 : r3.work.dp = (s.work.dp + BitVec.ofNat 64 8) + BitVec.ofNat 64 4 := by
      rw [d3, BitVec.add_assoc, ← BitVec.ofNat_add]
    rw [p4.loadLE_before 4 4 (by omega) (by omega) _ e3]
    change r3.loadLE 4 (s.work.dp + BitVec.ofNat 64 (4 + 4)) = _
    rw [← d2, w3, n2 .v 0 (by decide), n2 .y 0 (by decide), n2 .u 0 (by decide)]
    rfl
  · change t.loadLE 4 (s.work.dp + BitVec.ofNat 64 (4 + 4 + 4)) = _
    rw [← d3, w4, n3 .y 0 (by decide), n3 .v 0 (by decide), n3 .y 1 (by decide)]
    rfl

/-- The one-component word (R91). -/
theorem word1_written {d : Depth} {s t : State} (hv : s.work.val = 0)
    (h : andThen (accumulate d .s0 .y) flushWord s = .next t) :
    t.loadLE 4 s.work.dp = packed (s.nextField d .y 0) 0 0 := by
  obtain ⟨r, hr, ht⟩ := andThen_next.mp h
  obtain ⟨-, rfl⟩ := accumulate_next.mp hr
  obtain ⟨-, rfl⟩ := flushWord_next.mp ht
  have := loadLE_flushResult (accResult d .s0 .y s)
  rw [accResult_dp] at this
  rw [this]
  simp only [accResult, State.setWork_work, WorkRegs.setVal_val, hv]
  rw [toNat_or_one]
  simp [State.nextField]

/-- The two-component word (R91). -/
theorem word2_written {d : Depth} {s t : State} (hv : s.work.val = 0)
    (h : andThen (accumulate d .s0 .v) (andThen (accumulate d .s1 .y) flushWord) s = .next t) :
    t.loadLE 4 s.work.dp = packed (s.nextField d .v 0) (s.nextField d .y 0) 0 := by
  obtain ⟨r, hr, h⟩ := andThen_next.mp h
  obtain ⟨q, hq, ht⟩ := andThen_next.mp h
  obtain ⟨-, rfl⟩ := accumulate_next.mp hr
  obtain ⟨-, rfl⟩ := accumulate_next.mp hq
  obtain ⟨-, rfl⟩ := flushWord_next.mp ht
  have := loadLE_flushResult (accResult d .s1 .y (accResult d .s0 .v s))
  rw [accResult_dp, accResult_dp] at this
  rw [this, accResult, sampleAt_accResult]
  simp only [accResult, State.setWork_work, WorkRegs.setVal_val, hv]
  rw [toNat_or_two]
  simp [State.nextField]

/-- The two words of `TAIL2` (R130). -/
theorem tail2_written {d : Depth} {s t : State} (hv : s.work.val = 0) (ap : Apart d 2 1 1 8 s)
    (h : execTail2 d s = .next t) :
    t.loadLE 4 s.work.dp = packed (s.nextField d .u 0) (s.nextField d .y 0) (s.nextField d .v 0) ∧
    t.loadLE 4 (s.work.dp + BitVec.ofNat 64 4) = packed (s.nextField d .y 1) 0 0 := by
  obtain ⟨r1, h1, h2⟩ := andThen_next.mp h
  have p1 := packWord_packs h1
  have p2 := (doesPack_word1 d).packs _ _ h2
  have w1 := word_written hv h1
  have w2 := word1_written p1.val h2
  have d1 := p1.dp
  simp only [patUses, patSample] at *
  refine ⟨?_, ?_⟩
  · rw [p2.loadLE_before 4 4 (by omega) (by omega) _ d1, w1]
  · rw [← d1, w2, ap.nextField p1 (by omega) .y 0 (by decide)]
    rfl

/-- The three words of `TAIL4` (R131). -/
theorem tail4_written {d : Depth} {s t : State} (hv : s.work.val = 0) (ap : Apart d 4 2 2 12 s)
    (h : execTail4 d s = .next t) :
    t.loadLE 4 s.work.dp = packed (s.nextField d .u 0) (s.nextField d .y 0) (s.nextField d .v 0) ∧
    t.loadLE 4 (s.work.dp + BitVec.ofNat 64 4) =
      packed (s.nextField d .y 1) (s.nextField d .u 1) (s.nextField d .y 2) ∧
    t.loadLE 4 (s.work.dp + BitVec.ofNat 64 8) = packed (s.nextField d .v 1) (s.nextField d .y 3) 0 := by
  obtain ⟨r1, h1, h⟩ := andThen_next.mp h
  obtain ⟨r2, h2, h3⟩ := andThen_next.mp h
  have p1 := packWord_packs h1
  have p2 := packWord_packs h2
  have p3 := (doesPack_word2 d).packs _ _ h3
  have q2 := p1.compose p2
  have w1 := word_written hv h1
  have w2 := word_written p1.val h2
  have w3 := word2_written q2.val h3
  have d1 := p1.dp
  have d2 := q2.dp
  simp only [patUses, patSample] at *
  refine ⟨?_, ?_, ?_⟩
  · rw [p3.loadLE_before 4 8 (by omega) (by omega) _ d2, p2.loadLE_before 4 4 (by omega) (by omega) _ d1, w1]
  · have e2 : r2.work.dp = (s.work.dp + BitVec.ofNat 64 4) + BitVec.ofNat 64 4 := by
      rw [d2, BitVec.add_assoc, ← BitVec.ofNat_add]
    rw [p3.loadLE_before 4 4 (by omega) (by omega) _ e2, ← d1, w2,
      ap.nextField p1 (by omega) .y 0 (by decide), ap.nextField p1 (by omega) .u 0 (by decide),
      ap.nextField p1 (by omega) .y 1 (by decide)]
    rfl
  · change t.loadLE 4 (s.work.dp + BitVec.ofNat 64 (4 + 4)) = _
    rw [← d2, w3, ap.nextField q2 (by omega) .v 0 (by decide), ap.nextField q2 (by omega) .y 0 (by decide)]
    rfl

end Sys2Proof.Machine
end

