-- ==== Sys2Proof/Laws/Steps.lean ====
section
/-! SUPPORT. What a step can do, said once: the outcomes of each instruction, of a register write, of a host action, of a
sequencer step, and of a step of the machine. Proofs about every step go through these and unfold nothing. -/

namespace Sys2Proof.Machine

/-! ### The row operations -/

/-- The state after `ROWSEL` (R162). -/
def rowselResult (s : State) : State :=
  if s.frame.fmt = 1 then
    if s.seq.row.toNat % 2 = 0 then s.setWork { s.work with uc := s.work.up, vc := s.work.vp }
    else s.setWork { s.work with up := s.work.uc, vp := s.work.vc }
  else s

/-- The two capture tests of R162 are one. -/
theorem captures_eq (ilace : Bool) (row : Nat) : captures ilace row = decide (row % 2 = 0) := by
  unfold captures
  split
  · rw [Bool.eq_iff_iff]; simp; omega
  · rfl

theorem execRowsel_eq (s : State) : execRowsel s = .next (rowselResult s) := by
  simp only [execRowsel, rowselResult, captures_eq]
  by_cases h1 : s.frame.fmt = 1 <;> by_cases h2 : s.seq.row.toNat % 2 = 0 <;> simp only [h1, h2] <;> rfl

theorem rowselResult_work_eq (s : State) : rowselResult s = s.setWork (rowselResult s).work := by
  unfold rowselResult
  split
  · split <;> rfl
  · rfl

/-- The state after `ROWADV` (R163). -/
def rowadvResult (s : State) : State :=
  (s.setWork
    { s.work with
      yp := nextRow s.work.yp s.frame.yStride (lumaRowBytes s.frame)
      up := nextRow s.work.up s.frame.uStride (chromaRowBytes s.frame)
      vp := nextRow s.work.vp s.frame.vStride (chromaRowBytes s.frame) }).setSeq
    { s.seq with row := s.seq.row + 1 }

theorem execRowadv_eq (s : State) : execRowadv s = .next (rowadvResult s) := rfl

/-! ### Every instruction -/

/-- The operation answers a next state or the one fault (R76); it is never refused. -/
def NextOrFault (f : Op) : Prop := ∀ s, (∃ t, f s = .next t) ∨ f s = .fault .memNotProvided

theorem NextOrFault.compose {f g : Op} (hf : NextOrFault f) (hg : NextOrFault g) : NextOrFault (andThen f g) := by
  intro s
  rcases hf s with ⟨t, h⟩ | h
  · simpa only [andThen, h] using hg t
  · exact .inr (by simp only [andThen, h])

theorem nextOrFault_accumulate (d : Depth) (slot : Slot) (c : Src) : NextOrFault (accumulate d slot c) := by
  intro s
  rw [accumulate_eq]
  split <;> simp

theorem nextOrFault_flushWord : NextOrFault flushWord := by
  intro s
  rw [flushWord_eq]
  split <;> simp

theorem nextOrFault_packWord (d : Depth) (p : Pat) : NextOrFault (packWord d p) :=
  (nextOrFault_accumulate _ _ _).compose ((nextOrFault_accumulate _ _ _).compose ((nextOrFault_accumulate _ _ _).compose
    nextOrFault_flushWord))

theorem nextOrFault_packGroup (d : Depth) : NextOrFault (packGroup d) :=
  (nextOrFault_packWord _ _).compose ((nextOrFault_packWord _ _).compose ((nextOrFault_packWord _ _).compose
    (nextOrFault_packWord _ _)))

theorem nextOrFault_repeat {f : Op} (hf : NextOrFault f) (n : Nat) : NextOrFault (repeatOp n f) := by
  induction n with
  | zero => exact fun s => .inl ⟨s, rfl⟩
  | succ n ih => exact hf.compose ih

theorem execBulk_legal {d : Depth} {n : Nat} {s : State} (h : n % groupSize s.variant d = 0) :
    execBulk d n s = repeatOp (n / 6) (packGroup d) s := by
  rw [execBulk, if_neg (by simpa using h)]

theorem execBulk_illegal {d : Depth} {n : Nat} {s : State} (h : n % groupSize s.variant d ≠ 0) :
    execBulk d n s = .next (raiseErr .illCmd s) := by
  rw [execBulk, if_pos h]

theorem groupSize_dvd (v : Variant) (d : Depth) : 6 ∣ groupSize v d := by
  cases d <;> simp only [groupSize] <;> omega

/-- A legal count is a whole number of groups (R128). -/
theorem legal_count {v : Variant} {d : Depth} {n : Nat} (h : n % groupSize v d = 0) : n % 6 = 0 :=
  Nat.mod_eq_zero_of_dvd ((groupSize_dvd v d).trans (Nat.dvd_of_mod_eq_zero h))

/-! ### What every micro-operation keeps -/

/-- Everything but the working registers and memory is kept; memory keeps its form; `VAL[31:30]` stays 0. -/
structure OpKeeps (s t : State) : Prop where
  rest : KeepsRest s t
  wf : Memory.wf s.mem → Memory.wf t.mem
  valPad : s.work.val.toNat < 2 ^ 30 → t.work.val.toNat < 2 ^ 30

theorem OpKeeps.rfl' (s : State) : OpKeeps s s := ⟨KeepsRest.rfl' s, id, id⟩

theorem Packs.keeps {d : Depth} {y u v o : Nat} {s t : State} (h : Packs d y u v o s t) : OpKeeps s t :=
  ⟨h.rest, h.wf, fun _ => by rw [h.val]; decide⟩

theorem accResult_keeps (d : Depth) (slot : Slot) (c : Src) (s : State) : OpKeeps s (accResult d slot c s) where
  rest := keepsRest_setWork s _
  wf := id
  valPad h := by
    have := slotValue_lt d slot (s.sampleAt d (s.work.ptr c))
    simp only [accResult, State.setWork_work, WorkRegs.setVal_val, BitVec.toNat_or, BitVec.toNat_ofNat]
    exact Nat.or_lt_two_pow h (by omega)

theorem zfillResult_keeps (n : Nat) (s : State) : OpKeeps s (zfillResult n s) where
  rest := (keepsRest_setMem s _).trans' (keepsRest_setWork _ _)
  wf := wf_storeZeros _ _ _
  valPad := id

theorem rowselResult_keeps (s : State) : OpKeeps s (rowselResult s) where
  rest := by rw [rowselResult_work_eq]; exact keepsRest_setWork s _
  wf h := by rw [rowselResult_work_eq]; exact h
  valPad h := by
    unfold rowselResult
    split
    · split <;> exact h
    · exact h

theorem groups_keep {d : Depth} {k : Nat} {s t : State} (h : repeatOp k (packGroup d) s = .next t) : OpKeeps s t := by
  cases k with
  | zero =>
    obtain rfl : s = t := by simpa [repeatOp] using h
    exact OpKeeps.rfl' s
  | succ k => exact ((doesPack_groups d k).packs s t h).keeps

/-- Every next state of a micro-operation: a refused `BULK`, the next row, or a state that keeps all but the working
registers and memory. -/
theorem microOp_cases {i : Instr} {s t : State} (hp : i.port = .cmd) (h : exec i s = .next t) :
    (∃ d n, i = .bulk d n ∧ n % groupSize s.variant d ≠ 0 ∧ t = raiseErr .illCmd s) ∨
    (i = .rowadv ∧ t = rowadvResult s) ∨ (i ≠ .rowadv ∧ OpKeeps s t) := by
  cases i with
  | nop =>
    obtain rfl : s = t := by simpa [exec, execNop] using h
    exact .inr (.inr ⟨by simp, OpKeeps.rfl' s⟩)
  | acc d slot c =>
    obtain ⟨-, rfl⟩ := accumulate_next.mp h
    exact .inr (.inr ⟨by simp, accResult_keeps d slot c s⟩)
  | flush =>
    obtain ⟨-, rfl⟩ := flushWord_next.mp h
    exact .inr (.inr ⟨by simp, (packs_flushResult .d8 s).keeps⟩)
  | word d p => exact .inr (.inr ⟨by simp, (packWord_packs h).keeps⟩)
  | group d => exact .inr (.inr ⟨by simp, ((doesPack_group d).packs s t h).keeps⟩)
  | bulk d n =>
    by_cases hn : n % groupSize s.variant d = 0
    · exact .inr (.inr ⟨by simp, groups_keep ((execBulk_legal hn).symm.trans h)⟩)
    · refine .inl ⟨d, n, rfl, hn, ?_⟩
      simpa using ((execBulk_illegal hn).symm.trans h).symm
  | tail2 d => exact .inr (.inr ⟨by simp, ((doesPack_tail2 d).packs s t h).keeps⟩)
  | tail4 d => exact .inr (.inr ⟨by simp, ((doesPack_tail4 d).packs s t h).keeps⟩)
  | zfill n =>
    obtain ⟨-, rfl⟩ := execZfill_next.mp h
    exact .inr (.inr ⟨by simp, zfillResult_keeps n s⟩)
  | rowsel =>
    obtain rfl : rowselResult s = t := by simpa using (execRowsel_eq s).symm.trans h
    exact .inr (.inr ⟨by simp, rowselResult_keeps s⟩)
  | rowadv =>
    obtain rfl : rowadvResult s = t := by simpa using (execRowadv_eq s).symm.trans h
    exact .inr (.inl ⟨rfl, rfl⟩)
  | init => simp [Instr.port] at hp
  | start => simp [Instr.port] at hp
  | ack => simp [Instr.port] at hp

/-- No instruction stops but for memory that is not provided (R76). -/
theorem exec_next_or_fault (i : Instr) : NextOrFault (exec i) := by
  cases i with
  | nop => exact fun s => .inl ⟨s, rfl⟩
  | acc d slot c => exact nextOrFault_accumulate d slot c
  | flush => exact nextOrFault_flushWord
  | word d p => exact nextOrFault_packWord d p
  | group d => exact nextOrFault_packGroup d
  | bulk d n =>
    intro s
    by_cases h : n % groupSize s.variant d = 0
    · have := nextOrFault_repeat (nextOrFault_packGroup d) (n / 6) s
      rwa [← execBulk_legal h] at this
    · exact .inl ⟨_, execBulk_illegal h⟩
  | tail2 d =>
    exact (nextOrFault_packWord _ _).compose ((nextOrFault_accumulate _ _ _).compose nextOrFault_flushWord)
  | tail4 d =>
    exact (nextOrFault_packWord _ _).compose ((nextOrFault_packWord _ _).compose
      ((nextOrFault_accumulate _ _ _).compose ((nextOrFault_accumulate _ _ _).compose nextOrFault_flushWord)))
  | zfill n =>
    intro s
    change (∃ t, execZfill n s = .next t) ∨ execZfill n s = .fault .memNotProvided
    rw [execZfill_eq]
    split <;> simp
  | rowsel => exact fun s => .inl ⟨_, execRowsel_eq s⟩
  | rowadv => exact fun s => .inl ⟨_, execRowadv_eq s⟩
  | init =>
    intro s
    change (∃ t, execInit s = .next t) ∨ execInit s = .fault .memNotProvided
    unfold execInit
    refine .inl ?_
    split
    · exact ⟨_, rfl⟩
    · dsimp only
      split
      · exact ⟨_, rfl⟩
      · split <;> exact ⟨_, rfl⟩
  | start =>
    intro s
    change (∃ t, execStart s = .next t) ∨ execStart s = .fault .memNotProvided
    unfold execStart
    refine .inl ?_
    split
    · exact ⟨_, rfl⟩
    · dsimp only
      split <;> exact ⟨_, rfl⟩
  | ack =>
    intro s
    change (∃ t, execAck s = .next t) ∨ execAck s = .fault .memNotProvided
    unfold execAck
    refine .inl ?_
    split <;> exact ⟨_, rfl⟩

/-! ### The host commands -/

/-- Every outcome of `INIT` (R164). -/
theorem init_cases {s t : State} (h : exec .init s = .next t) :
    (s.flags.st = .busy ∧ t = raiseErr .hostProtocol s) ∨
    (s.flags.st ≠ .busy ∧ s.frame.width.toNat % 2 = 1 ∧ t = s.setFlags ⟨.unconf, false, true, .cfgOddWidth, s.flags.ie⟩) ∨
    (s.flags.st ≠ .busy ∧ s.frame.width.toNat % 2 = 0 ∧ s.frame.fmt = 3 ∧
      t = s.setFlags ⟨.unconf, false, true, .cfgBadFormat, s.flags.ie⟩) ∨
    (s.flags.st ≠ .busy ∧ s.frame.width.toNat % 2 = 0 ∧ s.frame.fmt ≠ 3 ∧
      t = ((s.setDerived (deriveRegs s.frame.width.toNat s.frame.height.toNat)).setWork (s.work.setVal 0)
        |>.setSeq ⟨0, .chk, 0⟩).setFlags ⟨.ready, false, false, .none, s.flags.ie⟩) := by
  change execInit s = .next t at h
  unfold execInit at h
  by_cases h1 : s.flags.st = .busy
  · rw [if_pos h1] at h
    exact .inl ⟨h1, by simpa using h.symm⟩
  · rw [if_neg h1] at h
    dsimp only at h
    by_cases h2 : s.frame.width.toNat % 2 = 1
    · rw [if_pos h2] at h
      exact .inr (.inl ⟨h1, h2, (Host.Outcome.next.inj h).symm⟩)
    · rw [if_neg h2] at h
      by_cases h3 : s.frame.fmt = 3
      · rw [if_pos h3] at h
        exact .inr (.inr (.inl ⟨h1, by omega, h3, (Host.Outcome.next.inj h).symm⟩))
      · rw [if_neg h3] at h
        exact .inr (.inr (.inr ⟨h1, by omega, h3, (Host.Outcome.next.inj h).symm⟩))

/-- Every outcome of `START` (R165). -/
theorem start_cases {s t : State} (h : exec .start s = .next t) :
    (s.flags.st ≠ .ready ∧ t = raiseErr .hostProtocol s) ∨
    (s.flags.st = .ready ∧ s.frame.dstSize.toNat < s.derived.frameSize.toNat ∧
      t = s.setFlags ⟨.ready, false, true, .resNoBuffer, s.flags.ie⟩) ∨
    (s.flags.st = .ready ∧ s.derived.frameSize.toNat ≤ s.frame.dstSize.toNat ∧
      t = ((s.setWork ⟨s.frame.yBase, s.frame.uBase, s.frame.vBase, s.frame.dstBase, s.work.uc, s.work.vc, 0⟩).setSeq
        ⟨0, .chk, 0⟩).setFlags ⟨.busy, false, false, .none, s.flags.ie⟩) := by
  change execStart s = .next t at h
  unfold execStart at h
  by_cases h1 : s.flags.st = .ready
  · rw [if_neg (by simpa using h1)] at h
    dsimp only at h
    by_cases h2 : s.derived.frameSize.toNat > s.frame.dstSize.toNat
    · rw [if_pos h2] at h
      refine .inr (.inl ⟨h1, h2, ?_⟩)
      have : t = raiseErr .resNoBuffer (clearFlags s) := by simpa using h.symm
      rw [this, ← h1]
      rfl
    · rw [if_neg h2] at h
      exact .inr (.inr ⟨h1, by omega, (Host.Outcome.next.inj h).symm⟩)
  · rw [if_pos h1] at h
    exact .inl ⟨h1, by simpa using h.symm⟩

/-- Every outcome of `ACK` (R166). -/
theorem ack_cases {s t : State} (h : exec .ack s = .next t) :
    (s.flags.st = .busy ∧ t = raiseErr .hostProtocol s) ∨
    (s.flags.st ≠ .busy ∧ t = s.setFlags ⟨s.flags.st, false, false, .none, s.flags.ie⟩) := by
  change execAck s = .next t at h
  unfold execAck at h
  by_cases h1 : s.flags.st = .busy
  · rw [if_pos h1] at h
    exact .inl ⟨h1, by simpa using h.symm⟩
  · rw [if_neg h1] at h
    exact .inr ⟨h1, (Host.Outcome.next.inj h).symm⟩

/-! ### Register writes -/

/-- Every outcome of a register write (R47, R50, R167, R168): a refusal that takes an error, an instruction, or an accepted
store. -/
theorem writeOffset_cases {o : Nat} {v : Word32} {s t : State} (h : writeOffset o v s = .next t) :
    (t = raiseErr .hostProtocol s ∨ t = raiseErr .illCmd s) ∨
    (∃ i, exec i s = .next t ∧ (i.port = .cmd → s.flags.st = .ready)) ∨
    (t = Reg.put v s .inten) ∨
    (∃ r, r.cls = .setup ∧ s.flags.st ≠ .busy ∧ t = setSt .unconf (Reg.put v s r)) ∨
    (∃ r, (r.cls = .perFrame ∨ r.cls = .working) ∧ s.flags.st ≠ .busy ∧ t = Reg.put v s r) := by
  unfold writeOffset at h
  split at h
  · rename_i r hr
    unfold writeReg at h
    split at h
    · rename_i hc
      have : r = .inten := by cases r <;> simp [Reg.cls] at hc ⊢
      subst this
      exact .inr (.inr (.inl (by simpa using h.symm)))
    · rename_i hc
      unfold writeSetup at h
      split at h
      · exact .inl (.inl (by simpa using h.symm))
      · rename_i hb
        exact .inr (.inr (.inr (.inl ⟨r, hc, hb, by simpa using h.symm⟩)))
    · rename_i hc
      unfold writeUnlessBusy at h
      split at h
      · exact .inl (.inl (by simpa using h.symm))
      · rename_i hb
        exact .inr (.inr (.inr (.inr ⟨r, .inl hc, hb, by simpa using h.symm⟩)))
    · rename_i hc
      unfold writeUnlessBusy at h
      split at h
      · exact .inl (.inl (by simpa using h.symm))
      · rename_i hb
        exact .inr (.inr (.inr (.inr ⟨r, .inr hc, hb, by simpa using h.symm⟩)))
    · split at h
      · unfold writeCtrl at h
        split at h
        · rename_i i hi
          refine .inr (.inl ⟨i, h, fun hp => ?_⟩)
          unfold decodeCtrl at hi
          split at hi
          · cases hi; simp [Instr.port] at hp
          · split at hi
            · cases hi; simp [Instr.port] at hp
            · split at hi
              · cases hi; simp [Instr.port] at hp
              · cases hi
        · exact .inl (.inr (by simpa using h.symm))
      · unfold writeCmd at h
        split at h
        · exact .inl (.inl (by simpa using h.symm))
        · rename_i hst
          split at h
          · rename_i i hi
            exact .inr (.inl ⟨i, h, fun _ => by simpa using hst⟩)
          · exact .inl (.inr (by simpa using h.symm))
    · exact .inl (.inl (by simpa using h.symm))
  · exact .inl (.inl (by simpa using h.symm))

/-- A register that an accepted write stores into lies in one group of State (R47). -/
theorem put_cases (v : Word32) (s : State) {r : Reg}
    (h : r.cls = .setup ∨ r.cls = .perFrame ∨ r.cls = .working) :
    (∃ f, Reg.put v s r = s.setFrame f ∧
      (r.cls ≠ .setup → f.fmt = s.frame.fmt ∧ f.width = s.frame.width ∧ f.height = s.frame.height)) ∨
    (∃ w, Reg.put v s r = s.setWork w ∧ w.val = s.work.val) ∨
    (∃ b, Reg.put v s r = s.setSeq { s.seq with row := b }) := by
  cases r <;> simp only [Reg.cls, reduceCtorEq, or_false, or_self, false_or] at h <;>
    first
    | exact .inl ⟨_, rfl, fun h => absurd rfl h⟩
    | exact .inl ⟨_, rfl, fun _ => ⟨rfl, rfl, rfl⟩⟩
    | exact .inr (.inl ⟨_, rfl, rfl⟩)
    | exact .inr (.inr ⟨_, rfl⟩)

/-! ### Host actions and the machine's step -/

theorem due_step {s : State} {a : HostAct} {r : State} (h : Due s a r) : step s = hostAct a r := by
  obtain ⟨k, rest, hi, ht, rfl⟩ := h
  simp only [step, takeTurn, hi]
  rcases ht with h | h <;> simp [h]

/-- The state a due action meets differs in the list of inputs alone. -/
theorem Due.inputs {s : State} {a : HostAct} {r : State} (h : Due s a r) : ∃ rest, r = s.setInputs rest := by
  obtain ⟨k, rest, -, -, rfl⟩ := h
  exact ⟨rest, rfl⟩

/-- A step is a due host action, or a step of the block from the state with some list of inputs (R169). -/
theorem step_cases (s : State) :
    (∃ a r, Due s a r ∧ step s = hostAct a r) ∨
    (∃ l, step s = blockStep (s.setInputs l) ∧ ∀ a r, ¬ Due s a r) := by
  cases hi : s.inputs with
  | nil =>
    refine .inr ⟨[], ?_, ?_⟩
    · have := State.setInputs_self s
      rw [hi] at this
      rw [this]
      simp only [step, takeTurn, hi]
    · rintro a r ⟨k, rest, h, -⟩
      simp [hi] at h
  | cons e rest =>
    by_cases hd : e.after = 0 ∨ s.flags.st ≠ .busy
    · have : Due s e.act (s.setInputs rest) := ⟨e.after, rest, hi, hd, rfl⟩
      exact .inl ⟨_, _, this, due_step this⟩
    · refine .inr ⟨{ e with after := e.after - 1 } :: rest, ?_, ?_⟩
      · have hb : (decide (e.after = 0) || decide (s.flags.st ≠ .busy)) = false := by
          simpa using hd
        simp only [step, takeTurn, hi, hb]
        simp
      · rintro a r ⟨k, rest', h, ht, -⟩
        rw [hi] at h
        injection h with h1 h2
        subst h1
        exact hd ht

theorem step_quiet {s : State} (h : s.inputs = []) : step s = blockStep s := by
  simp only [step, takeTurn, h]

theorem step_busy {s : State} (h : s.inputs = []) (hb : s.flags.st = .busy) : step s = seqStep s := by
  rw [step_quiet h, blockStep, if_pos hb]

/-! ### The sequencer -/

theorem issue_next {i : Instr} {f : SeqPos → SeqPos} {s t : State} :
    issue i f s = .next t ↔ ∃ r, exec i s = .next r ∧ t = r.setSeq (f r.seq) := by
  rw [issue, andThen_next]
  constructor
  · rintro ⟨r, h, ht⟩
    exact ⟨r, h, by simpa using ht.symm⟩
  · rintro ⟨r, h, rfl⟩
    exact ⟨r, h, rfl⟩

/-- `n` of R172 is a legal count. -/
theorem bulkCount_legal (s : State) : bulkCount s % groupSize s.variant (depthOfFmt s.frame.fmt) = 0 :=
  Nat.mul_mod_left _ _

theorem bulkCount_le (s : State) : bulkCount s ≤ s.frame.width.toNat := Nat.div_mul_le_self _ _

theorem bulkCount_mod (s : State) : bulkCount s % 6 = 0 := legal_count (bulkCount_legal s)

/-- Every next state of a sequencer step (R170 to R176). -/
theorem seqStep_cases {s t : State} (h : seqStep s = .next t) :
    (s.seq.phase = .chk ∧ s.seq.row = s.frame.height ∧ t = s.setFlags { s.flags with st := .ready, done := true }) ∨
    (s.seq.phase = .chk ∧ s.seq.row ≠ s.frame.height ∧ t = s.setSeq (toPhase .sel s.seq)) ∨
    (s.seq.phase = .sel ∧ t = (rowselResult s).setSeq (toPhase .bulk s.seq)) ∨
    (s.seq.phase = .bulk ∧ ∃ r, repeatOp (bulkCount s / 6) (packGroup (depthOfFmt s.frame.fmt)) s = .next r ∧
      t = r.setSeq { s.seq with col := BitVec.ofNat 16 (bulkCount s), phase := .grp }) ∨
    (s.seq.phase = .grp ∧ s.seq.col.toNat + 6 ≤ s.frame.width.toNat ∧
      ∃ r, packGroup (depthOfFmt s.frame.fmt) s = .next r ∧ t = r.setSeq (addCol 6 s.seq)) ∨
    (s.seq.phase = .grp ∧ s.frame.width.toNat < s.seq.col.toNat + 6 ∧ t = s.setSeq (toPhase .tail s.seq)) ∨
    (s.seq.phase = .tail ∧ s.frame.width.toNat - s.seq.col.toNat = 2 ∧
      ∃ r, execTail2 (depthOfFmt s.frame.fmt) s = .next r ∧ t = r.setSeq (toPhase .fill (addCol 2 s.seq))) ∨
    (s.seq.phase = .tail ∧ s.frame.width.toNat - s.seq.col.toNat = 4 ∧
      ∃ r, execTail4 (depthOfFmt s.frame.fmt) s = .next r ∧ t = r.setSeq (toPhase .fill (addCol 4 s.seq))) ∨
    (s.seq.phase = .tail ∧ s.frame.width.toNat - s.seq.col.toNat ≠ 2 ∧ s.frame.width.toNat - s.seq.col.toNat ≠ 4 ∧
      t = s.setSeq (toPhase .fill s.seq)) ∨
    (s.seq.phase = .fill ∧ s.writable s.work.dp s.derived.linePad.toNat = true ∧
      t = (zfillResult s.derived.linePad.toNat s).setSeq (toPhase .adv s.seq)) ∨
    (s.seq.phase = .adv ∧ t = (rowadvResult s).setSeq ⟨s.seq.row + 1, .chk, 0⟩) := by
  unfold seqStep at h
  cases hp : s.seq.phase with
  | chk =>
    simp only [hp, phaseChk] at h
    split at h
    · rename_i hr
      exact .inl ⟨rfl, hr, by simpa using h.symm⟩
    · rename_i hr
      exact .inr (.inl ⟨rfl, hr, by simpa using h.symm⟩)
  | sel =>
    simp only [hp, phaseSel] at h
    obtain ⟨r, hr, rfl⟩ := issue_next.mp h
    obtain rfl : rowselResult s = r := by simpa using (execRowsel_eq s).symm.trans hr
    refine .inr (.inr (.inl ⟨rfl, ?_⟩))
    rw [(rowselResult_keeps s).rest.seq]
  | bulk =>
    simp only [hp, phaseBulk] at h
    obtain ⟨r, hr, rfl⟩ := issue_next.mp h
    have hr := (execBulk_legal (bulkCount_legal s)).symm.trans hr
    refine .inr (.inr (.inr (.inl ⟨rfl, r, hr, ?_⟩)))
    rw [(groups_keep hr).rest.seq]
  | grp =>
    simp only [hp, phaseGrp] at h
    split at h
    · rename_i hc
      obtain ⟨r, hr, rfl⟩ := issue_next.mp h
      refine .inr (.inr (.inr (.inr (.inl ⟨rfl, hc, r, hr, ?_⟩))))
      rw [((doesPack_group _).packs s r hr).rest.seq]
    · rename_i hc
      exact .inr (.inr (.inr (.inr (.inr (.inl ⟨rfl, by omega, by simpa using h.symm⟩)))))
  | tail =>
    simp only [hp, phaseTail] at h
    split at h
    · rename_i hc
      obtain ⟨r, hr, rfl⟩ := issue_next.mp h
      refine .inr (.inr (.inr (.inr (.inr (.inr (.inl ⟨rfl, hc, r, hr, ?_⟩))))))
      rw [((doesPack_tail2 _).packs s r hr).rest.seq]
    · split at h
      · rename_i hc
        obtain ⟨r, hr, rfl⟩ := issue_next.mp h
        refine .inr (.inr (.inr (.inr (.inr (.inr (.inr (.inl ⟨rfl, hc, r, hr, ?_⟩)))))))
        rw [((doesPack_tail4 _).packs s r hr).rest.seq]
      · rename_i h2 h4
        exact .inr (.inr (.inr (.inr (.inr (.inr (.inr (.inr (.inl ⟨rfl, h2, h4, by simpa using h.symm⟩))))))))
  | fill =>
    simp only [hp, phaseFill] at h
    obtain ⟨r, hr, rfl⟩ := issue_next.mp h
    obtain ⟨hw, rfl⟩ := execZfill_next.mp hr
    exact .inr (.inr (.inr (.inr (.inr (.inr (.inr (.inr (.inr (.inl ⟨rfl, hw, rfl⟩)))))))))
  | adv =>
    simp only [hp, phaseAdv] at h
    obtain ⟨r, hr, rfl⟩ := issue_next.mp h
    obtain rfl : rowadvResult s = r := by simpa using (execRowadv_eq s).symm.trans hr
    exact .inr (.inr (.inr (.inr (.inr (.inr (.inr (.inr (.inr (.inr ⟨rfl, rfl⟩)))))))))

end Sys2Proof.Machine
end

