-- ==== Sys2Proof/Laws/Invariant.lean ====
section
/-! SUPPORT. What each part of a step keeps: the invariant of the state under each kind of action, the fields no action of a
kind touches, how an error is taken, and what a host action can do to a running block. -/

namespace Sys2Proof.Machine

/-! ### The invariant -/

/-- States that agree on what the invariant speaks of meet it together. -/
theorem inv_congr {s t : State} (hi : StateInv s) (hw : t.work.val = s.work.val) (hs : t.seq = s.seq) (hf : t.flags = s.flags)
  (hfr : t.frame = s.frame) (hd : t.derived = s.derived) (hv : t.variant = s.variant) (hm : Memory.wf t.mem) : StateInv t where
  memWf := hm
  factors := hv ▸ hi.factors
  errCode := hf ▸ hi.errCode
  valPad := hw ▸ hi.valPad
  setup h := by
    obtain ⟨a, b, c, d, e⟩ := hi.setup (hf ▸ h)
    exact ⟨hfr ▸ a, hfr ▸ b, by rw [hfr, hd]; exact c, by rw [hfr, hd]; exact d, by rw [hfr, hd]; exact e⟩
  run h := by
    obtain ⟨a, b, c⟩ := hi.run (hf ▸ h)
    exact ⟨by rw [hfr, hd]; exact a, hw ▸ b, by unfold PositionOk at *; rw [hs, hfr]; exact c⟩

/-- The invariant of a state with no run in progress. -/
theorem inv_idle {t : State} (hm : Memory.wf t.mem) (hv : 1 ≤ t.variant.sf8.toNat ∧ 1 ≤ t.variant.sf10.toNat)
   (he : t.flags.err = true ↔ t.flags.errcode ≠ .none) (hp : t.work.val.toNat < 2 ^ 30) (hs : t.flags.st ≠ .unconf → SetupValid t)
   (hb : t.flags.st ≠ .busy) : StateInv t := ⟨hm, hv, he, hp, hs, fun h => absurd h hb⟩

/-- A valid setup depends on the width, the height, the format and the derived registers alone. -/
theorem SetupValid.congr {s t : State} (h : SetupValid s) (hw : t.frame.width = s.frame.width) (hh : t.frame.height = s.frame.height)
  (hf : t.frame.fmt = s.frame.fmt) (hd : t.derived = s.derived) : SetupValid t := by
  obtain ⟨a, b, c, d, e⟩ := h
  exact ⟨hw ▸ a, hf ▸ b, by rw [hw, hd]; exact c, by rw [hw, hd]; exact d, by rw [hw, hh, hd]; exact e⟩

/-- Taking an error keeps the invariant. -/
theorem inv_raise {s : State} {c : ErrCode} (hc : c ≠ .none) (hi : StateInv s) : StateInv (raiseErr c s) where
  memWf := hi.memWf
  factors := hi.factors
  errCode := by
    by_cases h : s.flags.err = true
    · rw [raiseErr_of_err _ _ h]; exact hi.errCode
    · simp [raiseErr, raiseFlags, h, hc]
  valPad := hi.valPad
  setup h := (hi.setup (by simpa using h)).congr rfl rfl rfl rfl
  run h := by
    obtain ⟨a, b, c⟩ := hi.run (by simpa using h)
    exact ⟨a, b, c⟩

/-- The derived registers hold the values of the formulas: none is too wide for its register (R45). -/
theorem toNat_derive (w h : BitVec 16) (he : w.toNat % 2 = 0) :
   (deriveRegs w.toNat h.toNat).lineStride.toNat = lineStrideOf w.toNat ∧ 
   (deriveRegs w.toNat h.toNat).linePad.toNat = linePadOf w.toNat ∧
   (deriveRegs w.toNat h.toNat).frameSize.toNat = frameSizeOf w.toNat h.toNat := by
  have h1 := lineStrideOf_lt w.toNat w.isLt
  have h2 := linePadOf_le w.toNat he
  have h3 := frameSizeOf_lt _ _ w.isLt h.isLt
  simp only [deriveRegs, BitVec.toNat_ofNat]
  omega

/-- An instruction keeps the invariant where its command port accepts it. -/
theorem inv_exec {i : Instr} {s t : State} (hi : StateInv s) (hp : i.port = .cmd → s.flags.st = .ready) (h : exec i s = .next t) : StateInv t := by
  by_cases hc : i.port = .cmd
  · have hr := hp hc
    rcases microOp_cases hc h with ⟨d, n, rfl, hn, rfl⟩ | ⟨rfl, rfl⟩ | ⟨-, hk⟩
    · exact inv_raise (by simp) hi
    · exact inv_idle hi.memWf hi.factors hi.errCode hi.valPad (fun h => (hi.setup h).congr rfl rfl rfl rfl) (by show s.flags.st ≠ _; simp [hr])
    · obtain ⟨h1, h2, h3, h4, h5, h6, h7, h8, h9⟩ := hk.rest
      refine inv_idle (hk.wf hi.memWf) (h5 ▸ hi.factors) (h2 ▸ hi.errCode) (hk.valPad hi.valPad) (fun h => (hi.setup (h2 ▸ h)).congr ?_ ?_ ?_ h4) (by rw [h2, hr]; simp) <;> rw [h3]
  · cases i <;> simp only [Instr.port, not_true_eq_false] at hc
    · rcases init_cases h with ⟨-, rfl⟩ | ⟨-, -, rfl⟩ | ⟨-, -, -, rfl⟩ | ⟨-, he, hf, rfl⟩
      · exact inv_raise (by simp) hi
      · exact inv_idle hi.memWf hi.factors (by simp) hi.valPad (by simp) (by simp)
      · exact inv_idle hi.memWf hi.factors (by simp) hi.valPad (by simp) (by simp)
      · have hd := toNat_derive s.frame.width s.frame.height he
        exact inv_idle hi.memWf hi.factors (by simp) (by simp) (fun _ => ⟨he, hf, hd.1, hd.2.1, hd.2.2⟩) (by simp)
    · rcases start_cases h with ⟨-, rfl⟩ | ⟨hr, -, rfl⟩ | ⟨hr, hs, rfl⟩
      · exact inv_raise (by simp) hi
      · exact inv_idle hi.memWf hi.factors (by simp) hi.valPad (fun _ => (hi.setup (by simp [hr])).congr rfl rfl rfl rfl) (by simp)
      · exact ⟨hi.memWf, hi.factors, by simp, by simp, fun _ => (hi.setup (by simp [hr])).congr rfl rfl rfl rfl,
          fun _ => ⟨hs, rfl, by simp [PositionOk]⟩⟩
    · rcases ack_cases h with ⟨-, rfl⟩ | ⟨hb, rfl⟩
      · exact inv_raise (by simp) hi
      · exact inv_idle hi.memWf hi.factors (by simp) hi.valPad (fun h => (hi.setup h).congr rfl rfl rfl rfl) hb

/-- Free bytes keep the canonical form of the memory. -/
theorem wf_storeFree (c n i : Nat) (a : Addr) (m : Memory) (h : Memory.wf m) : Memory.wf (storeFree c n i a m) := by
  induction n generalizing i a m with
  | zero => exact h
  | succ n ih => exact ih _ _ _ (Memory.wf_write _ _ _ a.isLt h)

/-- Free bytes change no byte outside their range. -/
theorem byteAt_storeFree (c n i : Nat) (a : Addr) (s : State) (x : Addr) (hx : n ≤ (x - a).toNat) :
    (s.setMem (storeFree c n i a s.mem)).byteAt x = s.byteAt x := by
  induction n generalizing i a s with
  | zero => rfl
  | succ n ih =>
    have hrec := ih (i + 1) (a + 1) (s.setMem (Memory.write s.mem a.toNat (Config.freeByte c i)))
    simp only [State.setMem_mem, State.setMem_setMem] at hrec
    have h1 : (x - (a + 1)).toNat = (x - a).toNat - 1 := sub_add_ofNat x a 1 (by omega)
    rw [storeFree, hrec (by omega), byteAt_setMem_write]
    rw [if_neg]
    rintro rfl
    simp at hx

/-- A host action keeps the invariant. -/
theorem inv_hostAct {a : HostAct} {s t : State} (hi : StateInv s) (h : hostAct a s = .next t) : StateInv t := by
  cases a with
  | write slot v =>
    rcases writeOffset_cases h with (rfl | rfl) | ⟨i, hx, hp⟩ | rfl | ⟨r, hc, hb, rfl⟩ | ⟨r, hc, hb, rfl⟩
    · exact inv_raise (by simp) hi
    · exact inv_raise (by simp) hi
    · exact inv_exec hi hp hx
    · refine ⟨hi.memWf, hi.factors, hi.errCode, hi.valPad, fun h => (hi.setup h).congr rfl rfl rfl rfl, fun h => ?_⟩
      obtain ⟨a, b, c⟩ := hi.run h
      exact ⟨a, b, c⟩
    · rcases put_cases v s (.inl hc) with ⟨f, e, -⟩ | ⟨w, e, hw⟩ | ⟨b, e⟩ <;> rw [e]
      · exact inv_idle hi.memWf hi.factors hi.errCode hi.valPad (by simp) (by simp)
      · exact inv_idle hi.memWf hi.factors hi.errCode (by simpa [hw] using hi.valPad) (by simp) (by simp)
      · exact inv_idle hi.memWf hi.factors hi.errCode hi.valPad (by simp) (by simp)
    · rcases put_cases v s (.inr hc) with ⟨f, e, hf⟩ | ⟨w, e, hw⟩ | ⟨b, e⟩ <;> rw [e]
      · obtain ⟨f1, f2, f3⟩ := hf (by rcases hc with h | h <;> simp [h])
        exact inv_idle hi.memWf hi.factors hi.errCode hi.valPad (fun h => (hi.setup h).congr f2 f3 f1 rfl) hb
      · exact inv_idle hi.memWf hi.factors hi.errCode (by simpa [hw] using hi.valPad) (fun h => (hi.setup h).congr rfl rfl rfl rfl) hb
      · exact inv_idle hi.memWf hi.factors hi.errCode hi.valPad (fun h => (hi.setup h).congr rfl rfl rfl rfl) hb
  | read slot =>
    obtain rfl := Host.Outcome.next.inj h
    exact inv_congr hi rfl rfl rfl rfl rfl rfl hi.memWf
  | poke a b =>
    simp only [hostAct] at h
    split at h
    · obtain rfl := Host.Outcome.next.inj h
      exact inv_congr hi rfl rfl rfl rfl rfl rfl (Memory.wf_write _ _ _ a.isLt hi.memWf)
    · cases h
  | peek a =>
    simp only [hostAct] at h
    split at h
    · obtain rfl := Host.Outcome.next.inj h
      exact inv_congr hi rfl rfl rfl rfl rfl rfl hi.memWf
    · cases h
  | reset =>
    obtain rfl := Host.Outcome.next.inj h
    unfold platformReset
    dsimp only
    split
    · exact inv_idle (wf_storeFree _ _ _ _ _ hi.memWf) hi.factors (by simp [State.resetFor, resetFlags]) (by simp [State.resetFor, resetWork]) (by simp [State.resetFor, resetFlags]) (by simp [State.resetFor, resetFlags])
    · exact inv_idle hi.memWf hi.factors (by simp [State.resetFor, resetFlags]) (by simp [State.resetFor, resetWork]) (by simp [State.resetFor, resetFlags]) (by simp [State.resetFor, resetFlags])

/-- A running state that has moved to a legal position meets the invariant. -/
theorem inv_moved {s t : State} (hi : StateInv s) (hb : s.flags.st = .busy) (hf : t.flags = s.flags) (hfr : t.frame = s.frame) (hd : t.derived = s.derived)
   (hv : t.variant = s.variant) (hm : Memory.wf t.mem) (hval : t.work.val = 0) (hp : PositionOk t) : StateInv t where
  memWf := hm
  factors := hv ▸ hi.factors
  errCode := hf ▸ hi.errCode
  valPad := by rw [hval]; decide
  setup h := (hi.setup (hf ▸ h)).congr (by rw [hfr]) (by rw [hfr]) (by rw [hfr]) hd
  run h := by
    obtain ⟨a, b, c⟩ := hi.run hb
    exact ⟨by rw [hfr, hd]; exact a, hval, hp⟩

/-- A sequencer step keeps the invariant. -/
theorem inv_seqStep {s t : State} (hi : StateInv s) (hb : s.flags.st = .busy) (h : seqStep s = .next t) : StateInv t := by
  have hs := hi.setup (by simp [hb])
  obtain ⟨hfit, hval, hpos⟩ := hi.run hb
  have hw := s.frame.width.isLt
  have he := hs.evenWidth
  have hev : ∀ {r : State}, OpKeeps s r → ∀ {q : SeqPos}, r.work.val = 0 → PositionOk (s.setSeq q) → StateInv (r.setSeq q) := by
    intro r hk q hv hp
    obtain ⟨h1, h2, h3, h4, h5, h6, h7, h8, h9⟩ := hk.rest
    refine inv_moved hi hb h2 h3 h4 h5 (hk.wf hi.memWf) hv ?_
    unfold PositionOk at *
    simp only [State.setSeq_seq, State.setSeq_frame, h3] at *
    exact hp
  have hev0 : ∀ {q : SeqPos}, PositionOk (s.setSeq q) → StateInv (s.setSeq q) := hev (OpKeeps.rfl' s) hval
  unfold PositionOk at hpos
  rcases seqStep_cases h with ⟨hp, hr, rfl⟩ | ⟨hp, hr, rfl⟩ | ⟨hp, rfl⟩ | ⟨hp, r, hx, rfl⟩ | ⟨hp, hc, r, hx, rfl⟩ |
    ⟨hp, hc, rfl⟩ | ⟨hp, hc, r, hx, rfl⟩ | ⟨hp, hc, r, hx, rfl⟩ | ⟨hp, h2, h4, rfl⟩ | ⟨hp, hwr, rfl⟩ | ⟨hp, rfl⟩ <;>
    simp only [hp] at hpos
  · exact inv_idle hi.memWf hi.factors hi.errCode hi.valPad (fun _ => hs.congr rfl rfl rfl rfl) (by simp)
  · apply hev0
    simp only [PositionOk, State.setSeq_seq, State.setSeq_frame, toPhase]
    have : s.seq.row.toNat ≠ s.frame.height.toNat := fun h => hr (BitVec.eq_of_toNat_eq h)
    omega
  · refine hev (rowselResult_keeps s) ?_ hpos
    unfold rowselResult; split
    · split <;> exact hval
    · exact hval
  · refine hev (groups_keep hx) (groups_packs hval hx).val ?_
    have h1 := bulkCount_le s
    have h2 := bulkCount_mod s
    simp only [PositionOk, State.setSeq_seq, State.setSeq_frame, BitVec.toNat_ofNat]
    rw [Nat.mod_eq_of_lt (by omega)]
    omega
  · have k := (doesPack_group _).packs s r hx
    refine hev k.keeps k.val ?_
    simp only [PositionOk, State.setSeq_seq, State.setSeq_frame, addCol, hp, BitVec.toNat_ofNat]
    rw [Nat.mod_eq_of_lt (by omega)]
    omega
  · apply hev0
    simp only [PositionOk, State.setSeq_seq, State.setSeq_frame, toPhase]
    omega
  · have k := (doesPack_tail2 _).packs s r hx
    refine hev k.keeps k.val ?_
    simp only [PositionOk, State.setSeq_seq, State.setSeq_frame, toPhase, addCol, BitVec.toNat_ofNat]
    rw [Nat.mod_eq_of_lt (by omega)]
    omega
  · have k := (doesPack_tail4 _).packs s r hx
    refine hev k.keeps k.val ?_
    simp only [PositionOk, State.setSeq_seq, State.setSeq_frame, toPhase, addCol, BitVec.toNat_ofNat]
    rw [Nat.mod_eq_of_lt (by omega)]
    omega
  · apply hev0
    simp only [PositionOk, State.setSeq_seq, State.setSeq_frame, toPhase]
    omega
  · exact hev (zfillResult_keeps _ s) hval hpos
  · refine inv_moved hi hb rfl rfl rfl rfl hi.memWf hval ?_
    have := s.frame.height.isLt
    have e : (rowadvResult s).frame = s.frame := rfl
    simp only [PositionOk, State.setSeq_seq, State.setSeq_frame, e, BitVec.toNat_add]
    have h1 : BitVec.toNat (1 : BitVec 16) = 1 := rfl
    rw [h1, Nat.mod_eq_of_lt (by omega)]
    have h0 : BitVec.toNat (0 : BitVec 16) = 0 := rfl
    omega

/-- The invariant does not depend on the actions to come. -/
theorem inv_inputs {s : State} (hi : StateInv s) (l : List Input) : StateInv (s.setInputs l) :=
  inv_congr hi rfl rfl rfl rfl rfl rfl hi.memWf

/-! ### What is kept -/

/-- What every sequencer step keeps; the flags change at completion alone (R177). -/
theorem seqStep_keeps {s t : State} (h : seqStep s = .next t) :
    t.frame = s.frame ∧ t.derived = s.derived ∧ t.variant = s.variant ∧ t.regions = s.regions ∧ t.inputs = s.inputs ∧ t.reply = s.reply ∧
    t.freeCount = s.freeCount ∧ (Memory.wf s.mem → Memory.wf t.mem) ∧ 
    (t.flags = s.flags ∨ (s.seq.phase = .chk ∧ s.seq.row = s.frame.height ∧ t = s.setFlags { s.flags with st := .ready, done := true })) := by
  have hk : ∀ {r : State}, OpKeeps s r → ∀ q, 
    (r.setSeq q).frame = s.frame ∧ (r.setSeq q).derived = s.derived ∧ (r.setSeq q).variant = s.variant ∧ (r.setSeq q).regions = s.regions ∧ (r.setSeq q).inputs = s.inputs ∧ (r.setSeq q).reply = s.reply ∧
    (r.setSeq q).freeCount = s.freeCount ∧ (Memory.wf s.mem → Memory.wf (r.setSeq q).mem) ∧ (r.setSeq q).flags = s.flags := by
    intro r hk q
    obtain ⟨h1, h2, h3, h4, h5, h6, h7, h8, h9⟩ := hk.rest
    exact ⟨h3, h4, h5, h6, h7, h8, h9, hk.wf, h2⟩
  have hk' : ∀ {r : State}, OpKeeps s r → ∀ q, t = r.setSeq q → _ := fun {r} k q e => by
    have := hk k q; rw [← e] at this; exact this
  rcases seqStep_cases h with ⟨hp, hr, rfl⟩ | ⟨hp, hr, e⟩ | ⟨hp, e⟩ | ⟨hp, r, hx, e⟩ | ⟨hp, hc, r, hx, e⟩ |
    ⟨hp, hc, e⟩ | ⟨hp, hc, r, hx, e⟩ | ⟨hp, hc, r, hx, e⟩ | ⟨hp, h2, h4, e⟩ | ⟨hp, hwr, e⟩ | ⟨hp, rfl⟩
  · exact ⟨rfl, rfl, rfl, rfl, rfl, rfl, rfl, id, .inr ⟨hp, hr, rfl⟩⟩
  · obtain ⟨a, b, c, d, e, f, g, h, i⟩ := hk' (OpKeeps.rfl' s) _ e; exact ⟨a, b, c, d, e, f, g, h, .inl i⟩
  · obtain ⟨a, b, c, d, e, f, g, h, i⟩ := hk' (rowselResult_keeps s) _ e; exact ⟨a, b, c, d, e, f, g, h, .inl i⟩
  · obtain ⟨a, b, c, d, e, f, g, h, i⟩ := hk' (groups_keep hx) _ e; exact ⟨a, b, c, d, e, f, g, h, .inl i⟩
  · obtain ⟨a, b, c, d, e, f, g, h, i⟩ := hk' ((doesPack_group _).packs s r hx).keeps _ e; exact ⟨a, b, c, d, e, f, g, h, .inl i⟩
  · obtain ⟨a, b, c, d, e, f, g, h, i⟩ := hk' (OpKeeps.rfl' s) _ e; exact ⟨a, b, c, d, e, f, g, h, .inl i⟩
  · obtain ⟨a, b, c, d, e, f, g, h, i⟩ := hk' ((doesPack_tail2 _).packs s r hx).keeps _ e; exact ⟨a, b, c, d, e, f, g, h, .inl i⟩
  · obtain ⟨a, b, c, d, e, f, g, h, i⟩ := hk' ((doesPack_tail4 _).packs s r hx).keeps _ e; exact ⟨a, b, c, d, e, f, g, h, .inl i⟩
  · obtain ⟨a, b, c, d, e, f, g, h, i⟩ := hk' (OpKeeps.rfl' s) _ e; exact ⟨a, b, c, d, e, f, g, h, .inl i⟩
  · obtain ⟨a, b, c, d, e, f, g, h, i⟩ := hk' (zfillResult_keeps _ s) _ e; exact ⟨a, b, c, d, e, f, g, h, .inl i⟩
  · exact ⟨rfl, rfl, rfl, rfl, rfl, rfl, rfl, id, .inl rfl⟩

/-- A step of the block: a sequencer step while `BUSY`, else nothing. -/
theorem blockStep_cases {s t : State} (h : blockStep s = .next t) :
    (s.flags.st = .busy ∧ seqStep s = .next t) ∨ (s.flags.st ≠ .busy ∧ t = s) := by
  unfold blockStep at h
  split at h
  · exact .inl ⟨‹_›, h⟩
  · exact .inr ⟨‹_›, (Host.Outcome.next.inj h).symm⟩

/-- What no instruction touches. -/
theorem exec_keeps {i : Instr} {s t : State} (h : exec i s = .next t) :
    t.frame = s.frame ∧ t.variant = s.variant ∧ t.regions = s.regions ∧ t.inputs = s.inputs ∧ t.reply = s.reply ∧ t.freeCount = s.freeCount := by
  by_cases hc : i.port = .cmd
  · rcases microOp_cases hc h with ⟨d, n, rfl, hn, rfl⟩ | ⟨rfl, rfl⟩ | ⟨-, hk⟩
    · simp
    · exact ⟨rfl, rfl, rfl, rfl, rfl, rfl⟩
    · obtain ⟨h1, h2, h3, h4, h5, h6, h7, h8, h9⟩ := hk.rest
      exact ⟨h3, h5, h6, h7, h8, h9⟩
  · cases i <;> simp only [Instr.port, not_true_eq_false] at hc
    · rcases init_cases h with ⟨-, rfl⟩ | ⟨-, -, rfl⟩ | ⟨-, -, -, rfl⟩ | ⟨-, he, hf, rfl⟩ <;> simp
    · rcases start_cases h with ⟨-, rfl⟩ | ⟨hr, -, rfl⟩ | ⟨hr, hs, rfl⟩ <;> simp
    · rcases ack_cases h with ⟨-, rfl⟩ | ⟨hb, rfl⟩ <;> simp

/-- While `BUSY` no micro-operation is accepted and a host command is refused (R164 to R167). -/
theorem exec_busy {i : Instr} {s t : State} (hb : s.flags.st = .busy) (hp : i.port = .cmd → s.flags.st = .ready) (h : exec i s = .next t) :
   t = raiseErr .hostProtocol s := by
  have hc : i.port ≠ .cmd := fun h => by simp [hp h] at hb
  cases i <;> simp only [Instr.port, ne_eq, not_true_eq_false] at hc
  · rcases init_cases h with ⟨-, rfl⟩ | ⟨h', -, rfl⟩ | ⟨h', -, -, rfl⟩ | ⟨h', he, hf, rfl⟩ <;> first | rfl | exact absurd hb h'
  · rcases start_cases h with ⟨-, rfl⟩ | ⟨hr, -, rfl⟩ | ⟨hr, hs, rfl⟩ <;> first | rfl | simp [hr] at hb
  · rcases ack_cases h with ⟨-, rfl⟩ | ⟨h', rfl⟩ <;> first | rfl | exact absurd hb h'

/-- How an instruction takes an error (R221). -/
theorem exec_error {i : Instr} {s t : State} (h : exec i s = .next t) (h0 : s.flags.err = false) (h1 : t.flags.err = true) :
    t.work = s.work ∧ t.seq = s.seq ∧ t.frame = s.frame ∧ t.derived = s.derived ∧ t.variant = s.variant ∧
    t.mem = s.mem ∧ t.flags.ie = s.flags.ie ∧ t.flags.errcode ≠ .none ∧
    (t.flags.errcode = .cfgOddWidth ∨ t.flags.errcode = .cfgBadFormat →
      t.flags.st = .unconf ∧ t.flags.done = false) ∧
    (t.flags.errcode = .resNoBuffer → t.flags.st = s.flags.st ∧ t.flags.done = false) ∧
    (t.flags.errcode = .illCmd ∨ t.flags.errcode = .hostProtocol →
      t.flags.st = s.flags.st ∧ t.flags.done = s.flags.done) := by
  by_cases hc : i.port = .cmd
  · rcases microOp_cases hc h with ⟨d, n, rfl, hn, rfl⟩ | ⟨rfl, rfl⟩ | ⟨-, hk⟩
    · simp [raiseErr_flags_errcode, h0]
    · have : s.flags.err = true := h1
      simp [h0] at this
    · rw [hk.rest.flags, h0] at h1; cases h1
  · cases i <;> simp only [Instr.port, not_true_eq_false] at hc
    · rcases init_cases h with ⟨-, rfl⟩ | ⟨-, -, rfl⟩ | ⟨-, -, -, rfl⟩ | ⟨-, he, hf, rfl⟩
      · simp [raiseErr_flags_errcode, h0]
      · simp
      · simp
      · simp at h1
    · rcases start_cases h with ⟨-, rfl⟩ | ⟨hr, -, rfl⟩ | ⟨hr, hs, rfl⟩
      · simp [raiseErr_flags_errcode, h0]
      · simp [hr]
      · simp at h1
    · rcases ack_cases h with ⟨-, rfl⟩ | ⟨hb, rfl⟩
      · simp [raiseErr_flags_errcode, h0]
      · simp at h1

/-- The registers after the reset input (R241). -/
theorem platformReset_fields (s : State) : (platformReset s).work = resetWork ∧ (platformReset s).seq = resetSeq ∧ (platformReset s).flags = resetFlags
   ∧ (platformReset s).frame = resetFrame ∧ (platformReset s).derived = resetDerived ∧ (platformReset s).variant = s.variant ∧ (platformReset s).inputs = s.inputs ∧
   (platformReset s).regions = s.regions ∧ (platformReset s).reply = s.reply := by
  unfold platformReset; dsimp only; split <;> exact ⟨rfl, rfl, rfl, rfl, rfl, rfl, rfl, rfl, rfl⟩

/-- What a host action does to a running block (R85, R168). -/
theorem hostAct_busy {a : HostAct} {s t : State} (hb : s.flags.st = .busy) (h : hostAct a s = .next t) :
   a = .reset ∨ (t.work = s.work ∧ t.seq = s.seq ∧ t.frame = s.frame ∧ t.derived = s.derived ∧ t.flags.st = .busy ∧ 
      ∀ x, inSource s.frame x = true ∨ inDest s x = true → t.byteAt x = s.byteAt x) := by
  cases a with
  | write slot v =>
    rcases writeOffset_cases h with (rfl | rfl) | ⟨i, hx, hp⟩ | rfl | ⟨r, hc, hb', rfl⟩ | ⟨r, hc, hb', rfl⟩
    · simp [hb]
    · simp [hb]
    · obtain rfl := exec_busy hb hp hx
      simp [hb]
    · exact .inr ⟨rfl, rfl, rfl, rfl, hb, fun _ _ => rfl⟩
    · exact absurd hb hb'
    · exact absurd hb hb'
  | read slot => obtain rfl := Host.Outcome.next.inj h; simp [hb]
  | poke a b =>
    simp only [hostAct] at h
    split at h
    · rename_i hm
      obtain rfl := Host.Outcome.next.inj h
      refine .inr ⟨rfl, rfl, rfl, rfl, hb, fun x hx => ?_⟩
      rw [byteAt_setMem_write, if_neg]
      rintro rfl
      simp [mayPoke, hb] at hm
      simp [hm] at hx
    · cases h
  | peek a =>
    simp only [hostAct] at h
    split at h
    · obtain rfl := Host.Outcome.next.inj h; simp [hb]
    · cases h
  | reset => exact .inl rfl

/-- What packs writes only between the old and the new `DP`. -/
theorem packs_bytes {d : Depth} {y u v o : Nat} {s t : State} (h : Packs d y u v o s t) (ho : o < 2 ^ 64) (a : Addr)
   (ha : outside a s.work.dp (t.work.dp - s.work.dp).toNat) : t.byteAt a = s.byteAt a := by
  rw [h.dp, add_ofNat_sub _ _ ho] at ha
  exact h.bytes a ha

end Sys2Proof.Machine
end

