-- ==== Sys2Proof/Laws/Rows.lean ====
section
/-! SUPPORT. The sequencer steps of one row as operations: they are one line operation (R170 to R176, R178), which does not
depend on the sample factors (R183), and the block stays `BUSY` through them. -/

namespace Sys2Proof.Machine

/-! ### A run as repeated steps -/

theorem run_eq_repeat (n : Nat) (s : State) : Sys2Proof.core.run n s = repeatOp n step s := by
  induction n generalizing s with
  | zero => rfl
  | succ n ih =>
    refine (Host.Core.run.eq_2 Sys2Proof.core s n).trans ?_
    rw [repeatOp, andThen]
    have hc : ∀ o : Host.Outcome State Fault Refusal, Sys2Proof.core.step s = o → step s = o := fun _ h => h
    cases h : Sys2Proof.core.step s with
    | next t =>
      rw [hc _ h]
      exact ih t
    | fault r =>
      rw [hc _ h]
      rfl
    | refused r =>
      rw [hc _ h]
      rfl

/-- A prefix of a run that completes completes. -/
theorem repeatOp_prefix {f : Op} {m n : Nat} {s t : State} (h : repeatOp (m + n) f s = .next t) :
    ∃ r, repeatOp m f s = .next r ∧ repeatOp n f r = .next t := by
  rw [repeatOp_add] at h
  exact andThen_next.mp h

/-! ### Operations that do not look at a part of the state -/

/-- The next state, changed by `g`. -/
def mapNext (g : State → State) : Host.Outcome State Fault Refusal → Host.Outcome State Fault Refusal
  | .next s => .next (g s)
  | .fault r => .fault r
  | .refused r => .refused r

theorem mapNext_next {g : State → State} {o : Host.Outcome State Fault Refusal} {t : State} :
    mapNext g o = .next t ↔ ∃ r, o = .next r ∧ t = g r := by
  cases o <;> simp [mapNext, eq_comm]

/-- `g` changes nothing the operations of `PK` and `ZF` read or write (R121, R150). -/
structure Passes (g : State → State) : Prop where
  work : ∀ s, (g s).work = s.work
  mem : ∀ s, (g s).mem = s.mem
  regions : ∀ s, (g s).regions = s.regions
  setWork : ∀ s w, g (s.setWork w) = (g s).setWork w
  setMem : ∀ s m, g (s.setMem m) = (g s).setMem m

theorem passes_setSeq (q : SeqPos) : Passes (fun s => s.setSeq q) :=
  ⟨fun _ => rfl, fun _ => rfl, fun _ => rfl, fun _ _ => rfl, fun _ _ => rfl⟩

theorem passes_variant (v : Variant) : Passes (fun s => { s with variant := v }) :=
  ⟨fun _ => rfl, fun _ => rfl, fun _ => rfl, fun _ _ => rfl, fun _ _ => rfl⟩

/-- The operation does the same before and after `g`. -/
def Commutes (g : State → State) (f : Op) : Prop := ∀ s, f (g s) = mapNext g (f s)

theorem commutes_ret (g : State → State) : Commutes g (fun s => .next s) := fun _ => rfl

theorem Commutes.compose {g : State → State} {f f' : Op} (h : Commutes g f) (h' : Commutes g f') :
    Commutes g (andThen f f') := by
  intro s
  simp only [andThen, h s]
  cases f s with
  | next t => exact h' t
  | fault r => rfl
  | refused r => rfl

theorem Commutes.repeat {g : State → State} {f : Op} (h : Commutes g f) (n : Nat) : Commutes g (repeatOp n f) := by
  induction n with
  | zero => exact commutes_ret g
  | succ n ih => exact h.compose ih

section
variable {g : State → State} (hg : Passes g)
include hg

theorem Passes.sampleAt (d : Depth) (s : State) (a : Addr) : (g s).sampleAt d a = s.sampleAt d a :=
  sampleAt_congr d a fun _ _ => byteAt_congr (hg.mem s) _

theorem Passes.accumulate (d : Depth) (slot : Slot) (c : Src) : Commutes g (accumulate d slot c) := by
  intro s
  rw [accumulate_eq, accumulate_eq, readable_congr (hg.regions s), hg.work]
  split
  · simp only [accResult, mapNext, hg.work, hg.sampleAt, hg.setWork]
  · rfl

theorem Passes.flushWord : Commutes g flushWord := by
  intro s
  rw [flushWord_eq, flushWord_eq, writable_congr (hg.regions s), hg.work]
  split
  · simp only [flushResult, mapNext, hg.work, hg.mem, hg.setWork, hg.setMem]
  · rfl

theorem Passes.packWord (d : Depth) (p : Pat) : Commutes g (packWord d p) :=
  (hg.accumulate _ _ _).compose ((hg.accumulate _ _ _).compose ((hg.accumulate _ _ _).compose hg.flushWord))

theorem Passes.packGroup (d : Depth) : Commutes g (packGroup d) :=
  (hg.packWord _ _).compose ((hg.packWord _ _).compose ((hg.packWord _ _).compose (hg.packWord _ _)))

theorem Passes.tail2 (d : Depth) : Commutes g (execTail2 d) :=
  (hg.packWord _ _).compose ((hg.accumulate _ _ _).compose hg.flushWord)

theorem Passes.tail4 (d : Depth) : Commutes g (execTail4 d) :=
  (hg.packWord _ _).compose ((hg.packWord _ _).compose ((hg.accumulate _ _ _).compose ((hg.accumulate _ _ _).compose
    hg.flushWord)))

theorem Passes.zfill (n : Nat) : Commutes g (execZfill n) := by
  intro s
  rw [execZfill_eq, execZfill_eq, writable_congr (hg.regions s), hg.work]
  split
  · simp only [zfillResult, mapNext, hg.work, hg.mem, hg.setWork, hg.setMem]
  · rfl

end

/-! ### The operation of a line -/

/-- The remainder of a line (R174). -/
def tailOp (d : Depth) (w : Nat) : Op :=
  if w % 6 = 2 then execTail2 d else if w % 6 = 4 then execTail4 d else fun s => .next s

/-- The content of a line: whole groups, then the remainder (R128, R173, R174). -/
def contentOp (d : Depth) (w : Nat) : Op := andThen (repeatOp (w / 6) (packGroup d)) (tailOp d w)

/-- What a row does (R178), without the split of its groups between `BULK` and `GROUP`. -/
def lineOp (d : Depth) (w : Nat) : Op :=
  andThen execRowsel (andThen (contentOp d w) (andThen (execZfill (linePadOf w)) execRowadv))

theorem Passes.tailOp {g : State → State} (hg : Passes g) (d : Depth) (w : Nat) : Commutes g (tailOp d w) := by
  unfold Machine.tailOp
  split
  · exact hg.tail2 d
  · split
    · exact hg.tail4 d
    · exact commutes_ret g

theorem tailOp_keeps {d : Depth} {w : Nat} {s t : State} (h : tailOp d w s = .next t) : OpKeeps s t := by
  unfold tailOp at h
  split at h
  · exact ((doesPack_tail2 d).packs s t h).keeps
  · split at h
    · exact ((doesPack_tail4 d).packs s t h).keeps
    · obtain rfl := Host.Outcome.next.inj h
      exact OpKeeps.rfl' s

/-- The line operation does not depend on the sample factors (R183). -/
theorem commutes_variant_lineOp (v : Variant) (d : Depth) (w : Nat) :
    Commutes (fun s => { s with variant := v }) (lineOp d w) := by
  have hg := passes_variant v
  refine Commutes.compose ?_ (Commutes.compose (((hg.packGroup d).repeat _).compose (hg.tailOp d w))
    ((hg.zfill _).compose (fun _ => rfl)))
  intro s
  simp only [execRowsel_eq, mapNext, rowselResult]
  congr 1
  split
  · split <;> rfl
  · rfl

/-! ### Parts of a row -/

/-- Where a row starts: a running block at `CHK`, no host action to come, the setup validated. -/
structure RowStart (s : State) : Prop where
  busy : s.flags.st = .busy
  quiet : s.inputs = []
  phase : s.seq.phase = .chk
  col : s.seq.col = 0
  setup : SetupValid s

/-- `n` steps from position `q` are the operation `f` and end at position `q'`, in every outcome, from every state that
differs from `s₀` in the working registers and memory alone; the block is `BUSY` before each of them. -/
structure RowPart (s₀ : State) (n : Nat) (q q' : SeqPos) (f : Op) : Prop where
  steps : ∀ s, KeepsRest s₀ s → repeatOp n step (s.setSeq q) = mapNext (fun t => t.setSeq q') (f s)
  keeps : ∀ s t, KeepsRest s₀ s → f s = .next t → KeepsRest s₀ t
  busy : ∀ s, KeepsRest s₀ s → ∀ j < n, ∀ r, repeatOp j step (s.setSeq q) = .next r → r.flags.st = .busy

theorem RowPart.compose {s₀ : State} {m n : Nat} {q q' q'' : SeqPos} {f g : Op}
    (hf : RowPart s₀ m q q' f) (hg : RowPart s₀ n q' q'' g) : RowPart s₀ (m + n) q q'' (andThen f g) where
  steps s hs := by
    rw [repeatOp_add]
    simp only [andThen, hf.steps s hs]
    cases h : f s with
    | next t => exact hg.steps t (hf.keeps s t hs h)
    | fault r => rfl
    | refused r => rfl
  keeps s t hs h := by
    obtain ⟨r, hr, ht⟩ := andThen_next.mp h
    exact hg.keeps r t (hf.keeps s r hs hr) ht
  busy s hs j hj r hr := by
    by_cases hm : j < m
    · exact hf.busy s hs j hm r hr
    · obtain ⟨i, rfl⟩ := Nat.exists_eq_add_of_le (Nat.not_lt.mp hm)
      obtain ⟨x, hx, hr⟩ := repeatOp_prefix hr
      rw [hf.steps s hs] at hx
      obtain ⟨y, hy, rfl⟩ := mapNext_next.mp hx
      exact hg.busy y (hf.keeps s y hs hy) i (by omega) r hr

/-- One step that is one operation. -/
theorem rowPart_one {s₀ : State} {q q' : SeqPos} {f : Op} (hb : s₀.flags.st = .busy)
    (steps : ∀ s, KeepsRest s₀ s → step (s.setSeq q) = mapNext (fun t => t.setSeq q') (f s))
    (keeps : ∀ s t, KeepsRest s₀ s → f s = .next t → KeepsRest s₀ t) : RowPart s₀ 1 q q' f where
  steps s hs := by
    rw [repeatOp, repeatOp, andThen_ret]
    exact steps s hs
  keeps := keeps
  busy s hs j hj r hr := by
    obtain rfl : j = 0 := by omega
    obtain rfl := Host.Outcome.next.inj hr
    exact hs.flags ▸ hb

section
variable {s₀ : State} (h₀ : RowStart s₀)
include h₀

theorem RowStart.step {s : State} (hs : KeepsRest s₀ s) (q : SeqPos) : step (s.setSeq q) = seqStep (s.setSeq q) :=
  step_busy (by rw [State.setSeq_inputs, hs.inputs, h₀.quiet]) (by rw [State.setSeq_flags, hs.flags, h₀.busy])

theorem part_chk (hr : s₀.seq.row ≠ s₀.frame.height) :
    RowPart s₀ 1 s₀.seq ⟨s₀.seq.row, .sel, 0⟩ (fun s => .next s) := by
  refine rowPart_one h₀.busy (fun s hs => ?_) (fun s t hs h => Host.Outcome.next.inj h ▸ hs)
  rw [h₀.step hs, seqStep, State.setSeq_seq, h₀.phase]
  simp only [phaseChk, State.setSeq_seq, State.setSeq_frame, hs.frame, if_neg hr, mapNext, toPhase, State.setSeq_setSeq,
    h₀.col]

theorem part_sel : RowPart s₀ 1 ⟨s₀.seq.row, .sel, 0⟩ ⟨s₀.seq.row, .bulk, 0⟩ execRowsel := by
  refine rowPart_one h₀.busy (fun s hs => ?_) (fun s t hs h => ?_)
  · rw [h₀.step hs, seqStep, State.setSeq_seq]
    change issue .rowsel (toPhase .bulk) _ = _
    simp only [issue, exec, andThen, execRowsel_eq, mapNext, rowselResult, State.setSeq_frame, State.setSeq_seq, hs.seq,
      hs.frame]
    by_cases h1 : s₀.frame.fmt = 1 <;> by_cases h2 : s₀.seq.row.toNat % 2 = 0 <;> simp only [h1, h2] <;> rfl
  · rw [execRowsel_eq] at h
    obtain rfl := Host.Outcome.next.inj h
    exact hs.trans' (rowselResult_keeps s).rest

theorem part_bulk : RowPart s₀ 1 ⟨s₀.seq.row, .bulk, 0⟩ ⟨s₀.seq.row, .grp, BitVec.ofNat 16 (bulkCount s₀)⟩
    (repeatOp (bulkCount s₀ / 6) (packGroup (depthOfFmt s₀.frame.fmt))) := by
  refine rowPart_one h₀.busy (fun s hs => ?_) (fun s t hs h => hs.trans' (groups_keep h).rest)
  have e : bulkCount (s.setSeq ⟨s₀.seq.row, .bulk, 0⟩) = bulkCount s₀ := by
    simp only [bulkCount, State.setSeq_frame, State.setSeq_variant, hs.frame, hs.variant]
  rw [h₀.step hs, seqStep, State.setSeq_seq]
  simp only [phaseBulk, issue, exec, andThen, e, State.setSeq_frame, hs.frame]
  rw [execBulk_legal (by
    rw [State.setSeq_variant, hs.variant]
    exact bulkCount_legal s₀)]
  rw [((passes_setSeq _).packGroup _).repeat _ s]
  cases h : repeatOp (bulkCount s₀ / 6) (packGroup (depthOfFmt s₀.frame.fmt)) s <;> rfl

/-- The scalar loop of `g` groups and the step that leaves it (R173). -/
theorem part_grp (g c : Nat) (hc : c + 6 * g ≤ s₀.frame.width.toNat) (hw : s₀.frame.width.toNat < c + 6 * g + 6) :
    RowPart s₀ (g + 1) ⟨s₀.seq.row, .grp, BitVec.ofNat 16 c⟩ ⟨s₀.seq.row, .tail, BitVec.ofNat 16 (c + 6 * g)⟩
      (repeatOp g (packGroup (depthOfFmt s₀.frame.fmt))) := by
  have hlt := s₀.frame.width.isLt
  induction g generalizing c with
  | zero =>
    refine rowPart_one h₀.busy (fun s hs => ?_) (fun s t hs h => Host.Outcome.next.inj h ▸ hs)
    rw [h₀.step hs, seqStep, State.setSeq_seq]
    simp only [phaseGrp, State.setSeq_seq, State.setSeq_frame, hs.frame, BitVec.toNat_ofNat]
    rw [Nat.mod_eq_of_lt (by omega), if_neg (by omega)]
    rfl
  | succ g ih =>
    have h1 : RowPart s₀ 1 ⟨s₀.seq.row, .grp, BitVec.ofNat 16 c⟩ ⟨s₀.seq.row, .grp, BitVec.ofNat 16 (c + 6)⟩
        (packGroup (depthOfFmt s₀.frame.fmt)) := by
      refine rowPart_one h₀.busy (fun s hs => ?_) (fun s t hs h => hs.trans' ((doesPack_group _).packs s t h).rest)
      rw [h₀.step hs, seqStep, State.setSeq_seq]
      simp only [phaseGrp, State.setSeq_seq, State.setSeq_frame, hs.frame, BitVec.toNat_ofNat]
      rw [Nat.mod_eq_of_lt (by omega), if_pos (by omega)]
      simp only [issue, exec, andThen]
      change (match packGroup _ _ with | .next t => _ | .fault r => _ | .refused r => _) = _
      rw [(passes_setSeq _).packGroup _ s]
      cases h : packGroup (depthOfFmt s₀.frame.fmt) s with
      | next t =>
        simp only [mapNext, State.setSeq_setSeq, State.setSeq_seq, addCol, BitVec.toNat_ofNat]
        rw [Nat.mod_eq_of_lt (by omega : c < 2 ^ 16)]
      | fault r => rfl
      | refused r => rfl
    have h2 := h1.compose (ih (c + 6) (by omega) (by omega))
    rw [show 1 + (g + 1) = g + 1 + 1 by omega, show c + 6 + 6 * g = c + 6 * (g + 1) by omega] at h2
    exact h2

/-- The end of the scalar loop leaves 0, 2 or 4 samples (R174). -/
theorem part_tail (c : Nat) (hc : c % 6 = 0) (hle : c ≤ s₀.frame.width.toNat) (hw : s₀.frame.width.toNat < c + 6) :
    RowPart s₀ 1 ⟨s₀.seq.row, .tail, BitVec.ofNat 16 c⟩ ⟨s₀.seq.row, .fill, s₀.frame.width⟩
      (tailOp (depthOfFmt s₀.frame.fmt) s₀.frame.width.toNat) := by
  have hlt := s₀.frame.width.isLt
  have he := h₀.setup.evenWidth
  have hcol : ∀ k, s₀.frame.width.toNat = c + k → BitVec.ofNat 16 (c + k) = s₀.frame.width := by
    intro k hk
    apply BitVec.eq_of_toNat_eq
    rw [BitVec.toNat_ofNat, ← hk, Nat.mod_eq_of_lt (by omega)]
  refine rowPart_one h₀.busy (fun s hs => ?_) (fun s t hs h => hs.trans' (tailOp_keeps h).rest)
  rw [h₀.step hs, seqStep, State.setSeq_seq]
  simp only [phaseTail, State.setSeq_seq, State.setSeq_frame, hs.frame, BitVec.toNat_ofNat, tailOp]
  rw [Nat.mod_eq_of_lt (by omega : c < 2 ^ 16)]
  by_cases h2 : s₀.frame.width.toNat - c = 2
  · rw [if_pos h2, if_pos (by omega)]
    simp only [issue, exec, andThen]
    rw [(passes_setSeq _).tail2 _ s]
    cases h : execTail2 (depthOfFmt s₀.frame.fmt) s with
    | next t =>
      simp only [mapNext, State.setSeq_setSeq, State.setSeq_seq, addCol, toPhase, BitVec.toNat_ofNat]
      rw [Nat.mod_eq_of_lt (by omega : c < 2 ^ 16), hcol 2 (by omega)]
    | fault r => rfl
    | refused r => rfl
  · rw [if_neg h2, if_neg (by omega : ¬ s₀.frame.width.toNat % 6 = 2)]
    by_cases h4 : s₀.frame.width.toNat - c = 4
    · rw [if_pos h4, if_pos (by omega)]
      simp only [issue, exec, andThen]
      rw [(passes_setSeq _).tail4 _ s]
      cases h : execTail4 (depthOfFmt s₀.frame.fmt) s with
      | next t =>
        simp only [mapNext, State.setSeq_setSeq, State.setSeq_seq, addCol, toPhase, BitVec.toNat_ofNat]
        rw [Nat.mod_eq_of_lt (by omega : c < 2 ^ 16), hcol 4 (by omega)]
      | fault r => rfl
      | refused r => rfl
    · rw [if_neg h4, if_neg (by omega)]
      simp only [mapNext, State.setSeq_setSeq, toPhase]
      have := hcol 0 (by omega)
      rw [Nat.add_zero] at this
      rw [this]

theorem part_fill : RowPart s₀ 1 ⟨s₀.seq.row, .fill, s₀.frame.width⟩ ⟨s₀.seq.row, .adv, s₀.frame.width⟩
    (execZfill (linePadOf s₀.frame.width.toNat)) := by
  refine rowPart_one h₀.busy (fun s hs => ?_) (fun s t hs h => ?_)
  · rw [h₀.step hs, seqStep, State.setSeq_seq]
    simp only [phaseFill, issue, exec, andThen, State.setSeq_derived, hs.derived, h₀.setup.linePad]
    rw [(passes_setSeq _).zfill _ s]
    cases h : execZfill (linePadOf s₀.frame.width.toNat) s <;> rfl
  · obtain ⟨-, rfl⟩ := execZfill_next.mp h
    exact hs.trans' (zfillResult_keeps _ s).rest

/-- The last step of a row (R176). -/
theorem step_adv {s : State} (hs : KeepsRest s₀ s) :
    step (s.setSeq ⟨s₀.seq.row, .adv, s₀.frame.width⟩) = execRowadv s := by
  rw [h₀.step hs, seqStep, State.setSeq_seq]
  change issue .rowadv _ _ = _
  simp only [issue, exec, andThen, execRowadv_eq, rowadvResult, State.setSeq_frame, State.setSeq_work, State.setSeq_seq,
    hs.seq]
  have hq : s₀.seq = ⟨s₀.seq.row, .chk, 0⟩ := by
    rw [← h₀.phase, ← h₀.col]
  congr 1
  rw [hq]
  rfl

/-! ### A whole row -/

omit h₀ in
theorem extraGroups_eq (s₀ : State) : bulkCount s₀ / 6 + extraGroups s₀ = s₀.frame.width.toNat / 6 := by
  have h1 := bulkCount_le s₀
  have h2 := bulkCount_mod s₀
  unfold extraGroups
  omega

/-- All of a row but its last step. -/
theorem part_row (hr : s₀.seq.row ≠ s₀.frame.height) :
    RowPart s₀ (6 + extraGroups s₀) s₀.seq ⟨s₀.seq.row, .adv, s₀.frame.width⟩
      (andThen execRowsel (andThen (contentOp (depthOfFmt s₀.frame.fmt) s₀.frame.width.toNat)
        (execZfill (linePadOf s₀.frame.width.toNat)))) := by
  have h1 := bulkCount_le s₀
  have h2 := bulkCount_mod s₀
  have hk := extraGroups_eq s₀
  have p := (part_chk h₀ hr).compose ((part_sel h₀).compose ((part_bulk h₀).compose
    ((part_grp h₀ (extraGroups s₀) (bulkCount s₀) (by omega) (by omega)).compose
      ((part_tail h₀ (bulkCount s₀ + 6 * extraGroups s₀) (by omega) (by omega) (by omega)).compose (part_fill h₀)))))
  rw [show 1 + (1 + (1 + (extraGroups s₀ + 1 + (1 + 1)))) = 6 + extraGroups s₀ by omega, ret_andThen] at p
  rw [contentOp, ← hk, repeatOp_add]
  simpa only [andThen_assoc] using p

/-- The steps of a row are the line operation, in every outcome (R178, R179). -/
theorem row_steps (hr : s₀.seq.row ≠ s₀.frame.height) :
    repeatOp (rowSteps s₀) step s₀ = lineOp (depthOfFmt s₀.frame.fmt) s₀.frame.width.toNat s₀ := by
  have p := part_row h₀ hr
  have hs := p.steps s₀ (KeepsRest.rfl' s₀)
  rw [State.setSeq_self] at hs
  rw [rowSteps, show 7 + extraGroups s₀ = 6 + extraGroups s₀ + 1 by omega, repeatOp_add, repeatOp, repeatOp, andThen_ret]
  have e : lineOp (depthOfFmt s₀.frame.fmt) s₀.frame.width.toNat =
      andThen (andThen execRowsel (andThen (contentOp (depthOfFmt s₀.frame.fmt) s₀.frame.width.toNat)
        (execZfill (linePadOf s₀.frame.width.toNat)))) execRowadv := by
    simp only [lineOp, andThen_assoc]
  rw [e]
  clear e
  generalize andThen execRowsel (andThen (contentOp (depthOfFmt s₀.frame.fmt) s₀.frame.width.toNat)
    (execZfill (linePadOf s₀.frame.width.toNat))) = f at p hs ⊢
  simp only [andThen]
  rw [hs]
  cases hf : f s₀ with
  | next t => exact step_adv h₀ (p.keeps s₀ t (KeepsRest.rfl' s₀) hf)
  | fault r => rfl
  | refused r => rfl

/-- The block is `BUSY` before every step of a row. -/
theorem row_busy (hr : s₀.seq.row ≠ s₀.frame.height) {j : Nat} (hj : j < rowSteps s₀) {r : State}
    (h : repeatOp j step s₀ = .next r) : r.flags.st = .busy := by
  have p := part_row h₀ hr
  by_cases hj' : j < 6 + extraGroups s₀
  · exact p.busy s₀ (KeepsRest.rfl' s₀) j hj' r (by rwa [State.setSeq_self])
  · have e : j = 6 + extraGroups s₀ := by unfold rowSteps at hj; omega
    have hs := p.steps s₀ (KeepsRest.rfl' s₀)
    rw [State.setSeq_self, ← e, h] at hs
    obtain ⟨t, ht, rfl⟩ := mapNext_next.mp hs.symm
    rw [State.setSeq_flags, (p.keeps s₀ t (KeepsRest.rfl' s₀) ht).flags, h₀.busy]

end

end Sys2Proof.Machine
end

