-- ==== Sys2Proof/Laws/Lines.lean ====
section
/-! SUPPORT. What the content of a line is (R94), and that the line program is the line operation (R178). -/

namespace Sys2Proof.Machine

/-! ### The line program -/

theorem runOps_append (l l' : List Instr) : runOps (l ++ l') = andThen (runOps l) (runOps l') := by
  induction l with
  | nil => rfl
  | cons i l ih => rw [List.cons_append, runOps, runOps, ih, andThen_assoc]

theorem runOps_replicate (i : Instr) (n : Nat) : runOps (List.replicate n i) = repeatOp n (exec i) := by
  induction n with
  | zero => rfl
  | succ n ih => rw [List.replicate_succ, runOps, repeatOp, ih]

theorem runOps_tailOps (d : Depth) (w : Nat) : runOps (tailOps d w) = tailOp d w := by
  unfold tailOps tailOp
  split
  · exact andThen_ret _
  · split
    · exact andThen_ret _
    · rfl

/-- The operations of the line program are the line operation (R178). -/
theorem runOps_lineProgram (s : State) :
    runOps (lineProgram s) s = lineOp (depthOfFmt s.frame.fmt) s.frame.width.toNat s := by
  have hb : ∀ r : State, r.variant = s.variant →
      exec (.bulk (depthOfFmt s.frame.fmt) (bulkCount s)) r =
        repeatOp (bulkCount s / 6) (packGroup (depthOfFmt s.frame.fmt)) r := by
    intro r hr
    exact execBulk_legal (by rw [hr]; exact bulkCount_legal s)
  have hv : (rowselResult s).variant = s.variant := (rowselResult_keeps s).rest.variant
  rw [lineProgram, runOps_append, runOps_append, runOps_append, runOps_tailOps, runOps_replicate, lineOp, contentOp,
    ← extraGroups_eq s, repeatOp_add]
  simp only [runOps, andThen_assoc, andThen_ret]
  have hs : exec .rowsel s = .next (rowselResult s) := execRowsel_eq s
  rw [andThen_of_next hs, andThen_of_next (execRowsel_eq s)]
  rw [andThen, hb _ hv, andThen]
  rfl

/-! ### Components and slots -/

/-- Component `i` of a line from its fields (R94). -/
def compOf (fy fu fv : Nat → Nat) (i : Nat) : Nat :=
  if i % 4 = 0 then fu (i / 4)
  else if i % 4 = 1 then fy (2 * (i / 4))
  else if i % 4 = 2 then fv (i / 4)
  else fy (2 * (i / 4) + 1)

theorem compOf_u (fy fu fv : Nat → Nat) (j : Nat) : compOf fy fu fv (4 * j) = fu j := by
  simp [compOf]

theorem compOf_y0 (fy fu fv : Nat → Nat) (j : Nat) : compOf fy fu fv (4 * j + 1) = fy (2 * j) := by
  have h1 : (4 * j + 1) % 4 = 1 := by omega
  have h2 : (4 * j + 1) / 4 = j := by omega
  simp [compOf, h1, h2]

theorem compOf_v (fy fu fv : Nat → Nat) (j : Nat) : compOf fy fu fv (4 * j + 2) = fv j := by
  have h1 : (4 * j + 2) % 4 = 2 := by omega
  have h2 : (4 * j + 2) / 4 = j := by omega
  simp [compOf, h1, h2]

theorem compOf_y1 (fy fu fv : Nat → Nat) (j : Nat) : compOf fy fu fv (4 * j + 3) = fy (2 * j + 1) := by
  have h1 : (4 * j + 3) % 4 = 3 := by omega
  have h2 : (4 * j + 3) / 4 = j := by omega
  simp [compOf, h1, h2]

/-- Word `m` of a line with `n` components (R91, R94). -/
def wordOf (c : Nat → Nat) (n m : Nat) : Nat :=
  let g := fun i => if i < n then c i else 0
  packed (g (3 * m)) (g (3 * m + 1)) (g (3 * m + 2))

/-- The components the next samples of a state give. -/
def State.nextComp (s : State) (d : Depth) : Nat → Nat :=
  compOf (s.nextField d .y) (s.nextField d .u) (s.nextField d .v)

/-- The four words of group `k` (R93) are the words `4k` to `4k+3` of the line. -/
theorem wordOf_group (fy fu fv : Nat → Nat) (n k : Nat) (hn : 12 * k + 12 ≤ n) :
    wordOf (compOf fy fu fv) n (4 * k) = packed (fu (3 * k)) (fy (6 * k)) (fv (3 * k)) ∧
    wordOf (compOf fy fu fv) n (4 * k + 1) = packed (fy (6 * k + 1)) (fu (3 * k + 1)) (fy (6 * k + 2)) ∧
    wordOf (compOf fy fu fv) n (4 * k + 2) = packed (fv (3 * k + 1)) (fy (6 * k + 3)) (fu (3 * k + 2)) ∧
    wordOf (compOf fy fu fv) n (4 * k + 3) = packed (fy (6 * k + 4)) (fv (3 * k + 2)) (fy (6 * k + 5)) := by
  have c0 := compOf_u fy fu fv (3 * k)
  have c1 := compOf_y0 fy fu fv (3 * k)
  have c2 := compOf_v fy fu fv (3 * k)
  have c3 := compOf_y1 fy fu fv (3 * k)
  have c4 := compOf_u fy fu fv (3 * k + 1)
  have c5 := compOf_y0 fy fu fv (3 * k + 1)
  have c6 := compOf_v fy fu fv (3 * k + 1)
  have c7 := compOf_y1 fy fu fv (3 * k + 1)
  have c8 := compOf_u fy fu fv (3 * k + 2)
  have c9 := compOf_y0 fy fu fv (3 * k + 2)
  have c10 := compOf_v fy fu fv (3 * k + 2)
  have c11 := compOf_y1 fy fu fv (3 * k + 2)
  ring_nf at c0 c1 c2 c3 c4 c5 c6 c7 c8 c9 c10 c11 ⊢
  refine ⟨?_, ?_, ?_, ?_⟩ <;>
  · simp only [wordOf]
    rw [if_pos (by omega), if_pos (by omega), if_pos (by omega)]
    ring_nf
    simp only [c0, c1, c2, c3, c4, c5, c6, c7, c8, c9, c10, c11]

/-- The words of a remainder of 2 (R130). -/
theorem wordOf_tail2 (fy fu fv : Nat → Nat) (k : Nat) :
    wordOf (compOf fy fu fv) (12 * k + 4) (4 * k) = packed (fu (3 * k)) (fy (6 * k)) (fv (3 * k)) ∧
    wordOf (compOf fy fu fv) (12 * k + 4) (4 * k + 1) = packed (fy (6 * k + 1)) 0 0 := by
  have c0 := compOf_u fy fu fv (3 * k)
  have c1 := compOf_y0 fy fu fv (3 * k)
  have c2 := compOf_v fy fu fv (3 * k)
  have c3 := compOf_y1 fy fu fv (3 * k)
  ring_nf at c0 c1 c2 c3 ⊢
  refine ⟨?_, ?_⟩
  · simp only [wordOf]
    rw [if_pos (by omega), if_pos (by omega), if_pos (by omega)]
    ring_nf
    simp only [c0, c1, c2]
  · simp only [wordOf]
    rw [if_pos (by omega), if_neg (by omega), if_neg (by omega)]
    ring_nf
    simp only [c3]

/-- The words of a remainder of 4 (R131). -/
theorem wordOf_tail4 (fy fu fv : Nat → Nat) (k : Nat) :
    wordOf (compOf fy fu fv) (12 * k + 8) (4 * k) = packed (fu (3 * k)) (fy (6 * k)) (fv (3 * k)) ∧
    wordOf (compOf fy fu fv) (12 * k + 8) (4 * k + 1) = packed (fy (6 * k + 1)) (fu (3 * k + 1)) (fy (6 * k + 2)) ∧
    wordOf (compOf fy fu fv) (12 * k + 8) (4 * k + 2) = packed (fv (3 * k + 1)) (fy (6 * k + 3)) 0 := by
  have c0 := compOf_u fy fu fv (3 * k)
  have c1 := compOf_y0 fy fu fv (3 * k)
  have c2 := compOf_v fy fu fv (3 * k)
  have c3 := compOf_y1 fy fu fv (3 * k)
  have c4 := compOf_u fy fu fv (3 * k + 1)
  have c5 := compOf_y0 fy fu fv (3 * k + 1)
  have c6 := compOf_v fy fu fv (3 * k + 1)
  have c7 := compOf_y1 fy fu fv (3 * k + 1)
  ring_nf at c0 c1 c2 c3 c4 c5 c6 c7 ⊢
  refine ⟨?_, ?_, ?_⟩
  · simp only [wordOf]
    rw [if_pos (by omega), if_pos (by omega), if_pos (by omega)]
    ring_nf
    simp only [c0, c1, c2]
  · simp only [wordOf]
    rw [if_pos (by omega), if_pos (by omega), if_pos (by omega)]
    ring_nf
    simp only [c3, c4, c5]
  · simp only [wordOf]
    rw [if_pos (by omega), if_pos (by omega), if_neg (by omega)]
    ring_nf
    simp only [c6, c7]

/-! ### What the content operation writes -/

theorem Apart.right {d : Depth} {y u v o y' u' v' o' : Nat} {s t : State}
    (h : Apart d (y + y') (u + u') (v + v') (o + o') s) (k : Packs d y u v o s t) : Apart d y' u' v' o' t where
  luma i hi := by
    rw [k.dp, k.work, WorkRegs.after_yp, BitVec.add_assoc, ← BitVec.ofNat_add]
    exact outside_right (h.luma _ (by rw [Nat.add_mul]; omega))
  chromaU i hi := by
    rw [k.dp, k.work, WorkRegs.after_up, BitVec.add_assoc, ← BitVec.ofNat_add]
    exact outside_right (h.chromaU _ (by rw [Nat.add_mul]; omega))
  chromaV i hi := by
    rw [k.dp, k.work, WorkRegs.after_vp, BitVec.add_assoc, ← BitVec.ofNat_add]
    exact outside_right (h.chromaV _ (by rw [Nat.add_mul]; omega))

theorem Apart.left {d : Depth} {y u v o y' u' v' o' : Nat} {s : State}
    (h : Apart d (y + y') (u + u') (v + v') (o + o') s) : Apart d y u v o s where
  luma i hi := outside_left (h.luma i (by rw [Nat.add_mul]; omega))
  chromaU i hi := outside_left (h.chromaU i (by rw [Nat.add_mul]; omega))
  chromaV i hi := outside_left (h.chromaV i (by rw [Nat.add_mul]; omega))

/-- A word written before another operation's output. -/
theorem Packs.keeps_word {d : Depth} {y u v o : Nat} {s t : State} (h : Packs d y u v o s t) (base : Addr) (k m : Nat)
    (hm : m < k) (hk : 4 * k + o ≤ 2 ^ 64) (hb : s.work.dp = base + BitVec.ofNat 64 (4 * k)) :
    t.loadLE 4 (base + BitVec.ofNat 64 (4 * m)) = s.loadLE 4 (base + BitVec.ofNat 64 (4 * m)) := by
  refine h.loadLE_before 4 (4 * k - 4 * m) (by omega) (by omega) _ ?_
  rw [hb, BitVec.add_assoc, ← BitVec.ofNat_add, show 4 * m + (4 * k - 4 * m) = 4 * k by omega]

/-- The words of `k` groups. -/
theorem groups_written {d : Depth} (k n : Nat) (hn : 12 * k ≤ n) (hk : 16 * k ≤ 2 ^ 64) {s t : State}
    (hv : s.work.val = 0) (ap : Apart d (6 * k) (3 * k) (3 * k) (16 * k) s)
    (h : repeatOp k (packGroup d) s = .next t) :
    ∀ m < 4 * k, t.loadLE 4 (s.work.dp + BitVec.ofNat 64 (4 * m)) = wordOf (s.nextComp d) n m := by
  induction k generalizing t with
  | zero => intro m hm; omega
  | succ k ih =>
    obtain ⟨r, hr, ht⟩ := repeatOp_prefix h
    have ap' : Apart d (6 * k + 6) (3 * k + 3) (3 * k + 3) (16 * k + 16) s := ap
    have p := groups_packs hv hr
    rw [repeatOp, repeatOp, andThen_ret] at ht
    have q := (doesPack_group d).packs r t ht
    have hdp := p.dp
    rw [show 16 * k = 4 * (4 * k) by omega] at hdp
    intro m hm
    by_cases hm4 : m < 4 * k
    · rw [q.keeps_word s.work.dp (4 * k) m hm4 (by omega) hdp]
      exact ih (by omega) (by omega) ap'.left hr m hm4
    · obtain ⟨w1, w2, w3, w4⟩ := group_written p.val (ap'.right p) ht
      obtain ⟨x1, x2, x3, x4⟩ := wordOf_group (s.nextField d .y) (s.nextField d .u) (s.nextField d .v) n k (by omega)
      have e : ∀ c i, i < used 6 3 3 c →
          r.nextField d c i = s.nextField d c (used (6 * k) (3 * k) (3 * k) c + i) := fun c i hi =>
        ap'.nextField p (by omega) c i (by cases c <;> simp only [used] at * <;> omega)
      have ey := fun i hi => e .y i hi
      have eu := fun i hi => e .u i hi
      have ev := fun i hi => e .v i hi
      simp only [used] at ey eu ev
      have hdp' : ∀ j, r.work.dp + BitVec.ofNat 64 (4 * j) = s.work.dp + BitVec.ofNat 64 (4 * (4 * k + j)) := by
        intro j
        rw [hdp, BitVec.add_assoc, ← BitVec.ofNat_add, Nat.mul_add]
      have hm' : m = 4 * k ∨ m = 4 * k + 1 ∨ m = 4 * k + 2 ∨ m = 4 * k + 3 := by omega
      rcases hm' with rfl | rfl | rfl | rfl
      · rw [← hdp, w1, State.nextComp, x1, eu 0 (by omega), ey 0 (by omega), ev 0 (by omega)]
        rfl
      · rw [← hdp' 1, w2, State.nextComp, x2, ey 1 (by omega), eu 1 (by omega), ey 2 (by omega)]
      · rw [← hdp' 2, w3, State.nextComp, x3, ev 1 (by omega), ey 3 (by omega), eu 2 (by omega)]
      · rw [← hdp' 3, w4, State.nextComp, x4, ey 4 (by omega), ev 2 (by omega), ey 5 (by omega)]

theorem contentBytes_eq (w : Nat) : contentBytes w = 16 * (w / 6) + 4 * tailWords (w % 6) := by
  unfold contentBytes contentWords; omega

/-- The samples and bytes of a line's content (R184). -/
theorem content_packs {d : Depth} {w : Nat} (he : w % 2 = 0) {s t : State} (hv : s.work.val = 0)
    (h : contentOp d w s = .next t) : Packs d w (w / 2) (w / 2) (contentBytes w) s t := by
  obtain ⟨r, hr, ht⟩ := andThen_next.mp h
  have p := groups_packs hv hr
  rw [contentBytes_eq]
  unfold tailOp at ht
  split at ht
  · rename_i h2
    have := p.compose ((doesPack_tail2 d).packs r t ht)
    rw [tailWords, if_pos h2]
    convert this using 1 <;> omega
  · rename_i h2
    split at ht
    · rename_i h4
      have := p.compose ((doesPack_tail4 d).packs r t ht)
      rw [tailWords, if_neg h2, if_pos h4]
      convert this using 1 <;> omega
    · rename_i h4
      obtain rfl := Host.Outcome.next.inj ht
      rw [tailWords, if_neg h2, if_neg h4]
      convert p using 1 <;> omega

theorem content_completes {d : Depth} {w : Nat} (he : w % 2 = 0) {s : State} (hv : s.work.val = 0)
    (h : Ready d w (w / 2) (w / 2) (contentBytes w) s) : ∃ t, contentOp d w s = .next t := by
  rw [contentBytes_eq] at h
  by_cases h2 : w % 6 = 2
  · rw [tailWords, if_pos h2] at h
    have h' : Ready d (6 * (w / 6) + 2) (3 * (w / 6) + 1) (3 * (w / 6) + 1) (16 * (w / 6) + 8) s := by
      convert h using 1 <;> omega
    obtain ⟨r, hr⟩ := groups_complete h'.left
    obtain ⟨t, ht⟩ := (doesPack_tail2 d).completes r (h'.right (groups_packs hv hr))
    refine ⟨t, andThen_next.mpr ⟨r, hr, ?_⟩⟩
    rw [tailOp, if_pos h2]
    exact ht
  · rw [tailWords, if_neg h2] at h
    by_cases h4 : w % 6 = 4
    · rw [if_pos h4] at h
      have h' : Ready d (6 * (w / 6) + 4) (3 * (w / 6) + 2) (3 * (w / 6) + 2) (16 * (w / 6) + 12) s := by
        convert h using 1 <;> omega
      obtain ⟨r, hr⟩ := groups_complete h'.left
      obtain ⟨t, ht⟩ := (doesPack_tail4 d).completes r (h'.right (groups_packs hv hr))
      refine ⟨t, andThen_next.mpr ⟨r, hr, ?_⟩⟩
      rw [tailOp, if_neg h2, if_pos h4]
      exact ht
    · rw [if_neg h4] at h
      have h' : Ready d (6 * (w / 6)) (3 * (w / 6)) (3 * (w / 6)) (16 * (w / 6)) s := by
        convert h using 1 <;> omega
      obtain ⟨r, hr⟩ := groups_complete h'
      refine ⟨r, andThen_next.mpr ⟨r, hr, ?_⟩⟩
      rw [tailOp, if_neg h2, if_neg h4]

/-- The content words of a line (R94). -/
theorem content_written {d : Depth} {w : Nat} (he : w % 2 = 0) (hw : w < 65536) {s t : State} (hv : s.work.val = 0)
    (ap : Apart d w (w / 2) (w / 2) (contentBytes w) s) (h : contentOp d w s = .next t) :
    ∀ m < contentWords w, t.loadLE 4 (s.work.dp + BitVec.ofNat 64 (4 * m)) = wordOf (s.nextComp d) (2 * w) m := by
  obtain ⟨r, hr, ht⟩ := andThen_next.mp h
  have p := groups_packs hv hr
  have hdp := p.dp
  have hsplit : ∀ a b o, w = 6 * (w / 6) + a → w / 2 = 3 * (w / 6) + b → contentBytes w = 16 * (w / 6) + o →
      Apart d (6 * (w / 6) + a) (3 * (w / 6) + b) (3 * (w / 6) + b) (16 * (w / 6) + o) s := by
    intro a b o h1 h2 h3
    rw [← h1, ← h2, ← h3]
    exact ap
  have hdp' : ∀ j, r.work.dp + BitVec.ofNat 64 (4 * j) = s.work.dp + BitVec.ofNat 64 (4 * (4 * (w / 6) + j)) := by
    intro j
    rw [hdp, BitVec.add_assoc, ← BitVec.ofNat_add, show 4 * (4 * (w / 6) + j) = 16 * (w / 6) + 4 * j by omega]
  have hdp0 : r.work.dp = s.work.dp + BitVec.ofNat 64 (4 * (4 * (w / 6))) := by
    rw [hdp, show 16 * (w / 6) = 4 * (4 * (w / 6)) by omega]
  unfold tailOp at ht
  intro m hm
  unfold contentWords tailWords at hm
  split at ht
  · rename_i h2
    rw [if_pos h2] at hm
    have ap' := hsplit 2 1 8 (by omega) (by omega) (by rw [contentBytes_eq, tailWords, if_pos h2])
    have q := (doesPack_tail2 d).packs r t ht
    by_cases hm4 : m < 4 * (w / 6)
    · rw [q.keeps_word s.work.dp _ m hm4 (by omega) hdp0]
      exact groups_written _ _ (by omega) (by omega) hv ap'.left hr m hm4
    · obtain ⟨w1, w2⟩ := tail2_written p.val (ap'.right p) ht
      obtain ⟨x1, x2⟩ := wordOf_tail2 (s.nextField d .y) (s.nextField d .u) (s.nextField d .v) (w / 6)
      rw [show 12 * (w / 6) + 4 = 2 * w by omega] at x1 x2
      have e : ∀ c i, i < used 2 1 1 c →
          r.nextField d c i = s.nextField d c (used (6 * (w / 6)) (3 * (w / 6)) (3 * (w / 6)) c + i) := fun c i hi =>
        ap'.nextField p (by omega) c i (by cases c <;> simp only [used] at * <;> omega)
      have ey := fun i hi => e .y i hi
      have eu := fun i hi => e .u i hi
      have ev := fun i hi => e .v i hi
      simp only [used] at ey eu ev
      have hm' : m = 4 * (w / 6) ∨ m = 4 * (w / 6) + 1 := by omega
      rcases hm' with rfl | rfl
      · rw [← hdp0, w1, State.nextComp, x1, eu 0 (by omega), ey 0 (by omega), ev 0 (by omega)]
        rfl
      · rw [← hdp' 1, w2, State.nextComp, x2, ey 1 (by omega)]
  · rename_i h2
    rw [if_neg h2] at hm
    split at ht
    · rename_i h4
      rw [if_pos h4] at hm
      have ap' := hsplit 4 2 12 (by omega) (by omega) (by rw [contentBytes_eq, tailWords, if_neg h2, if_pos h4])
      have q := (doesPack_tail4 d).packs r t ht
      by_cases hm4 : m < 4 * (w / 6)
      · rw [q.keeps_word s.work.dp _ m hm4 (by omega) hdp0]
        exact groups_written _ _ (by omega) (by omega) hv ap'.left hr m hm4
      · obtain ⟨w1, w2, w3⟩ := tail4_written p.val (ap'.right p) ht
        obtain ⟨x1, x2, x3⟩ := wordOf_tail4 (s.nextField d .y) (s.nextField d .u) (s.nextField d .v) (w / 6)
        rw [show 12 * (w / 6) + 8 = 2 * w by omega] at x1 x2 x3
        have e : ∀ c i, i < used 4 2 2 c →
            r.nextField d c i = s.nextField d c (used (6 * (w / 6)) (3 * (w / 6)) (3 * (w / 6)) c + i) := fun c i hi =>
          ap'.nextField p (by omega) c i (by cases c <;> simp only [used] at * <;> omega)
        have ey := fun i hi => e .y i hi
        have eu := fun i hi => e .u i hi
        have ev := fun i hi => e .v i hi
        simp only [used] at ey eu ev
        have hm' : m = 4 * (w / 6) ∨ m = 4 * (w / 6) + 1 ∨ m = 4 * (w / 6) + 2 := by omega
        rcases hm' with rfl | rfl | rfl
        · rw [← hdp0, w1, State.nextComp, x1, eu 0 (by omega), ey 0 (by omega), ev 0 (by omega)]
          rfl
        · rw [← hdp' 1, w2, State.nextComp, x2, ey 1 (by omega), eu 1 (by omega), ey 2 (by omega)]
        · rw [← hdp' 2, w3, State.nextComp, x3, ev 1 (by omega), ey 3 (by omega)]
    · rename_i h4
      rw [if_neg h4] at hm
      obtain rfl := Host.Outcome.next.inj ht
      have ap' := hsplit 0 0 0 (by omega) (by omega) (by rw [contentBytes_eq, tailWords, if_neg h2, if_neg h4])
      exact groups_written _ _ (by omega) (by omega) hv ap'.left hr m (by omega)

/-- A byte of a stored word. -/
theorem byte_of_loadLE (s : State) (a : Addr) (k : Nat) (hk : k < 4) :
    (s.byteAt (a + BitVec.ofNat 64 k)).toNat = s.loadLE 4 a / 256 ^ k % 256 := by
  have h0 := (s.byteAt a).isLt
  have h1 := (s.byteAt (a + 1)).isLt
  have h2 := (s.byteAt (a + BitVec.ofNat 64 2)).isLt
  have h3 := (s.byteAt (a + BitVec.ofNat 64 3)).isLt
  have e2 : (1 : Addr) + 1 = BitVec.ofNat 64 2 := rfl
  have e3 : BitVec.ofNat 64 2 + (1 : Addr) = BitVec.ofNat 64 3 := rfl
  have e1 : BitVec.ofNat 64 1 = (1 : Addr) := rfl
  simp only [State.loadLE, BitVec.add_assoc, e2, e3]
  interval_cases k
  · simp only [BitVec.add_zero]
    omega
  · rw [e1]; omega
  · omega
  · omega

end Sys2Proof.Machine
end

