-- ==== Sys2Proof/Laws/PerInstr.lean ====
section
/-! SUPPORT. One lemma per constructor of `Instr` about its encoding: the `OPC` field of its word is the one R104 gives it and
the bits that every format keeps at 0 are 0 (R96); a host command's word is below 8 (R108). -/

namespace Sys2Proof.Laws.EncodeFields

/-- What the word of a well-formed instruction shows in its fixed fields. -/
def Statement (i : Instr) : Prop :=
  i.wf = true →
    bits (encode i) 22 16 = 0 ∧
    match i.opc with
    | some k => bits (encode i) 31 28 = k
    | none => (encode i).toNat < 8

/-- The fixed fields of a word built from fields that fit. -/
theorem fixed_fields {opc d sel src n : Nat} (h1 : opc < 16) (h2 : d < 2) (h3 : sel < 4) (h4 : src < 4) (h5 : n < 65536) :
    bits (packFields opc d sel src n) 22 16 = 0 ∧ bits (packFields opc d sel src n) 31 28 = opc := by
  simp only [bits, toNat_packFields h1 h2 h3 h4 h5]
  omega

theorem nop : Statement .nop := fun _ =>
  fixed_fields (by decide) (by decide) (by decide) (by decide) (by decide)

theorem acc (d : Depth) (slot : Slot) (src : Src) : Statement (.acc d slot src) := fun _ =>
  fixed_fields (by decide) (Depth.code_lt d) (Slot.code_lt slot) (Src.code_lt src) (by decide)

theorem flush : Statement .flush := fun _ =>
  fixed_fields (by decide) (by decide) (by decide) (by decide) (by decide)

theorem word (d : Depth) (pat : Pat) : Statement (.word d pat) := fun _ =>
  fixed_fields (by decide) (Depth.code_lt d) (Pat.code_lt pat) (by decide) (by decide)

theorem group (d : Depth) : Statement (.group d) := fun _ =>
  fixed_fields (by decide) (Depth.code_lt d) (by decide) (by decide) (by decide)

theorem bulk (d : Depth) (n : Nat) : Statement (.bulk d n) := fun h =>
  fixed_fields (by decide) (Depth.code_lt d) (by decide) (by decide) (of_decide_eq_true h)

theorem tail2 (d : Depth) : Statement (.tail2 d) := fun _ =>
  fixed_fields (by decide) (Depth.code_lt d) (by decide) (by decide) (by decide)

theorem tail4 (d : Depth) : Statement (.tail4 d) := fun _ =>
  fixed_fields (by decide) (Depth.code_lt d) (by decide) (by decide) (by decide)

theorem zfill (n : Nat) : Statement (.zfill n) := fun h =>
  fixed_fields (by decide) (by decide) (by decide) (by decide) (of_decide_eq_true h)

theorem rowsel : Statement .rowsel := fun _ =>
  fixed_fields (by decide) (by decide) (by decide) (by decide) (by decide)

theorem rowadv : Statement .rowadv := fun _ =>
  fixed_fields (by decide) (by decide) (by decide) (by decide) (by decide)

theorem init : Statement .init := fun _ => ⟨by decide, show (encode .init).toNat < 8 by decide⟩

theorem start : Statement .start := fun _ => ⟨by decide, show (encode .start).toNat < 8 by decide⟩

theorem ack : Statement .ack := fun _ => ⟨by decide, show (encode .ack).toNat < 8 by decide⟩

end Sys2Proof.Laws.EncodeFields
end

