-- ==== Sys2Proof/Laws/Run.lean ====
section
/-! SUPPORT. A run row by row: where the pointers stand at the start of each row (R180), what the rows done so far have
written (R181), and the run as its line operations (R178, R179). -/

namespace Sys2Proof.Machine

/-! ### Addresses of a run -/

/-- The first sample of the chroma row that row `h` uses (R180). -/
def chromaRow (f : FrameRegs) (base stride : Addr) (h : Nat) : Addr := base + BitVec.ofNat 64 (crow f h) * stride

/-- A chroma pointer at the start of row `h`, before `ROWSEL` (R180's proof sketch). -/
def chromaStart (f : FrameRegs) (base stride : Addr) (h : Nat) : Addr :=
  base + BitVec.ofNat 64 (if f.fmt = 1 then (h + 1) / 2 else h) * stride

/-- The first byte of output line `h` (R181). -/
def lineBase (s : State) (h : Nat) : Addr := s.frame.dstBase + BitVec.ofNat 64 (h * lineStrideOf s.frame.width.toNat)

/-- A span that does not wrap is an interval of addresses (R75). -/
theorem inSpan_iff_of_noWrap {start : Addr} {len : Nat} (h : noWrap start len) (a : Addr) :
    inSpan a start len = true ↔ start.toNat ≤ a.toNat ∧ a.toNat < start.toNat + len := by
  unfold noWrap at h
  have := a.isLt
  have := start.isLt
  rw [inSpan, decide_eq_true_eq, BitVec.toNat_sub]
  omega

/-- In a plane that does not wrap, the modular address of a byte is the integer one (R24, R251). -/
theorem planeInSpace_toNat {base stride : Addr} {step : Int} {rows len : Nat} (hs : BitVec.ofInt 64 step = stride)
    (p : planeInSpace base step rows len) {h i : Nat} (hh : h < rows) (hi : i < len) :
    ((base + BitVec.ofNat 64 h * stride + BitVec.ofNat 64 i).toNat : Int) = base.toNat + h * step + i := by
  obtain ⟨h0, h1⟩ := p h i hh hi
  have e : base + BitVec.ofNat 64 h * stride + BitVec.ofNat 64 i = BitVec.ofInt 64 (base.toNat + h * step + i) := by
    rw [BitVec.ofInt_add, BitVec.ofInt_add, BitVec.ofInt_mul, hs, BitVec.ofInt_natCast, BitVec.ofInt_natCast,
      BitVec.ofInt_natCast, BitVec.ofNat_toNat, BitVec.setWidth_eq]
  rw [e, BitVec.toNat_ofInt, Int.emod_eq_of_lt h0 (by exact_mod_cast h1), Int.toNat_of_nonneg h0]

/-- A plane that does not wrap has a step, congruent to its stride, under which it stays in the address space. -/
theorem planeNoWrap_cases {base stride : Addr} {rows len : Nat} (p : planeNoWrap base stride rows len) :
    ∃ step : Int, BitVec.ofInt 64 step = stride ∧ planeInSpace base step rows len := by
  rcases p with p | p
  · exact ⟨_, by rw [BitVec.ofInt_natCast, BitVec.ofNat_toNat, BitVec.setWidth_eq], p⟩
  · exact ⟨_, BitVec.ofInt_toInt, p⟩

/-- No row of a plane that does not wrap goes past the last address: the rule of R75. -/
theorem planeNoWrap_row {base stride : Addr} {rows len h : Nat} (p : planeNoWrap base stride rows len) (hh : h < rows) :
    noWrap (base + BitVec.ofNat 64 h * stride) len := by
  obtain ⟨step, hs, q⟩ := planeNoWrap_cases p
  unfold noWrap
  cases len with
  | zero => exact Nat.le_of_lt (BitVec.isLt _)
  | succ n =>
    have e := planeInSpace_toNat hs q hh (Nat.succ_pos n)
    have := (q h n hh (Nat.lt_succ_self n)).2
    rw [BitVec.add_zero] at e
    push_cast at *
    omega

theorem next_row (base stride : Addr) (h : Nat) :
    base + BitVec.ofNat 64 h * stride + stride = base + BitVec.ofNat 64 (h + 1) * stride := by
  rw [BitVec.ofNat_add]
  change _ = base + (BitVec.ofNat 64 h + 1) * stride
  ring

theorem nextRow_after (p stride : Addr) (n : Nat) : nextRow (p + BitVec.ofNat 64 n) stride n = p + stride := by
  unfold nextRow
  ring

/-- Moving on a chroma row by one stride. -/
theorem chromaRow_next (f : FrameRegs) (base stride : Addr) (h : Nat) :
    chromaRow f base stride h + stride = chromaStart f base stride (h + 1) := by
  unfold chromaRow chromaStart crow
  rw [next_row]
  split
  · rw [show (h + 1 + 1) / 2 = h / 2 + 1 by omega]
  · rfl

theorem lineBase_next (s : State) (h : Nat) :
    lineBase s h + BitVec.ofNat 64 (lineStrideOf s.frame.width.toNat) = lineBase s (h + 1) := by
  unfold lineBase
  rw [BitVec.add_assoc, ← BitVec.ofNat_add, Nat.succ_mul]

/-- A byte of a line of the frame lies in the destination region. -/
theorem inDest_line {s : State} (hs : SetupValid s) {h j : Nat} (hh : h < s.frame.height.toNat)
    (hj : j < lineStrideOf s.frame.width.toNat) : inDest s (lineBase s h + BitVec.ofNat 64 j) = true := by
  have hlt := frameSizeOf_lt _ _ s.frame.width.isLt s.frame.height.isLt
  have hle : h * lineStrideOf s.frame.width.toNat + j < frameSizeOf s.frame.width.toNat s.frame.height.toNat := by
    unfold frameSizeOf
    calc h * lineStrideOf s.frame.width.toNat + j < (h + 1) * lineStrideOf s.frame.width.toNat := by
          rw [Nat.succ_mul]; omega
      _ ≤ _ := Nat.mul_le_mul_right _ hh
  unfold inDest inSpan lineBase
  rw [BitVec.add_assoc, ← BitVec.ofNat_add, add_ofNat_sub _ _ (by omega), hs.frameSize]
  simpa using hle

/-- A byte of a row of a plane lies in the plane. -/
theorem inPlane_row {base stride : Addr} {rows len h i : Nat} (hh : h < rows) (hi : i < len) :
    inPlane (base + BitVec.ofNat 64 h * stride + BitVec.ofNat 64 i) base stride rows len = true := by
  unfold inPlane
  rw [List.any_eq_true]
  refine ⟨h, by simpa using hh, ?_⟩
  unfold inSpan
  have : (base + BitVec.ofNat 64 h * stride + BitVec.ofNat 64 i - (base + BitVec.ofNat 64 h * stride)).toNat ≤ i := by
    rw [BitVec.add_comm, BitVec.add_sub_cancel, BitVec.toNat_ofNat]
    exact Nat.mod_le _ _
  simpa using Nat.lt_of_le_of_lt this hi

theorem crow_lt {f : FrameRegs} {h : Nat} (hh : h < f.height.toNat) : crow f h < chromaRows f := by
  unfold crow chromaRows ceilDiv
  split <;> omega

/-- The bytes a row reads lie in the source regions (R73). -/
theorem inSource_luma {f : FrameRegs} {h i : Nat} (hh : h < f.height.toNat) (hi : i < lumaRowBytes f) :
    inSource f (f.yBase + BitVec.ofNat 64 h * f.yStride + BitVec.ofNat 64 i) = true := by
  rw [inSource, inPlane_row hh hi]
  rfl

theorem inSource_u {f : FrameRegs} {h i : Nat} (hh : h < f.height.toNat) (hi : i < chromaRowBytes f) :
    inSource f (chromaRow f f.uBase f.uStride h + BitVec.ofNat 64 i) = true := by
  have := inPlane_row (base := f.uBase) (stride := f.uStride) (crow_lt hh) hi
  rw [inSource, chromaRow, this]
  simp

theorem inSource_v {f : FrameRegs} {h i : Nat} (hh : h < f.height.toNat) (hi : i < chromaRowBytes f) :
    inSource f (chromaRow f f.vBase f.vStride h + BitVec.ofNat 64 i) = true := by
  have := inPlane_row (base := f.vBase) (stride := f.vStride) (crow_lt hh) hi
  rw [inSource, chromaRow, this]
  simp

/-! ### The start of a row in a run -/

/-- `s` is the state of the run from `s₀` at the start of row `h`: everything but the working registers, the row and the
destination bytes is as in `s₀`, and the pointers stand where R180 says. -/
structure RowAt (s₀ : State) (h : Nat) (s : State) : Prop where
  rest : KeepsRest (s₀.setSeq ⟨BitVec.ofNat 16 h, .chk, 0⟩) s
  val : s.work.val = 0
  yp : s.work.yp = s₀.frame.yBase + BitVec.ofNat 64 h * s₀.frame.yStride
  up : s.work.up = chromaStart s₀.frame s₀.frame.uBase s₀.frame.uStride h
  vp : s.work.vp = chromaStart s₀.frame s₀.frame.vBase s₀.frame.vStride h
  dp : s.work.dp = lineBase s₀ h
  captured : s₀.frame.fmt = 1 → 0 < h →
    s.work.uc = chromaRow s₀.frame s₀.frame.uBase s₀.frame.uStride (h - 1) ∧
    s.work.vc = chromaRow s₀.frame s₀.frame.vBase s₀.frame.vStride (h - 1)
  uncaptured : s₀.frame.fmt ≠ 1 ∨ h = 0 → s.work.uc = s₀.work.uc ∧ s.work.vc = s₀.work.vc
  bytes : ∀ a, inDest s₀ a = false → s.byteAt a = s₀.byteAt a
  wf : Memory.wf s.mem

theorem RowAt.frame {s₀ : State} {h : Nat} {s : State} (r : RowAt s₀ h s) : s.frame = s₀.frame := r.rest.frame

/-- After `ROWSEL` the chroma pointers stand at the row's chroma row (R162, R180). -/
theorem rowsel_at {s₀ : State} {h : Nat} {s : State} (hh : h < 65536) (r : RowAt s₀ h s) :
    (rowselResult s).work.yp = s.work.yp ∧ (rowselResult s).work.dp = s.work.dp ∧ (rowselResult s).work.val = 0 ∧
    (rowselResult s).work.up = chromaRow s₀.frame s₀.frame.uBase s₀.frame.uStride h ∧
    (rowselResult s).work.vp = chromaRow s₀.frame s₀.frame.vBase s₀.frame.vStride h ∧
    (s₀.frame.fmt = 1 →
      (rowselResult s).work.uc = chromaRow s₀.frame s₀.frame.uBase s₀.frame.uStride h ∧
      (rowselResult s).work.vc = chromaRow s₀.frame s₀.frame.vBase s₀.frame.vStride h) ∧
    (s₀.frame.fmt ≠ 1 → (rowselResult s).work.uc = s.work.uc ∧ (rowselResult s).work.vc = s.work.vc) := by
  have hrow : s.seq.row.toNat = h := by
    rw [r.rest.seq, State.setSeq_seq, BitVec.toNat_ofNat, Nat.mod_eq_of_lt (by omega)]
  unfold rowselResult
  rw [r.frame, hrow]
  by_cases hf : s₀.frame.fmt = 1
  · rw [if_pos hf]
    by_cases h2 : h % 2 = 0
    · rw [if_pos h2]
      have hu : s.work.up = chromaRow s₀.frame s₀.frame.uBase s₀.frame.uStride h := by
        rw [r.up, chromaStart, chromaRow, crow, if_pos hf, if_pos hf, show (h + 1) / 2 = h / 2 by omega]
      have hv : s.work.vp = chromaRow s₀.frame s₀.frame.vBase s₀.frame.vStride h := by
        rw [r.vp, chromaStart, chromaRow, crow, if_pos hf, if_pos hf, show (h + 1) / 2 = h / 2 by omega]
      exact ⟨rfl, rfl, r.val, hu, hv, fun _ => ⟨hu, hv⟩, fun h => absurd hf h⟩
    · rw [if_neg h2]
      obtain ⟨hu, hv⟩ := r.captured hf (by omega)
      have e : ∀ base stride, chromaRow s₀.frame base stride (h - 1) = chromaRow s₀.frame base stride h := by
        intro base stride
        simp only [chromaRow, crow, if_pos hf, show (h - 1) / 2 = h / 2 by omega]
      rw [e] at hu hv
      exact ⟨rfl, rfl, r.val, hu, hv, fun _ => ⟨hu, hv⟩, fun h => absurd hf h⟩
  · rw [if_neg hf]
    refine ⟨rfl, rfl, r.val, ?_, ?_, fun h => absurd h hf, fun _ => ⟨rfl, rfl⟩⟩
    · rw [r.up, chromaStart, chromaRow, crow, if_neg hf, if_neg hf]
    · rw [r.vp, chromaStart, chromaRow, crow, if_neg hf, if_neg hf]

section
variable {s₀ : State} (hs : SetupValid s₀)
include hs

/-- The content and padding of a line are the line (R18, R184). -/
theorem content_add_pad : contentBytes s₀.frame.width.toNat + linePadOf s₀.frame.width.toNat =
    lineStrideOf s₀.frame.width.toNat := by
  have := contentBytes_le _ hs.evenWidth
  unfold linePadOf
  omega

/-- A row of a run whose buffers are provided completes, at the start of the next row (R163, R180, R184). -/
theorem row_completes (hp : BuffersProvided s₀) {h : Nat} (hh : h < s₀.frame.height.toNat) {s : State}
    (r : RowAt s₀ h s) :
    ∃ c t, contentOp (depthOfFmt s₀.frame.fmt) s₀.frame.width.toNat (rowselResult s) = .next c ∧
      Packs (depthOfFmt s₀.frame.fmt) s₀.frame.width.toNat (s₀.frame.width.toNat / 2) (s₀.frame.width.toNat / 2)
        (contentBytes s₀.frame.width.toNat) (rowselResult s) c ∧
      t = rowadvResult (zfillResult (linePadOf s₀.frame.width.toNat) c) ∧
      lineOp (depthOfFmt s₀.frame.fmt) s₀.frame.width.toNat s = .next t ∧ RowAt s₀ (h + 1) t := by
  have hhlt := s₀.frame.height.isLt
  obtain ⟨e1, e2, e3, e4, e5, e6, e7⟩ := rowsel_at (by omega) r
  have kr := (rowselResult_keeps s)
  have hregs : (rowselResult s).regions = s₀.regions := kr.rest.regions.trans r.rest.regions
  have hpad := content_add_pad hs
  have hsplit := hs.evenWidth
  have canRead : ∀ a, inSource s₀.frame a = true → (rowselResult s).canRead a = true := by
    intro a ha
    have := hp.sources a ha
    simpa only [State.canRead, hregs] using this
  have canWrite : ∀ j, j < lineStrideOf s₀.frame.width.toNat →
      (rowselResult s).canWrite (lineBase s₀ h + BitVec.ofNat 64 j) = true := by
    intro j hj
    have := hp.dest _ (inDest_line hs hh hj)
    simpa only [State.canWrite, hregs] using this
  have hready : Ready (depthOfFmt s₀.frame.fmt) s₀.frame.width.toNat (s₀.frame.width.toNat / 2)
      (s₀.frame.width.toNat / 2) (contentBytes s₀.frame.width.toNat) (rowselResult s) := by
    refine ⟨?_, ?_, ?_, ?_⟩
    · rw [readable_iff, e1, r.yp]
      intro i hi
      exact canRead _ (inSource_luma hh hi)
    · rw [readable_iff, e4]
      intro i hi
      exact canRead _ (inSource_u hh hi)
    · rw [readable_iff, e5]
      intro i hi
      exact canRead _ (inSource_v hh hi)
    · rw [writable_iff, e2, r.dp]
      intro i hi
      exact canWrite i (by omega)
  obtain ⟨c, hc⟩ := content_completes hs.evenWidth e3 hready
  have p := content_packs hs.evenWidth e3 hc
  have hdp : c.work.dp = lineBase s₀ h + BitVec.ofNat 64 (contentBytes s₀.frame.width.toNat) := by
    rw [p.dp, e2, r.dp]
  have hw : c.writable c.work.dp (linePadOf s₀.frame.width.toNat) = true := by
    rw [writable_congr p.rest.regions, writable_iff, hdp]
    intro i hi
    rw [BitVec.add_assoc, ← BitVec.ofNat_add]
    exact canWrite _ (by omega)
  refine ⟨c, _, hc, p, rfl, ?_, ?_⟩
  · rw [lineOp, andThen_of_next (execRowsel_eq s), andThen_of_next hc, andThen_of_next (execZfill_next.mpr ⟨hw, rfl⟩)]
    rfl
  have kz := zfillResult_keeps (linePadOf s₀.frame.width.toNat) c
  have krest := (r.rest.trans' kr.rest).trans' (p.rest.trans' kz.rest)
  have hfr : (zfillResult (linePadOf s₀.frame.width.toNat) c).frame = s₀.frame := krest.frame
  have hwk : (zfillResult (linePadOf s₀.frame.width.toNat) c).work =
      c.work.setDp (c.work.dp + BitVec.ofNat 64 (linePadOf s₀.frame.width.toNat)) := rfl
  have hbps : bps (depthOfFmt s₀.frame.fmt) = bpsOfFmt s₀.frame.fmt := rfl
  have huc : (rowadvResult (zfillResult (linePadOf s₀.frame.width.toNat) c)).work.uc = (rowselResult s).work.uc := by
    change c.work.uc = _
    rw [p.work]
    rfl
  have hvc : (rowadvResult (zfillResult (linePadOf s₀.frame.width.toNat) c)).work.vc = (rowselResult s).work.vc := by
    change c.work.vc = _
    rw [p.work]
    rfl
  refine ⟨?_, ?_, ?_, ?_, ?_, ?_, ?_, ?_, ?_, ?_⟩
  · refine ⟨?_, krest.flags, krest.frame, krest.derived, krest.variant, krest.regions, krest.inputs, krest.reply,
      krest.freeCount⟩
    rw [rowadvResult, State.setSeq_seq, krest.seq, State.setSeq_seq, State.setSeq_seq, BitVec.ofNat_add]
    rfl
  · change c.work.val = 0
    exact p.val
  · simp only [rowadvResult, State.setSeq_work, State.setWork_work, hfr, hwk, WorkRegs.setDp_yp, p.work,
      WorkRegs.after_yp, e1, r.yp, lumaRowBytes, hbps]
    rw [nextRow_after, next_row]
  · simp only [rowadvResult, State.setSeq_work, State.setWork_work, hfr, hwk, WorkRegs.setDp_up, p.work,
      WorkRegs.after_up, e4, chromaRowBytes, hbps]
    rw [nextRow_after, chromaRow_next]
  · simp only [rowadvResult, State.setSeq_work, State.setWork_work, hfr, hwk, WorkRegs.setDp_vp, p.work,
      WorkRegs.after_vp, e5, chromaRowBytes, hbps]
    rw [nextRow_after, chromaRow_next]
  · simp only [rowadvResult, State.setSeq_work, State.setWork_work, hwk, WorkRegs.setDp_dp, hdp]
    rw [BitVec.add_assoc, ← BitVec.ofNat_add, hpad, lineBase_next]
  · intro hf _
    rw [huc, hvc]
    exact e6 hf
  · intro h0
    have hf : s₀.frame.fmt ≠ 1 := h0.resolve_right (Nat.succ_ne_zero h)
    rw [huc, hvc, (e7 hf).1, (e7 hf).2]
    exact r.uncaptured (.inl hf)
  · intro a ha
    have hout : ∀ k n, k + n ≤ lineStrideOf s₀.frame.width.toNat → outside a (lineBase s₀ h + BitVec.ofNat 64 k) n := by
      intro k n hk
      by_contra hlt
      unfold outside at hlt
      have hj : k + (a - (lineBase s₀ h + BitVec.ofNat 64 k)).toNat < lineStrideOf s₀.frame.width.toNat := by omega
      have := inDest_line hs hh hj
      have e : lineBase s₀ h + BitVec.ofNat 64 (k + (a - (lineBase s₀ h + BitVec.ofNat 64 k)).toNat) = a := by
        rw [BitVec.ofNat_add, BitVec.ofNat_toNat, BitVec.setWidth_eq]
        ring
      rw [e, ha] at this
      cases this
    change (zfillResult (linePadOf s₀.frame.width.toNat) c).byteAt a = _
    have h1 := hout (contentBytes s₀.frame.width.toNat) (linePadOf s₀.frame.width.toNat) (by omega)
    have h2 := hout 0 (contentBytes s₀.frame.width.toNat) (by omega)
    rw [← hdp] at h1
    unfold outside at h1
    rw [zfillResult, byteAt_setWork, byteAt_storeZeros, if_neg (by omega), p.bytes a, rowselResult_work_eq,
      byteAt_setWork, r.bytes a ha]
    rw [e2, r.dp]
    simpa only [BitVec.add_zero] using h2
  · exact kz.wf (p.wf (kr.wf r.wf))

end

/-! ### The bytes of a line -/

/-- A byte of a row, in the line or in an earlier one, is outside the bytes a later line writes. -/
theorem lineByte_content {s : State} {h j : Nat} (hj : j < contentBytes s.frame.width.toNat) :
    lineByte s h j = lineWord s h (j / 4) / 256 ^ (j % 4) % 256 := by
  rw [lineByte, if_pos hj]

/-- The components a row's samples give are those of R94 and R180. -/
theorem nextComp_row {s₀ : State} {h : Nat} {s : State} (hh : h < s₀.frame.height.toNat) (r : RowAt s₀ h s)
    (hd : BuffersDisjoint s₀) (i : Nat) (hi : i < 2 * s₀.frame.width.toNat) (he : s₀.frame.width.toNat % 2 = 0) :
    (rowselResult s).nextComp (depthOfFmt s₀.frame.fmt) i = field (depthOfFmt s₀.frame.fmt) (component s₀ h i) := by
  have hhlt := s₀.frame.height.isLt
  obtain ⟨e1, e2, e3, e4, e5, -, -⟩ := rowsel_at (by omega) r
  have hb : ∀ a, inSource s₀.frame a = true → (rowselResult s).byteAt a = s₀.byteAt a := by
    intro a ha
    rw [rowselResult_work_eq, byteAt_setWork]
    apply r.bytes
    by_contra hne
    have := hd a (by simpa using hne)
    rw [ha] at this
    cases this
  have hbps : bps (depthOfFmt s₀.frame.fmt) = bpsOfFmt s₀.frame.fmt := rfl
  have hmul : ∀ {x n k : Nat}, x < n → k < bpsOfFmt s₀.frame.fmt → x * bpsOfFmt s₀.frame.fmt + k <
      n * bpsOfFmt s₀.frame.fmt := by
    intro x n k hx hk
    calc x * bpsOfFmt s₀.frame.fmt + k < (x + 1) * bpsOfFmt s₀.frame.fmt := by rw [Nat.succ_mul]; omega
      _ ≤ _ := Nat.mul_le_mul_right _ hx
  have hy : ∀ x, x < s₀.frame.width.toNat →
      (rowselResult s).nextField (depthOfFmt s₀.frame.fmt) .y x =
        field (depthOfFmt s₀.frame.fmt)
          (s₀.sampleAt (depthOfFmt s₀.frame.fmt) (sampleAddr s₀.frame s₀.frame.yBase s₀.frame.yStride h x)) := by
    intro x hx
    rw [State.nextField, WorkRegs.ptr_y, e1, r.yp, hbps]
    congr 1
    apply sampleAt_congr
    intro k hk
    apply hb
    rw [BitVec.add_assoc, ← BitVec.ofNat_add]
    exact inSource_luma hh (hmul hx hk)
  have hu : ∀ x, x < s₀.frame.width.toNat / 2 →
      (rowselResult s).nextField (depthOfFmt s₀.frame.fmt) .u x =
        field (depthOfFmt s₀.frame.fmt)
          (s₀.sampleAt (depthOfFmt s₀.frame.fmt)
            (sampleAddr s₀.frame s₀.frame.uBase s₀.frame.uStride (crow s₀.frame h) x)) := by
    intro x hx
    rw [State.nextField, WorkRegs.ptr_u, e4, hbps]
    congr 1
    apply sampleAt_congr
    intro k hk
    apply hb
    rw [BitVec.add_assoc, ← BitVec.ofNat_add]
    exact inSource_u hh (hmul hx hk)
  have hv : ∀ x, x < s₀.frame.width.toNat / 2 →
      (rowselResult s).nextField (depthOfFmt s₀.frame.fmt) .v x =
        field (depthOfFmt s₀.frame.fmt)
          (s₀.sampleAt (depthOfFmt s₀.frame.fmt)
            (sampleAddr s₀.frame s₀.frame.vBase s₀.frame.vStride (crow s₀.frame h) x)) := by
    intro x hx
    rw [State.nextField, WorkRegs.ptr_v, e5, hbps]
    congr 1
    apply sampleAt_congr
    intro k hk
    apply hb
    rw [BitVec.add_assoc, ← BitVec.ofNat_add]
    exact inSource_v hh (hmul hx hk)
  simp only [State.nextComp, compOf, component]
  split
  · exact hu _ (by omega)
  · split
    · exact hy _ (by omega)
    · split
      · exact hv _ (by omega)
      · exact hy _ (by omega)

/-- The words of a row's content are the words of R94. -/
theorem wordOf_row {s₀ : State} {h : Nat} {s : State} (hh : h < s₀.frame.height.toNat) (r : RowAt s₀ h s)
    (hd : BuffersDisjoint s₀) (he : s₀.frame.width.toNat % 2 = 0) (m : Nat) :
    wordOf ((rowselResult s).nextComp (depthOfFmt s₀.frame.fmt)) (2 * s₀.frame.width.toNat) m = lineWord s₀ h m := by
  have e : ∀ i, (if i < 2 * s₀.frame.width.toNat then (rowselResult s).nextComp (depthOfFmt s₀.frame.fmt) i else 0) =
      slotField s₀ h i := by
    intro i
    unfold slotField
    split
    · exact nextComp_row hh r hd i (by assumption) he
    · rfl
  simp only [wordOf, lineWord, e]

/-- The samples of a row and the bytes of its line do not meet (R75). -/
theorem apart_row {s₀ : State} (hs : SetupValid s₀) {h : Nat} {s : State} (hh : h < s₀.frame.height.toNat)
    (r : RowAt s₀ h s) (hd : BuffersDisjoint s₀) :
    Apart (depthOfFmt s₀.frame.fmt) s₀.frame.width.toNat (s₀.frame.width.toNat / 2) (s₀.frame.width.toNat / 2)
      (contentBytes s₀.frame.width.toNat) (rowselResult s) := by
  have hhlt := s₀.frame.height.isLt
  obtain ⟨e1, e2, e3, e4, e5, -, -⟩ := rowsel_at (by omega) r
  have hle := contentBytes_le _ hs.evenWidth
  have hout : ∀ a, inSource s₀.frame a = true →
      outside a (rowselResult s).work.dp (contentBytes s₀.frame.width.toNat) := by
    intro a ha
    by_contra hlt
    unfold outside at hlt
    rw [e2, r.dp] at hlt
    have := inDest_line hs hh (show (a - lineBase s₀ h).toNat < lineStrideOf s₀.frame.width.toNat by omega)
    have e : lineBase s₀ h + BitVec.ofNat 64 (a - lineBase s₀ h).toNat = a := by
      rw [BitVec.ofNat_toNat, BitVec.setWidth_eq]
      ring
    rw [e] at this
    have := hd a this
    rw [ha] at this
    cases this
  refine ⟨?_, ?_, ?_⟩
  · intro i hi
    rw [e1, r.yp]
    exact hout _ (inSource_luma hh hi)
  · intro i hi
    rw [e4]
    exact hout _ (inSource_u hh hi)
  · intro i hi
    rw [e5]
    exact hout _ (inSource_v hh hi)

/-- The lines written before row `h` are those of R94. -/
def LinesDone (s₀ : State) (h : Nat) (s : State) : Prop :=
  ∀ h' j, h' < h → j < lineStrideOf s₀.frame.width.toNat →
    (s.byteAt (lineBase s₀ h' + BitVec.ofNat 64 j)).toNat = lineByte s₀ h' j

/-- A row of a run whose buffers are provided and disjoint writes its line and keeps those before it (R181). -/
theorem row_lines {s₀ : State} (hs : SetupValid s₀) (hp : BuffersProvided s₀) (hd : BuffersDisjoint s₀) {h : Nat}
    (hh : h < s₀.frame.height.toNat) {s t : State} (r : RowAt s₀ h s) (hl : LinesDone s₀ h s)
    (ht : lineOp (depthOfFmt s₀.frame.fmt) s₀.frame.width.toNat s = .next t) : LinesDone s₀ (h + 1) t := by
  obtain ⟨c, t', hc, p, rfl, ht', -⟩ := row_completes hs hp hh r
  rw [ht] at ht'
  obtain rfl := Host.Outcome.next.inj ht'
  have hhlt := s₀.frame.height.isLt
  have hwlt := s₀.frame.width.isLt
  obtain ⟨e1, e2, e3, -, -, -, -⟩ := rowsel_at (by omega) r
  have hpad := content_add_pad hs
  have hfs := frameSizeOf_lt _ _ s₀.frame.width.isLt s₀.frame.height.isLt
  have hdp : c.work.dp = lineBase s₀ h + BitVec.ofNat 64 (contentBytes s₀.frame.width.toNat) := by
    rw [p.dp, e2, r.dp]
  have hz : ∀ a, (rowadvResult (zfillResult (linePadOf s₀.frame.width.toNat) c)).byteAt a =
      if (a - c.work.dp).toNat < linePadOf s₀.frame.width.toNat then 0 else c.byteAt a := by
    intro a
    change (zfillResult (linePadOf s₀.frame.width.toNat) c).byteAt a = _
    rw [zfillResult, byteAt_setWork, byteAt_storeZeros]
  intro h' j hh' hj
  rw [hz]
  by_cases heq : h' = h
  · subst heq
    by_cases hjc : j < contentBytes s₀.frame.width.toNat
    · have hneg : ¬ (lineBase s₀ h' + BitVec.ofNat 64 j - c.work.dp).toNat < linePadOf s₀.frame.width.toNat := by
        have e : lineBase s₀ h' + BitVec.ofNat 64 j - c.work.dp =
            BitVec.ofNat 64 j - BitVec.ofNat 64 (contentBytes s₀.frame.width.toNat) := by
          rw [hdp]
          ring
        have hls := lineStrideOf_lt _ hwlt
        rw [e, BitVec.toNat_sub, BitVec.toNat_ofNat, BitVec.toNat_ofNat]
        omega
      rw [if_neg hneg, lineByte_content hjc]
      have hw := content_written hs.evenWidth hwlt e3 (apart_row hs hh r hd) hc (j / 4) (by
        unfold contentBytes at hjc; omega)
      rw [wordOf_row hh r hd hs.evenWidth, e2, r.dp] at hw
      have hb := byte_of_loadLE c (lineBase s₀ h' + BitVec.ofNat 64 (4 * (j / 4))) (j % 4) (by omega)
      rw [BitVec.add_assoc, ← BitVec.ofNat_add, show 4 * (j / 4) + j % 4 = j by omega] at hb
      rw [hb, hw]
    · have hpos : (lineBase s₀ h' + BitVec.ofNat 64 j - c.work.dp).toNat < linePadOf s₀.frame.width.toNat := by
        obtain ⟨k, rfl⟩ := Nat.exists_eq_add_of_le (Nat.not_lt.mp hjc)
        have e : lineBase s₀ h' + BitVec.ofNat 64 (contentBytes s₀.frame.width.toNat + k) - c.work.dp =
            BitVec.ofNat 64 k := by
          rw [hdp, BitVec.ofNat_add]
          ring
        rw [e, BitVec.toNat_ofNat]
        exact Nat.lt_of_le_of_lt (Nat.mod_le _ _) (by omega)
      rw [if_pos hpos, lineByte, if_neg hjc]
      rfl
  · have hlt : h' < h := by omega
    have hbelow : h' * lineStrideOf s₀.frame.width.toNat + j < h * lineStrideOf s₀.frame.width.toNat := by
      calc h' * lineStrideOf s₀.frame.width.toNat + j < (h' + 1) * lineStrideOf s₀.frame.width.toNat := by
            rw [Nat.succ_mul]; omega
        _ ≤ _ := Nat.mul_le_mul_right _ hlt
    have htop : h * lineStrideOf s₀.frame.width.toNat + lineStrideOf s₀.frame.width.toNat ≤
        frameSizeOf s₀.frame.width.toNat s₀.frame.height.toNat := by
      unfold frameSizeOf
      rw [← Nat.succ_mul]
      exact Nat.mul_le_mul_right _ hh
    have hdist : ∀ k, k ≤ lineStrideOf s₀.frame.width.toNat →
        2 ^ 64 - 2 ^ 34 ≤ (lineBase s₀ h' + BitVec.ofNat 64 j - (lineBase s₀ h + BitVec.ofNat 64 k)).toNat := by
      intro k hk
      have e : lineBase s₀ h' + BitVec.ofNat 64 j - (lineBase s₀ h + BitVec.ofNat 64 k) =
          BitVec.ofNat 64 (h' * lineStrideOf s₀.frame.width.toNat + j) -
            BitVec.ofNat 64 (h * lineStrideOf s₀.frame.width.toNat + k) := by
        unfold lineBase
        rw [BitVec.ofNat_add, BitVec.ofNat_add]
        ring
      rw [e, BitVec.toNat_sub, BitVec.toNat_ofNat, BitVec.toNat_ofNat]
      omega
    have hls := lineStrideOf_lt _ hwlt
    have h1 := hdist (contentBytes s₀.frame.width.toNat) (by omega)
    have h2 := hdist 0 (by omega)
    rw [← hdp] at h1
    rw [BitVec.add_zero] at h2
    rw [if_neg (by omega), p.bytes _ (by
      unfold outside
      rw [e2, r.dp]
      omega), rowselResult_work_eq, byteAt_setWork]
    exact hl h' j hlt hj

/-! ### The run -/

theorem rowAt_start {s : State} (h : RunStart s) : RowAt s 0 s where
  rest := by
    have : s.setSeq ⟨BitVec.ofNat 16 0, .chk, 0⟩ = s := by
      have e := State.setSeq_self s
      rw [h.position] at e
      exact e
    rw [this]
    exact KeepsRest.rfl' s
  val := (h.inv.run h.busy).valZero
  yp := by rw [h.luma]; simp
  up := by rw [h.chromaU, chromaStart]; simp
  vp := by rw [h.chromaV, chromaStart]; simp
  dp := by rw [h.dest, lineBase]; simp
  captured _ h1 := by omega
  uncaptured _ := ⟨rfl, rfl⟩
  bytes _ _ := rfl
  wf := h.inv.memWf

theorem RowAt.start {s₀ : State} {h : Nat} {s : State} (r : RowAt s₀ h s) (h₀ : RunStart s₀) : RowStart s where
  busy := by rw [r.rest.flags]; exact h₀.busy
  quiet := by rw [r.rest.inputs]; exact h₀.quiet
  phase := by rw [r.rest.seq]; rfl
  col := by rw [r.rest.seq]; rfl
  setup := by
    have hs := h₀.inv.setup (by simp [h₀.busy])
    have hd : s.derived = s₀.derived := r.rest.derived
    exact ⟨by rw [r.frame]; exact hs.evenWidth, by rw [r.frame]; exact hs.legalFormat,
      by rw [r.frame, hd]; exact hs.lineStride, by rw [r.frame, hd]; exact hs.linePad,
      by rw [r.frame, hd]; exact hs.frameSize⟩

theorem RowAt.row {s₀ : State} {h : Nat} {s : State} (r : RowAt s₀ h s) (hh : h < 65536) : s.seq.row.toNat = h := by
  rw [r.rest.seq, State.setSeq_seq, BitVec.toNat_ofNat, Nat.mod_eq_of_lt (by omega)]

theorem RowAt.rowSteps {s₀ : State} {h : Nat} {s : State} (r : RowAt s₀ h s) : rowSteps s = rowSteps s₀ := by
  have hv : s.variant = s₀.variant := r.rest.variant
  simp only [Machine.rowSteps, extraGroups, bulkCount, r.frame, hv]

/-- The first `h` rows of a run whose buffers are provided (R178, R179): they complete, as `h` line operations, and the
block is `BUSY` before every step of them. -/
theorem rows_complete {s₀ : State} (h₀ : RunStart s₀) (hp : BuffersProvided s₀) (h : Nat)
    (hh : h ≤ s₀.frame.height.toNat) :
    ∃ t, repeatOp (h * rowSteps s₀) step s₀ = .next t ∧
      repeatOp h (lineOp (depthOfFmt s₀.frame.fmt) s₀.frame.width.toNat) s₀ = .next t ∧ RowAt s₀ h t ∧
      (∀ j < h * rowSteps s₀, ∀ r, repeatOp j step s₀ = .next r → r.flags.st = .busy) ∧
      (BuffersDisjoint s₀ → LinesDone s₀ h t) := by
  have hs := h₀.inv.setup (by simp [h₀.busy])
  have hhlt := s₀.frame.height.isLt
  induction h with
  | zero => exact ⟨s₀, by rw [Nat.zero_mul]; rfl, rfl, rowAt_start h₀, fun j hj => by omega, fun _ _ _ hlt => by omega⟩
  | succ h ih =>
    obtain ⟨t, ht, hl, r, hb, hld⟩ := ih (by omega)
    have hst := r.start h₀
    have hne : t.seq.row ≠ t.frame.height := by
      intro e
      have := congrArg BitVec.toNat e
      rw [r.row (by omega), r.frame] at this
      omega
    have hrow := row_steps hst hne
    rw [r.rowSteps, r.frame] at hrow
    obtain ⟨c, t', -, -, -, hline, r'⟩ := row_completes hs hp (by omega) r
    have hsteps : repeatOp ((h + 1) * rowSteps s₀) step s₀ = .next t' := by
      rw [Nat.succ_mul, repeatOp_add, andThen_of_next ht, hrow, hline]
    refine ⟨t', hsteps, ?_, r', ?_, fun hd => row_lines hs hp hd (by omega) r (hld hd) hline⟩
    · rw [repeatOp_add, andThen_of_next hl, repeatOp, repeatOp, andThen_ret, hline]
    · intro j hj x hx
      by_cases hjl : j < h * rowSteps s₀
      · exact hb j hjl x hx
      · obtain ⟨i, rfl⟩ := Nat.exists_eq_add_of_le (Nat.not_lt.mp hjl)
        rw [repeatOp_add, andThen_of_next ht] at hx
        refine row_busy hst hne ?_ hx
        rw [r.rowSteps]
        rw [Nat.succ_mul] at hj
        omega

/-- The last step of a run (R177). -/
theorem step_done {s₀ : State} (h₀ : RunStart s₀) {t : State} (r : RowAt s₀ s₀.frame.height.toNat t) :
    step t = .next (t.setFlags { t.flags with st := .ready, done := true }) := by
  have hst := r.start h₀
  have hrow : t.seq.row = t.frame.height := by
    apply BitVec.eq_of_toNat_eq
    rw [r.row s₀.frame.height.isLt, r.frame]
  rw [step_busy hst.quiet hst.busy, seqStep, hst.phase]
  simp only [phaseChk, if_pos hrow]

/-- A whole run: its rows, then the completing `CHK` step (R177, R179). -/
theorem run_end {s₀ : State} (h₀ : RunStart s₀) (hp : BuffersProvided s₀) : ∃ t, 
   repeatOp (s₀.frame.height.toNat * rowSteps s₀) step s₀ = .next t ∧ repeatOp (runSteps s₀) step s₀ = .next (t.setFlags { t.flags with st := .ready, done := true }) ∧
      repeatOp s₀.frame.height.toNat (lineOp (depthOfFmt s₀.frame.fmt) s₀.frame.width.toNat) s₀ = .next t ∧ RowAt s₀ s₀.frame.height.toNat t ∧
      (∀ j < s₀.frame.height.toNat * rowSteps s₀, ∀ r, repeatOp j step s₀ = .next r → r.flags.st = .busy) ∧
      (BuffersDisjoint s₀ → LinesDone s₀ s₀.frame.height.toNat t) := by
  obtain ⟨t, h1, h2, h3, h4, h5⟩ := rows_complete h₀ hp _ (Nat.le_refl _)
  refine ⟨t, h1, ?_, h2, h3, h4, h5⟩
  rw [runSteps, repeatOp_add, andThen_of_next h1, repeatOp, repeatOp, andThen_ret, step_done h₀ h3]

/-- A content word of the output, read back (R94). -/
theorem loadLE_lineWord {s t : State} {h m : Nat} (hl : LinesDone s (s.frame.height.toNat) t) (he : s.frame.width.toNat % 2 = 0) (hh : h < s.frame.height.toNat) (hm : m < contentWords s.frame.width.toNat) :
   t.loadLE 4 (lineBase s h + BitVec.ofNat 64 (4 * m)) = lineWord s h m := by
  apply loadLE_four
  · exact Nat.lt_trans (packed_lt (slotField_lt _ _ _) (slotField_lt _ _ _) (slotField_lt _ _ _)) (by omega)
  · intro k hk
    have hle := contentBytes_le _ he
    unfold contentBytes at hle
    rw [BitVec.add_assoc, ← BitVec.ofNat_add, hl h (4 * m + k) hh (by omega), lineByte_content (by unfold contentBytes; omega)]
    rw [show (4 * m + k) / 4 = m by omega, show (4 * m + k) % 4 = k by omega]

end Sys2Proof.Machine
end

