-- ==== Sys2Proof/Tests/Slice0.lean ====
section
/-! SUPPORT. Tests: the well-formedness smoke test, decoding of words written out from the spec's encodings (V4 and V5 of
`95_test_vectors.md`), one or two single steps per instruction with the results of V10 to V38, and for every statement with
hypotheses a concrete state and operands that meet them. -/

namespace Sys2Proof.Tests

open Sys2Proof.Machine

set_option Elab.async false

/-! ### Well-formed terms -/

theorem test_wf_refuses_wide_bulk : (Instr.bulk .d8 65536).wf = false := by decide +kernel
theorem test_wf_refuses_wide_zfill : (Instr.zfill 65536).wf = false := by decide +kernel
theorem test_wf_accepts_full_counts : (Instr.bulk .d10 65535).wf = true ∧ (Instr.zfill 65535).wf = true := by decide +kernel

/-! ### Decoding (R96, R109, V4, V5) -/

theorem test_decode_nop : decodeCmd 0b0000_0_00_00_0000000_0000000000000000 = .ok .nop := by decide +kernel
theorem test_decode_acc : decodeCmd 0b0001_1_01_00_0000000_0000000000000000 = .ok (.acc .d10 .s1 .y) ∧
    decodeCmd 0b0001_0_10_10_0000000_0000000000000000 = .ok (.acc .d8 .s2 .v) ∧
    decodeCmd 0b0001_1_00_01_0000000_0000000000000000 = .ok (.acc .d10 .s0 .u) := by decide +kernel
theorem test_decode_flush : decodeCmd 0b0010_0_00_00_0000000_0000000000000000 = .ok .flush := by decide +kernel
theorem test_decode_word : decodeCmd 0b0011_0_00_00_0000000_0000000000000000 = .ok (.word .d8 .uyv) ∧
    decodeCmd 0b0011_0_01_00_0000000_0000000000000000 = .ok (.word .d8 .yuy) ∧
    decodeCmd 0b0011_1_10_00_0000000_0000000000000000 = .ok (.word .d10 .vyu) ∧
    decodeCmd 0b0011_1_11_00_0000000_0000000000000000 = .ok (.word .d10 .yvy) := by decide +kernel
theorem test_decode_group : decodeCmd 0b0100_0_00_00_0000000_0000000000000000 = .ok (.group .d8) ∧
    decodeCmd 0b0100_1_00_00_0000000_0000000000000000 = .ok (.group .d10) := by decide +kernel
theorem test_decode_bulk : decodeCmd 0b0101_0_00_00_0000000_0000000000011000 = .ok (.bulk .d8 24) ∧
    decodeCmd 0b0101_1_00_00_0000000_1111111111111111 = .ok (.bulk .d10 65535) := by decide +kernel
theorem test_decode_tail2 : decodeCmd 0b0110_0_00_00_0000000_0000000000000000 = .ok (.tail2 .d8) ∧
    decodeCmd 0b0110_1_00_00_0000000_0000000000000000 = .ok (.tail2 .d10) := by decide +kernel
theorem test_decode_tail4 : decodeCmd 0b0111_0_00_00_0000000_0000000000000000 = .ok (.tail4 .d8) ∧
    decodeCmd 0b0111_1_00_00_0000000_0000000000000000 = .ok (.tail4 .d10) := by decide +kernel
theorem test_decode_zfill : decodeCmd 0b1000_0_00_00_0000000_0000000001110000 = .ok (.zfill 112) ∧
    decodeCmd 0b1000_0_00_00_0000000_1111111111111111 = .ok (.zfill 65535) := by decide +kernel
theorem test_decode_rowsel : decodeCmd 0b1001_0_00_00_0000000_0000000000000000 = .ok .rowsel := by decide +kernel
theorem test_decode_rowadv : decodeCmd 0b1010_0_00_00_0000000_0000000000000000 = .ok .rowadv := by decide +kernel
theorem test_decode_commands : decodeCtrl 1 = .ok .init ∧ decodeCtrl 2 = .ok .start ∧ decodeCtrl 4 = .ok .ack := by decide +kernel

/-- The illegal words of V5. -/
def illegalWords : List Word32 :=
  [0x00000001, 0x08000000, 0x1E000000, 0x19800000, 0x18000001, 0x10010000, 0x20000001, 0x28000000] ++
  [0x38800000, 0x3A000001, 0x42000000, 0x48800000, 0x5A000030, 0x58400030, 0x6A000000, 0x78000001] ++
  [0x88000070, 0x82000000, 0x98000000, 0xA0000001, 0xB0000000, 0xF0000000, 0xFFFFFFFF]

/-- The decoder gives no instruction. -/
def rejects (r : Except Reject Instr) : Bool :=
  match r with
  | .ok _ => false
  | .error _ => true

theorem test_decode_rejects_v5 : (illegalWords.all fun c => rejects (decodeCmd c)) = true := by decide +kernel

/-- The illegal `CTRL` values of V36. -/
theorem test_decode_rejects_v36 :
    ([0, 3, 5, 6, 7, 8, 0x80000001, 0xFFFFFFFF].all fun c => rejects (decodeCtrl c)) = true := by decide +kernel

/-! ### Single steps -/

/-- The outcome is a next state of which `p` holds. -/
def goes (o : Host.Outcome State Fault Refusal) (p : State → Bool) : Bool :=
  match o with
  | .next t => p t
  | .fault _ => false
  | .refused _ => false

/-- The outcome is the fault of R76. -/
def stuck (o : Host.Outcome State Fault Refusal) : Bool :=
  match o with
  | .fault .memNotProvided => true
  | .next _ => false
  | .refused _ => false

/-- Bytes at consecutive addresses. -/
def cells (a : Nat) : List Nat → Memory
  | [] => []
  | b :: l => (a, BitVec.ofNat 8 b) :: cells (a + 1) l

/-- The bytes from an address on. -/
def bytes (s : State) (a : Addr) (n : Nat) : List Nat :=
  (List.range n).map fun i => (s.byteAt (a + BitVec.ofNat 64 i)).toNat

/-- `READY`, with the pointers of V13 and some bytes in memory. -/
def bench (m : Memory) : State :=
  { State.reset with
    mem := m
    work := ⟨0x1000, 0x2000, 0x3000, 0x8000, 0xAAA0, 0xBBB0, 0⟩
    flags := ⟨.ready, false, false, .none, false⟩ }

/-- Samples at `0x1000` (Y), `0x2000` (U) and `0x3000` (V). -/
def samples (y u v : List Nat) : Memory := cells 0x1000 y ++ cells 0x2000 u ++ cells 0x3000 v

/-- V10. -/
theorem test_nop : exec .nop (bench []) = .next (bench []) := rfl

/-- V11, second row. -/
theorem test_acc_d10 : goes (exec (.acc .d10 .s1 .y)
    (let s := bench (samples [0x64, 0] [] []); s.setWork { s.work with val := 0xA }))
    (fun t => t.work.val = 0x0001900A && t.work.yp = 0x1002 && t.work.dp = 0x8000) = true := by decide +kernel

/-- V11, the 8-bit row with 128 in slot 2. -/
theorem test_acc_d8 : goes (exec (.acc .d8 .s2 .v) (bench (samples [] [] [0x80])))
    (fun t => t.work.val = 0x20000000 && t.work.vp = 0x3001) = true := by decide +kernel

/-- V12, first row. -/
theorem test_flush : goes (exec .flush (let s := bench []; s.setWork { s.work with val := 0x2580F1F4 }))
    (fun t => bytes t 0x8000 4 = [0xF4, 0xF1, 0x80, 0x25] && t.work.dp = 0x8004 && t.work.val = 0) = true := by decide +kernel

/-- V12, the wrap at `2^64`. -/
theorem test_flush_wraps : goes (exec .flush
    (let s := bench []; s.setWork { s.work with val := 0x01020304, dp := 0xFFFFFFFFFFFFFFFE }))
    (fun t => t.mem = [(0, 2), (1, 1), (0xFFFFFFFFFFFFFFFE, 4), (0xFFFFFFFFFFFFFFFF, 3)] && t.work.dp = 2) = true := by
  decide +kernel

/-- V13, `WORD.10 YVY`. -/
theorem test_word_d10 : goes (exec (.word .d10 .yvy)
    (bench (samples [0x64, 0, 0xC8, 0] [0x0A, 0, 0x14, 0] [0x28, 0, 0x32, 0])))
    (fun t => bytes t 0x8000 4 = [0x64, 0xA0, 0x80, 0x0C] && t.work.yp = 0x1004 && t.work.up = 0x2000 &&
      t.work.vp = 0x3002 && t.work.dp = 0x8004) = true := by decide +kernel

/-- V14, `WORD.8 VYU`: 255 is clamped. -/
theorem test_word_d8 : goes (exec (.word .d8 .vyu) (bench (samples [0x10, 0xEB] [0x80, 0] [0xFF, 1])))
    (fun t => bytes t 0x8000 4 = [0xF8, 0x03, 0x01, 0x20] && t.work.yp = 0x1001 && t.work.up = 0x2001 &&
      t.work.vp = 0x3001) = true := by decide +kernel

/-- The samples of DOC0's example, E1. -/
def e1 : Memory :=
  samples [0x64, 0, 0xC8, 0, 0x2C, 1, 0x90, 1, 0xF4, 1, 0x58, 2] [0x0A, 0, 0x14, 0, 0x1E, 0] [0x28, 0, 0x32, 0, 0x3C, 0]

/-- V16, which is E1. -/
theorem test_group_d10 : goes (exec (.group .d10) (bench e1))
    (fun t => bytes t 0x8000 16 = [0x0A, 0x90, 0x81, 0x02, 0xC8, 0x50, 0xC0, 0x12, 0x32, 0x40, 0xE6, 0x01, 0xF4, 0xF1,
        0x80, 0x25] && t.work.yp = 0x100C && t.work.up = 0x2006 && t.work.vp = 0x3006 && t.work.dp = 0x8010) = true := by
  decide +kernel

/-- V18. -/
theorem test_group_d8 : goes (exec (.group .d8) (bench (samples [16, 17, 18, 19, 20, 21] [128, 129, 130] [64, 65, 66])))
    (fun t => bytes t 0x8000 16 = [0x00, 0x02, 0x01, 0x10, 0x44, 0x10, 0x88, 0x04, 0x04, 0x31, 0x81, 0x20, 0x50, 0x20,
        0x44, 0x05] && t.work.yp = 0x1006 && t.work.up = 0x2003 && t.work.vp = 0x3003) = true := by decide +kernel

/-- V20: the last two of its eight words, and the pointers. -/
theorem test_bulk_d8 : goes (exec (.bulk .d8 12)
    (bench (samples [16, 17, 18, 19, 20, 21, 22, 23, 24, 25, 26, 27] [100, 101, 102, 103, 104, 105]
      [200, 201, 202, 203, 204, 205])))
    (fun t => bytes t 0x8018 8 = [0x30, 0x93, 0x41, 0x1A, 0x68, 0xD0, 0xCC, 0x06] && t.work.yp = 0x100C &&
      t.work.up = 0x2006 && t.work.vp = 0x3006 && t.work.dp = 0x8020) = true := by decide +kernel

/-- V21: a count that is no multiple of the group size. -/
theorem test_bulk_refused : goes (exec (.bulk .d8 6) (bench e1))
    (fun t => t.work = (bench e1).work && t.mem = e1 && t.flags.status = 0x09 && t.flags.errcode = .illCmd) = true := by
  decide +kernel

/-- V22, first row. -/
theorem test_tail2_d10 : goes (exec (.tail2 .d10) (bench (samples [0x40, 0, 0xAC, 3] [0, 2] [0, 2])))
    (fun t => bytes t 0x8000 8 = [0x00, 0x02, 0x01, 0x20, 0xAC, 0x03, 0, 0] && t.work.yp = 0x1004 && t.work.up = 0x2002 &&
      t.work.vp = 0x3002 && t.work.dp = 0x8008) = true := by decide +kernel

/-- V22, third row. -/
theorem test_tail2_d8 : goes (exec (.tail2 .d8) (bench (samples [16, 235] [128] [240])))
    (fun t => bytes t 0x8000 8 = [0x00, 0x02, 0x01, 0x3C, 0xAC, 0x03, 0, 0] && t.work.yp = 0x1002 && t.work.dp = 0x8008) =
    true := by decide +kernel

/-- V23, first row. -/
theorem test_tail4_d8 : goes (exec (.tail4 .d8) (bench (samples [16, 17, 18, 19] [128, 130] [120, 122])))
    (fun t => bytes t 0x8000 12 = [0x00, 0x02, 0x01, 0x1E, 0x44, 0x20, 0x88, 0x04, 0xE8, 0x31, 0x01, 0x00] &&
      t.work.yp = 0x1004 && t.work.up = 0x2002 && t.work.vp = 0x3002 && t.work.dp = 0x800C) = true := by decide +kernel

/-- V23, second row. -/
theorem test_tail4_d10 : goes (exec (.tail4 .d10) (bench e1))
    (fun t => bytes t 0x8000 12 = [0x0A, 0x90, 0x81, 0x02, 0xC8, 0x50, 0xC0, 0x12, 0x32, 0x40, 0x06, 0x00] &&
      t.work.yp = 0x1008 && t.work.up = 0x2004 && t.work.vp = 0x3004) = true := by decide +kernel

/-- V30, third row. -/
theorem test_zfill : goes (exec (.zfill 5)
    (let s := bench (cells 0x2002 [0xAA, 0xAA, 0xAA, 0xAA, 0xAA, 0xAA, 0xAA, 0xAA])
     s.setWork { s.work with dp := 0x2003, val := 0x123 }))
    (fun t => bytes t 0x2002 8 = [0xAA, 0, 0, 0, 0, 0, 0xAA, 0xAA] && t.work.dp = 0x2008 && t.work.val = 0x123) = true := by
  decide +kernel

/-- `READY` with `FMT = 1` at a row of V31. -/
def rowBench (ilace : Bool) (row : BitVec 16) : State :=
  let s := bench []
  (s.setFrame { s.frame with fmt := 1, ilace := ilace }).setSeq ⟨row, .chk, 0⟩

/-- V31, the capturing rows 0 and 2 in interlaced mode. -/
theorem test_rowsel_captures : ([0, 2].all fun row => goes (exec .rowsel (rowBench true row))
    (fun t => t.work.uc = 0x2000 && t.work.vc = 0x3000 && t.work.up = 0x2000 && t.work.vp = 0x3000)) = true := by decide +kernel

/-- V31, the reusing rows 1 and 3 in both modes. -/
theorem test_rowsel_reuses : ([(false, 1), (false, 3), (true, 1), (true, 3)].all fun e =>
    goes (exec .rowsel (rowBench e.1 e.2))
      (fun t => t.work.up = 0xAAA0 && t.work.vp = 0xBBB0 && t.work.uc = 0xAAA0 && t.work.vc = 0xBBB0)) = true := by decide +kernel

/-- V32, its second row: a negative stride and the wrap of `ROW`. -/
theorem test_rowadv : goes (exec .rowadv
    { bench [] with
      frame := { resetFrame with fmt := 2, width := 6, yStride := 64, uStride := 32, vStride := 0xFFFFFFFFFFFFFFE0 }
      work := ⟨0x100C, 0x2006, 0x3006, 0x8000, 0, 0, 0⟩
      seq := ⟨65535, .chk, 0⟩ })
    (fun t => t.work = ⟨0x1040, 0x2020, 0x2FE0, 0x8000, 0, 0, 0⟩ && t.seq = ⟨0, .chk, 0⟩) = true := by decide +kernel

/-- V33, its third row: the largest frame. -/
theorem test_init_largest_frame : goes (exec .init
    { State.reset with frame := { resetFrame with fmt := 2, width := 65534, height := 65535 } })
    (fun t => t.flags.st = .ready && t.derived = ⟨174848, 88, 0x2AAFD5500⟩ && t.flags.status = 0x01) = true := by
  decide +kernel

/-- V33, its fifth row: an odd width is checked first. -/
theorem test_init_odd_width : goes (exec .init { State.reset with frame := { resetFrame with fmt := 3, width := 7 } })
    (fun t => t.flags.st = .unconf && t.flags.errcode = .cfgOddWidth && t.flags.status = 0x08 &&
      t.derived = resetDerived) = true := by decide +kernel

/-- `READY` with a validated frame of 128 bytes, 10-bit, width 6, height 1 (P1). -/
def ready128 (size : Addr) : State :=
  { bench e1 with
    frame := ⟨2, 6, 1, false, 0x1000, 0x2000, 0x3000, 64, 32, 32, 0x8000, size⟩
    derived := ⟨128, 112, 128⟩
    work := ⟨1, 2, 3, 4, 5, 6, 7⟩ }

/-- V34, its first row. -/
theorem test_start : goes (exec .start (ready128 128))
    (fun t => t.flags.status = 0x02 && t.work = ⟨0x1000, 0x2000, 0x3000, 0x8000, 5, 6, 0⟩ && t.seq = ⟨0, .chk, 0⟩) =
    true := by decide +kernel

/-- V34, its third row: one byte too few. -/
theorem test_start_no_buffer : goes (exec .start (ready128 127))
    (fun t => t.flags.status = 0x09 && t.flags.errcode = .resNoBuffer && t.work = ⟨1, 2, 3, 4, 5, 6, 7⟩) = true := by decide +kernel

/-- V35. -/
theorem test_ack : goes (exec .ack { bench [] with flags := ⟨.ready, true, true, .illCmd, false⟩ })
    (fun t => t.flags.status = 0x01 && t.flags.errcode = .none) = true := by decide +kernel

/-- U2, R76: a sample outside what the platform provides. -/
theorem test_acc_stuck : stuck (exec (.acc .d10 .s0 .y) { bench [] with regions := [⟨0x1000, 1, true, true⟩] }) = true := by
  decide +kernel

/-! ### The register port -/

/-- V37: a `WIDTH` write in `READY` is accepted, reads back 16 bits and leaves `UNCONF`. -/
theorem test_width_write : goes (step { bench [] with inputs := [⟨0, .write 5 0x12345⟩] })
    (fun t => Reg.width.value t = 0x2345 && t.flags.st = .unconf && t.inputs = []) = true := by decide +kernel

/-- V37: the state is checked before the legality of the word (R220). -/
theorem test_cmd_needs_ready : goes (step { State.reset with inputs := [⟨0, .write 9 0xB0000000⟩] })
    (fun t => t.flags.errcode = .hostProtocol && t.flags.status = 0x08) = true := by decide +kernel

/-- V38. -/
theorem test_status_values :
    (StatusFlags.status ⟨.ready, false, false, .none, false⟩, StatusFlags.status ⟨.ready, true, true, .illCmd, false⟩,
      StatusFlags.status ⟨.ready, true, false, .none, true⟩, StatusFlags.status ⟨.ready, false, true, .illCmd, true⟩,
      StatusFlags.status ⟨.ready, true, true, .illCmd, true⟩) = (0x01, 0x0D, 0x15, 0x19, 0x1D) := by decide +kernel

/-- R52: `VARIANT` reads `0x11` with the default factors. -/
theorem test_variant_reads : readOffset 0x1C State.reset = 0x11 := by decide +kernel

/-! ### The host's two questions: a word of each row, decoded and run right after reset -/

/-- One word of each row of `spec/opcode_table.json`. -/
def rowWords : List (Nat × Instr) :=
  [(0x00000000, .nop), (0x10000000, .acc .d8 .s0 .y), (0x20000000, .flush), (0x30000000, .word .d8 .uyv)] ++
  [(0x40000000, .group .d8), (0x50000000, .bulk .d8 0), (0x60000000, .tail2 .d8), (0x70000000, .tail4 .d8)] ++
  [(0x80000000, .zfill 0), (0x90000000, .rowsel), (0xA0000000, .rowadv), (1, .init), (2, .start), (4, .ack)]

theorem test_table_words_decode : ∀ e ∈ rowWords, decodeTableWord 32 e.1 = some e.2 := by decide +kernel

theorem test_table_words_run : ∀ e ∈ rowWords,
    goes (step (State.reset.withFetchWord 32 e.1)) (fun t => t.inputs = []) = true := by decide +kernel


/-- V2. -/
theorem test_clips : ([0, 3, 4, 5, 512, 1018, 1019, 1020, 1023, 1024, 65535].map (field .d10),
    [0, 1, 2, 16, 128, 235, 253, 254, 255].map (field .d8)) =
    ([4, 4, 4, 5, 512, 1018, 1019, 1019, 1019, 1019, 1019], [4, 4, 8, 64, 512, 940, 1012, 1016, 1016]) := by
  decide +kernel

/-- V3, some of its rows: stride, content words, pad. -/
theorem test_sizes : ([0, 2, 4, 46, 48, 50, 52, 1280, 4096, 65534].map fun w => (lineStrideOf w, contentWords w, linePadOf w)) =
    [(0, 0, 0), (128, 2, 120), (128, 3, 116), (128, 31, 4), (128, 32, 0), (256, 34, 120), (256, 35, 116),
      (3456, 854, 40), (11008, 2731, 84), (174848, 43690, 88)] := by decide +kernel

/-! ### Witnesses: the hypotheses of the statements can be met -/

/-- A running 4:2:0 frame of two rows of two samples, at its start. -/
def running : State :=
  { State.reset with
    work := ⟨0x1000, 0x2000, 0x3000, 0x8000, 0, 0, 0⟩
    flags := ⟨.busy, false, false, .none, true⟩
    frame := ⟨1, 2, 2, false, 0x1000, 0x2000, 0x3000, 4, 2, 2, 0x8000, 256⟩
    derived := ⟨128, 120, 256⟩ }

/-- `running` at another position. -/
def runningAt (row : BitVec 16) (phase : Phase) (col : BitVec 16) : State := running.setSeq ⟨row, phase, col⟩

/-- `running` with another size; the derived registers follow. -/
def sized (w h : BitVec 16) : State :=
  { running with
    frame := { running.frame with width := w, height := h }
    derived := deriveRegs w.toNat h.toNat }

/-- A state with one host action, due at once. -/
def withAct (s : State) (a : HostAct) : State := s.setInputs [⟨0, a⟩]

theorem due_withAct (s : State) (a : HostAct) (h : s.inputs = []) : Due (withAct s a) a s :=
  ⟨0, [], rfl, .inl rfl, by cases s; cases h; rfl⟩

theorem setupValid_of_checks {s : State}
    (h : (decide (s.frame.width.toNat % 2 = 0) && decide (s.frame.fmt ≠ 3) &&
      decide (s.derived.lineStride.toNat = lineStrideOf s.frame.width.toNat) &&
      decide (s.derived.linePad.toNat = linePadOf s.frame.width.toNat) &&
      decide (s.derived.frameSize.toNat = frameSizeOf s.frame.width.toNat s.frame.height.toNat)) = true) : SetupValid s := by
  simp only [Bool.and_eq_true, decide_eq_true_eq] at h
  exact ⟨h.1.1.1.1, h.1.1.1.2, h.1.1.2, h.1.2, h.2⟩

theorem inv_running : StateInv running where
  memWf := by decide
  factors := by decide
  errCode := by decide
  valPad := by decide
  setup _ := setupValid_of_checks (by decide +kernel)
  run _ := ⟨by decide +kernel, rfl, by decide, rfl⟩

theorem runStart_running : RunStart running :=
  ⟨inv_running, rfl, rfl, rfl, rfl, rfl, rfl, rfl⟩

/-- All of memory is ordinary memory in `running`. -/
theorem provided_running : BuffersProvided running := by
  have h : ∀ a : Addr, decide (a.toNat < 0 + 2 ^ 64) = true := fun a => decide_eq_true (by have := a.isLt; omega)
  constructor <;> intro a _ <;>
    simp only [State.canRead, State.canWrite, running, State.reset, State.resetFor, wholeSpace, Region.covers, List.any_cons,
      h, Nat.zero_le, decide_true, Bool.true_and, Bool.true_or]

/-- The destination of `running` is apart from its sources. -/
theorem disjoint_running : BuffersDisjoint running := by
  intro a ha
  have e1 : lumaRowBytes running.frame = 2 := by decide
  have e2 : chromaRowBytes running.frame = 1 := by decide
  have e3 : chromaRows running.frame = 1 := by decide
  have e4 : running.frame.height.toNat = 2 := rfl
  have e5 : running.derived.frameSize.toNat = 256 := rfl
  simp only [inDest, inSource, inPlane, inSpan, e1, e2, e3, e4, e5, decide_eq_true_eq, Bool.or_eq_false_iff,
    List.any_eq_false] at *
  have hr : ∀ n h : Nat, h ∈ List.range n → h < n := fun n h => List.mem_range.mp
  have ha' : (a - 0x8000#64).toNat < 256 := ha
  refine ⟨⟨fun h hh => ?_, fun h hh => ?_⟩, fun h hh => ?_⟩
  · have := hr _ _ hh
    show ¬ (a - (0x1000#64 + BitVec.ofNat 64 h * 4#64)).toNat < 2
    interval_cases h <;> bv_omega
  · have := hr _ _ hh
    show ¬ (a - (0x2000#64 + BitVec.ofNat 64 h * 2#64)).toNat < 1
    interval_cases h; bv_omega
  · have := hr _ _ hh
    show ¬ (a - (0x3000#64 + BitVec.ofNat 64 h * 2#64)).toNat < 1
    interval_cases h; bv_omega

theorem contract_running : RegionsInContract running := by
  refine ⟨disjoint_running, ?_, .inl ?_, .inl ?_, .inl ?_⟩
  · unfold destNoWrap noWrap; decide
  all_goals intro h i hh hi
  · have : h < 2 := hh
    have : i < 2 := hi
    change 0 ≤ ((0x1000 : Nat) : Int) + h * ((4 : Nat) : Int) + i ∧ ((0x1000 : Nat) : Int) + h * ((4 : Nat) : Int) + i < 2 ^ 64
    omega
  · have : h < 1 := hh
    have : i < 1 := hi
    change 0 ≤ ((0x2000 : Nat) : Int) + h * ((2 : Nat) : Int) + i ∧ ((0x2000 : Nat) : Int) + h * ((2 : Nat) : Int) + i < 2 ^ 64
    omega
  · have : h < 1 := hh
    have : i < 1 := hi
    change 0 ≤ ((0x3000 : Nat) : Int) + h * ((2 : Nat) : Int) + i ∧ ((0x3000 : Nat) : Int) + h * ((2 : Nat) : Int) + i < 2 ^ 64
    omega

/-- The boundary of R75: the last bytes of the address space are no wrap, one byte more is; an empty span never wraps. -/
theorem test_no_wrap_boundary : noWrap 0xFFFFFFFFFFFFFF00 256 ∧ ¬ noWrap 0xFFFFFFFFFFFFFF00 257 ∧
    noWrap 0xFFFFFFFFFFFFFFFF 1 ∧ noWrap 0xFFFFFFFFFFFFFFFF 0 := by
  unfold noWrap
  decide

/-- R251: a plane whose rows run past the last address and go on at address 0 wraps, although no single row does; one row
fewer fits exactly. -/
theorem test_plane_wraps_between_rows : ¬ planeNoWrap 0xFFFFFFFFFFFFFF00 0x100 2 0x100 ∧
    planeNoWrap 0xFFFFFFFFFFFFFF00 0x100 1 0x100 := by
  constructor
  · rintro (p | p) <;> exact absurd (p 1 0 (by decide) (by decide)).2 (by decide)
  · left
    intro h i hh hi
    obtain rfl : h = 0 := by omega
    change 0 ≤ ((0xFFFFFFFFFFFFFF00 : Nat) : Int) + ((0 : Nat) : Int) * _ + i ∧ ((0xFFFFFFFFFFFFFF00 : Nat) : Int) + ((0 : Nat) : Int) * _ + i < 2 ^ 64
    omega

/-- R43: a plane stored bottom-up down to address 0 does not wrap, one row more does. -/
theorem test_bottom_up_plane : planeNoWrap 0x4 (-4) 2 4 ∧ ¬ planeNoWrap 0x4 (-4) 3 4 := by
  constructor
  · right
    intro h i hh hi
    change 0 ≤ ((4 : Nat) : Int) + h * (-4 : Int) + i ∧ ((4 : Nat) : Int) + h * (-4 : Int) + i < 2 ^ 64
    omega
  · rintro (p | p)
    · exact absurd (p 2 0 (by decide) (by decide)).2 (by decide)
    · exact absurd (p 2 0 (by decide) (by decide)).1 (by decide)

/-- For the statements about a run: all their hypotheses together, `FMT = 1`, two rows, both rows of the pair. -/
theorem test_witness_run : RunStart running ∧ BuffersProvided running ∧ RegionsInContract running ∧
    running.frame.fmt = 1 ∧ 2 * 0 + 1 < running.frame.height.toNat ∧ 2 < 2 * running.frame.width.toNat ∧
    running.flags.ie = true ∧ 1 < contentWords running.frame.width.toNat ∧ 0 < lineStrideOf running.frame.width.toNat ∧
    0 < running.derived.linePad.toNat :=
  ⟨runStart_running, provided_running, contract_running, rfl, by decide, by decide, rfl, by decide, by decide, by decide⟩

/-- `RowStepsRunTheLineProgram`. -/
theorem test_witness_row_steps : StateInv running ∧ running.flags.st = .busy ∧ running.inputs = [] ∧
    running.seq.phase = .chk ∧ running.seq.row ≠ running.frame.height :=
  ⟨inv_running, rfl, rfl, rfl, by decide⟩

/-- `DegenerateSizes`: its sizes, and the run clauses. -/
theorem test_witness_degenerate_sizes :
    SetupValid (sized 0 2) ∧ RunStart (sized 0 2) ∧ RunStart (sized 2 0) ∧ SetupValid (sized 2 2) ∧ SetupValid (sized 4 2) := by
  have inv : ∀ w h, SetupValid (sized w h) → (sized w h).derived.frameSize.toNat ≤ 256 → RunStart (sized w h) :=
    fun w h hs hf => ⟨⟨inv_running.memWf, inv_running.factors, inv_running.errCode, inv_running.valPad, fun _ => hs,
      fun _ => ⟨hf, rfl, Nat.zero_le _, rfl⟩⟩, rfl, rfl, rfl, rfl, rfl, rfl, rfl⟩
  have h1 : SetupValid (sized 0 2) := setupValid_of_checks (by decide +kernel)
  have h2 : SetupValid (sized 2 0) := setupValid_of_checks (by decide +kernel)
  exact ⟨h1, inv _ _ h1 (by decide +kernel), inv _ _ h2 (by decide +kernel), setupValid_of_checks (by decide +kernel),
    setupValid_of_checks (by decide +kernel)⟩

/-- The clause of `DegenerateSizes` that starts a run of width 0. -/
theorem test_witness_degenerate_start :
    SetupValid (setSt .ready (sized 0 2)) ∧ (setSt .ready (sized 0 2)).flags.st = .ready :=
  ⟨setupValid_of_checks (by decide +kernel), rfl⟩

/-- `ResetInputResetsTheBlock`: idle and running; no action left. -/
theorem test_witness_reset_input : Due (withAct State.reset .reset) .reset State.reset ∧
    Due (withAct running .reset) .reset running ∧ inDest running 0x7FFF = false ∧
    ∃ t, step (withAct State.reset .reset) = .next t ∧ t.inputs = [] :=
  ⟨due_withAct _ _ rfl, due_withAct _ _ rfl, by decide, _, rfl, rfl⟩

/-- `InvariantHoldsAtReset`. -/
theorem test_witness_factors : 1 ≤ (⟨1, 15⟩ : Variant).sf8.toNat ∧ 1 ≤ (⟨1, 15⟩ : Variant).sf10.toNat := by decide

/-- `EveryStepKeepsTheInvariant`, `VariantNeverChanges`, `BlockWritesOnlyBelowItsNewDp`. -/
theorem test_witness_step : StateInv running ∧ running.inputs = [] ∧ ∃ t, step running = .next t :=
  ⟨inv_running, rfl, _, rfl⟩

/-- A launched state whose host issues `INIT` and `START` of an empty frame. -/
def launchedState : State := State.reset.setInputs [⟨0, .write 0 1⟩, ⟨0, .write 0 2⟩]

/-- `ReachableStatesObeyTheStateRules`: the launch, then `READY`, then `BUSY`. -/
theorem test_witness_reachable : Reachable launchedState ∧
    (∃ s, Reachable s ∧ s.flags.st = .ready) ∧ ∃ s, Reachable s ∧ s.flags.st = .busy := by
  have h0 : Reachable launchedState :=
    .launch _ ⟨⟨1, 1⟩, [], [wholeSpace], _, by decide, by decide, by decide, rfl⟩
  have e1 : goes (step launchedState) (fun t => t = ((toFrameStart State.reset).setFlags
      ⟨.ready, false, false, .none, false⟩).setInputs [⟨0, .write 0 2⟩]) = true := by decide +kernel
  cases h1 : step launchedState with
  | fault r => rw [h1] at e1; cases e1
  | refused r => rw [h1] at e1; cases e1
  | next t =>
    rw [h1] at e1
    obtain rfl := of_decide_eq_true e1
    have r1 := Reachable.step _ _ h0 h1
    exact ⟨h0, ⟨_, r1, rfl⟩, _, .step _ _ r1 rfl, rfl⟩

/-- `DecodeOfEncodeIsTheInstruction`, `LegalWordIsTheEncodingOfItsReading`. -/
theorem test_witness_encoding : (Instr.bulk .d10 65535).wf = true ∧ decode .cmd 0x58000030 = .ok (.bulk .d10 48) ∧
    decode .ctrl 4 = .ok .ack := by decide +kernel

/-- `OpcodeMapSelectsTheOperation`: the `ACC` row with a legal slot and with the reserved one. -/
theorem test_witness_opcode_map : (1, 0x10000000, 0xF07FFFFF) ∈ opcodeMap ∧ 0x1A000000#32 &&& 0xF07FFFFF = 0x10000000 ∧
    0x1E000000#32 &&& 0xF07FFFFF = 0x10000000 ∧ bits 0x1A000000 26 25 ≠ 3 ∧ bits 0x1E000000 26 25 = 3 := by decide +kernel

/-- `CommandWriteRunsTheDecodedInstruction`. -/
theorem test_witness_command_writes : Due (withAct State.reset (.write 9 0)) (.write 9 0) State.reset ∧
    Due (withAct (bench []) (.write 9 0x1A000000)) (.write 9 0x1A000000) (bench []) ∧
    decodeCmd 0x1A000000 = .ok (.acc .d10 .s1 .y) ∧ decodeCmd 0xB0000000 = .error .reservedOpc ∧
    Due (withAct (bench []) (.write 9 0xB0000000)) (.write 9 0xB0000000) (bench []) ∧
    Due (withAct (bench []) (.write 0 1)) (.write 0 1) (bench []) ∧ Due (withAct (bench []) (.write 0 2)) (.write 0 2) (bench []) ∧
    Due (withAct (bench []) (.write 0 4)) (.write 0 4) (bench []) ∧ Due (withAct (bench []) (.write 0 3)) (.write 0 3) (bench []) :=
  ⟨due_withAct _ _ rfl, due_withAct _ _ rfl, by decide +kernel, by decide +kernel, due_withAct _ _ rfl, due_withAct _ _ rfl,
    due_withAct _ _ rfl, due_withAct _ _ rfl, due_withAct _ _ rfl⟩

/-- `PlacedTableWordRunsNext`: a micro-operation and a command. -/
theorem test_witness_placed : decodeTableWord 32 0x1A000000 = some (.acc .d10 .s1 .y) ∧ decodeTableWord 32 2 = some .start := by
  decide +kernel

/-- `SequencerStepIssuesItsOperation`: every clause; `GRP` at its last group and past it, `TAIL` with 0, 2 and 4 left. -/
theorem test_witness_sequencer :
    (runningAt 2 .chk 0).seq.row = running.frame.height ∧ (runningAt 1 .chk 0).seq.row ≠ running.frame.height ∧
    (runningAt 1 .sel 0).seq.phase = .sel ∧ (runningAt 1 .bulk 0).seq.phase = .bulk ∧
    ((sized 6 2).setSeq ⟨0, .grp, 0⟩).seq.col.toNat + 6 ≤ (sized 6 2).frame.width.toNat ∧
    running.frame.width.toNat < (runningAt 1 .grp 0).seq.col.toNat + 6 ∧
    running.frame.width.toNat = (runningAt 1 .tail 0).seq.col.toNat + 2 ∧
    (sized 4 2).frame.width.toNat = ((sized 4 2).setSeq ⟨0, .tail, 0⟩).seq.col.toNat + 4 ∧
    (sized 0 2).frame.width.toNat = ((sized 0 2).setSeq ⟨0, .tail, 0⟩).seq.col.toNat ∧
    (runningAt 1 .fill 2).seq.phase = .fill ∧ (runningAt 1 .adv 2).seq.phase = .adv ∧
    running.flags.st = .busy ∧ running.inputs = [] := by decide +kernel

/-- `TurnsFollowTheInputList`. -/
theorem test_witness_turns : Due (withAct running (.read 1)) (.read 1) running ∧
    (running.setInputs [⟨0 + 1, .read 1⟩]).inputs = [⟨0 + 1, .read 1⟩] ∧ running.inputs = [] ∧ running.flags.st = .busy ∧
    State.reset.inputs = [] ∧ State.reset.flags.st ≠ .busy :=
  ⟨due_withAct _ _ rfl, rfl, rfl, rfl, rfl, by decide⟩

/-- The packing statements: samples readable, output writable and apart. -/
theorem test_witness_packing : (bench e1).work.val = 0 ∧ (bench e1).readable 0x1000 12 = true ∧
    (bench e1).readable 0x2000 6 = true ∧ (bench e1).readable 0x3000 6 = true ∧ (bench e1).writable 0x8000 16 = true ∧
    (∀ i, i < 6 * bps .d10 → outside ((bench e1).work.yp + BitVec.ofNat 64 i) (bench e1).work.dp 16) ∧
    (∀ i, i < 3 * bps .d10 → outside ((bench e1).work.up + BitVec.ofNat 64 i) (bench e1).work.dp 16) ∧
    (∀ i, i < 3 * bps .d10 → outside ((bench e1).work.vp + BitVec.ofNat 64 i) (bench e1).work.dp 16) := by decide +kernel

/-- `AccOrsOneFieldIntoVal`, `WordPacksItsPattern`: both samples of `YVY`. -/
theorem test_witness_word : (∀ c, (bench e1).readable ((bench e1).work.ptr c) (patUses .yvy c * bps .d10) = true) ∧
    (bench e1).readable ((bench e1).work.ptr .y) (bps .d8) = true ∧ (bench e1).writable (bench e1).work.dp 4 = true :=
  ⟨fun c => by cases c <;> decide +kernel, by decide +kernel, by decide +kernel⟩

/-- `WordLanesAreIndependent`, `PackingLeavesValEmpty`, `ConsumptionTotals`. -/
theorem test_witness_totals : (bench e1).work.val = 0 ∧ goes (exec (.word .d10 .uyv) (bench e1)) (fun _ => true) = true ∧
    packTotals (.bulk .d10 6) = some (6, 3, 3, 16) ∧ 6 % groupSize (bench e1).variant .d10 = 0 ∧
    goes (exec (.bulk .d10 6) (bench e1)) (fun _ => true) = true := by decide +kernel

/-- `BulkPacksWholeGroupsOrRefuses`: no group, one group, the largest legal count; counts just off. -/
theorem test_witness_bulk : 0 % groupSize (bench e1).variant .d10 = 0 ∧ 6 % groupSize (bench e1).variant .d10 = 0 ∧
    65532 % groupSize (bench e1).variant .d10 = 0 ∧ 7 % groupSize (bench e1).variant .d10 ≠ 0 ∧
    6 % groupSize (bench e1).variant .d8 ≠ 0 ∧ (bench e1).readable 0x1000 (6 * bps .d10) = true ∧
    (bench e1).readable 0x2000 (6 / 2 * bps .d10) = true ∧ (bench e1).writable 0x8000 (6 / 6 * 16) = true := by decide +kernel

/-- `ZfillWritesZeroBytes`, `FlushStoresValLittleEndian`. -/
theorem test_witness_stores : (bench []).writable (bench []).work.dp 0 = true ∧ (bench []).writable (bench []).work.dp 112 = true ∧
    (bench []).writable (bench []).work.dp 4 = true ∧ outside 0x7FFF 0x8000 4 ∧ outside 0x8004 0x8000 4 := by decide +kernel

/-- `RowselCapturesOrReusesTheChromaRow`. -/
theorem test_witness_rowsel : (rowBench true 2).frame.fmt = 1 ∧ (rowBench true 2).seq.row.toNat % 2 = 0 ∧
    (rowBench true 3).seq.row.toNat % 2 = 1 ∧ (bench []).frame.fmt ≠ 1 := by decide

/-- `InitValidatesTheSetup`, `StartBeginsARun`, `AckClearsTheFlags`: each clause. -/
theorem test_witness_commands : running.flags.st = .busy ∧ (ready128 128).flags.st ≠ .busy ∧
    (sized 7 2).frame.width.toNat % 2 = 1 ∧ (sized 6 2).frame.width.toNat % 2 = 0 ∧ (3 : BitVec 2) = 3 ∧
    (ready128 128).frame.fmt ≠ 3 ∧ (ready128 128).flags.st = .ready ∧ State.reset.flags.st ≠ .ready ∧
    (ready128 127).derived.frameSize.toNat > (ready128 127).frame.dstSize.toNat ∧
    (ready128 128).derived.frameSize.toNat ≤ (ready128 128).frame.dstSize.toNat := by decide +kernel

/-- `InitValidatesTheSetup`: an even width with the reserved format, not running. -/
theorem test_witness_init_format :
    let s : State := { State.reset with frame := { resetFrame with fmt := 3, width := 6 } }
    s.flags.st ≠ .busy ∧ s.frame.width.toNat % 2 = 0 ∧ s.frame.fmt = 3 := by decide

/-- `AcceptedStartIsARunStart`. -/
theorem test_witness_accepted_start : StateInv (setSt .ready running) ∧ (setSt .ready running).flags.st = .ready ∧
    (setSt .ready running).inputs = [] ∧
    (setSt .ready running).derived.frameSize.toNat ≤ (setSt .ready running).frame.dstSize.toNat := by
  refine ⟨⟨by decide, by decide, by decide, by decide, fun _ => setupValid_of_checks (by decide +kernel), ?_⟩, rfl, rfl,
    by decide +kernel⟩
  intro h
  cases h

/-- `OnlyUnprovidedMemoryStopsAnInstruction`: one byte short of a 10-bit sample, and no memory at all. -/
theorem test_witness_unprovided :
    ({ bench [] with regions := [⟨0x1000, 1, true, true⟩] } : State).readable 0x1000 (bps .d10) = false ∧
    ({ bench [] with regions := [⟨0x8000, 3, true, true⟩] } : State).writable 0x8000 4 = false ∧
    ({ bench [] with regions := [⟨0x8000, 3, true, false⟩] } : State).writable 0x8000 1 = false := by decide +kernel

/-- `MicroOperationsKeepTheControlState`: a `ROWADV`, and a refused `BULK` that changes the flags. -/
theorem test_witness_micro : Instr.rowadv.port = .cmd ∧ goes (exec .rowadv (bench [])) (fun _ => true) = true ∧
    (Instr.bulk .d10 7).port = .cmd ∧ goes (exec (.bulk .d10 7) (bench [])) (fun t => t.flags ≠ (bench []).flags) = true := by
  decide +kernel

/-- `ErrorEntryIsPrecise`: a step that takes each of the five errors. -/
theorem test_witness_errors :
    goes (step (withAct { State.reset with frame := { resetFrame with width := 7 } } (.write 0 1)))
      (fun t => t.flags.errcode = .cfgOddWidth) = true ∧
    goes (step (withAct { State.reset with frame := { resetFrame with fmt := 3 } } (.write 0 1)))
      (fun t => t.flags.errcode = .cfgBadFormat) = true ∧
    goes (step (withAct (ready128 127) (.write 0 2))) (fun t => t.flags.errcode = .resNoBuffer) = true ∧
    goes (step (withAct State.reset (.write 0 3))) (fun t => t.flags.errcode = .illCmd) = true ∧
    goes (step (withAct State.reset (.write 0 2))) (fun t => t.flags.errcode = .hostProtocol) = true := by decide +kernel

/-- `FirstErrorIsKept`. -/
theorem test_witness_first_error : State.reset.flags.err = false ∧ (raiseErr .illCmd State.reset).flags.err = true := by decide

/-- `WriteClassesOfTheRegisters`, `WrittenRegisterReadsBack`: a register of each class, running and idle. -/
theorem test_witness_registers : regAt (4 * 3) = some .inten ∧ regAt (4 * 5) = some .width ∧ regAt (4 * 16) = some (.yBase .lo) ∧
    regAt (4 * 45) = some .row ∧ regAt (4 * 1) = some .status ∧ regAt (4 * 47) = some .phase ∧
    (∀ slot v, Due (withAct running (.write slot v)) (.write slot v) running) ∧
    (∀ slot v, Due (withAct (bench []) (.write slot v)) (.write slot v) (bench [])) ∧
    Reg.width.cls ≠ .readOnly ∧ Reg.width.cls ≠ .command :=
  ⟨by decide, by decide, by decide, by decide, by decide, by decide, fun _ _ => due_withAct _ _ rfl,
    fun _ _ => due_withAct _ _ rfl, by decide, by decide⟩

/-- `WrittenRegisterReadsBack`: an accepted setup write in `READY`, which leaves the block `UNCONF` (R47), and a write to
`INTEN` while `BUSY`; each clause's hypotheses. -/
theorem test_witness_accepted_write : Reg.width.cls = .setup ∧ Reg.inten.cls = .free ∧
    (ready128 128).flags.st = .ready ∧ running.flags.st = .busy ∧
    goes (step (withAct (ready128 128) (.write 5 8))) (fun t => t.flags.st = .unconf ∧ t.frame.width = 8) = true ∧
    goes (step (withAct running (.write 3 0))) (fun t => t.flags.st = .busy ∧ t.flags.ie = false) = true := by
  decide +kernel

/-- `UnmappedOffsets`: the four edges of the two holes. -/
theorem test_witness_unmapped : regAt (4 * 14) = none ∧ regAt (4 * 15) = none ∧ regAt (4 * 48) = none ∧
    regAt (4 * 13) ≠ none ∧ regAt (4 * 16) ≠ none ∧ Due (withAct running (.read 48)) (.read 48) running ∧
    Due (withAct running (.write 48 1)) (.write 48 1) running :=
  ⟨by decide, by decide, by decide, by decide, by decide, due_withAct _ _ rfl, due_withAct _ _ rfl⟩

/-- `ReadsHaveNoSideEffect`. -/
theorem test_witness_read : regAt (4 * 47) = some .phase ∧ Due (withAct running (.read 47)) (.read 47) running :=
  ⟨by decide, due_withAct _ _ rfl⟩

/-- `OnlyCompletionOrResetEndsARun`: both ways out. -/
theorem test_witness_end_of_run : goes (step (runningAt 2 .chk 0)) (fun t => t.flags.st ≠ .busy) = true ∧
    goes (step (withAct running .reset)) (fun t => t.flags.st ≠ .busy) = true := by
  refine ⟨by decide +kernel, ?_⟩
  rfl

/-- `RunInputsAreImmutable`: a step of the block, and a refused host write, both still running; a byte of each region. -/
theorem test_witness_still_running : goes (step running) (fun t => t.flags.st = .busy) = true ∧
    goes (step (withAct running (.write 5 8))) (fun t => t.flags.st = .busy) = true ∧
    inSource running.frame 0x1005 = true ∧ inDest running 0x80FF = true := by decide +kernel

/-- `HostMayNotTouchRunningBuffers`: the edges of the destination, a source byte, and an idle block. -/
theorem test_witness_host_bytes : inDest running 0x8000 = true ∧ inDest running 0x80FF = true ∧ inDest running 0x8100 = false ∧
    inSource running.frame 0x1005 = true ∧ inSource running.frame 0x1006 = false ∧
    Due (withAct running (.poke 0x8100 1)) (.poke 0x8100 1) running ∧ Due (withAct running (.peek 0x8000)) (.peek 0x8000) running ∧
    inSource running.frame 0x8100 = false ∧
    Due (withAct State.reset (.peek 0)) (.peek 0) State.reset ∧ State.reset.flags.st ≠ .busy :=
  ⟨by decide, by decide, by decide, by decide, by decide, due_withAct _ _ rfl, due_withAct _ _ rfl, by decide,
    due_withAct _ _ rfl, by decide⟩

end Sys2Proof.Tests
end

section
/-! The clips, the field value and the sizes of a line and a frame (R13 to R19). -/

namespace Sys2Proof.Machine

/-! ### Clips and field values -/

theorem clip10_of_le {v : Nat} (h : v ≤ 4) : clip10 v = 4 := by
  unfold clip10; omega

theorem clip10_of_mem {v : Nat} (h₁ : 4 ≤ v) (h₂ : v ≤ 1019) : clip10 v = v := by
  unfold clip10; omega

theorem clip10_of_ge {v : Nat} (h : 1019 ≤ v) : clip10 v = 1019 := by
  unfold clip10; omega

theorem clip10_le (v : Nat) : clip10 v ≤ 1019 :=
  max_le (by decide) (min_le_left _ _)

theorem clip8_of_mem {v : Nat} (h₁ : 1 ≤ v) (h₂ : v ≤ 254) : clip8 v = v := by
  unfold clip8; omega

theorem clip8_le (v : Nat) : clip8 v ≤ 254 :=
  max_le (by decide) (min_le_left _ _)

theorem field_d10 (v : Nat) : field .d10 v = clip10 v := rfl

theorem field_d8 (v : Nat) : field .d8 v = clip8 v * 4 := rfl

theorem field_d10_le (v : Nat) : field .d10 v ≤ 1019 := clip10_le v

/-- The largest 8-bit field is `254 * 4` (R15). -/
theorem field_d8_le (v : Nat) : field .d8 v ≤ 1016 :=
  Nat.mul_le_mul_right 4 (clip8_le v)

/-- The two low bits of an 8-bit field are zero (R15). -/
theorem field_d8_mod_four (v : Nat) : field .d8 v % 4 = 0 :=
  Nat.mul_mod_left _ 4

/-- Settles O15, from the value of each clip on its ranges and the bounds of a field at each depth. -/
theorem fieldValuesAndClips : Obligations.FieldValuesAndClips :=
  ⟨fun _ => clip10_of_le, fun _ => clip10_of_mem, fun _ => clip10_of_ge, by decide, by decide, fun _ => clip8_of_mem,
    fun v => ⟨field_d10 v, field_pos .d10 v, field_d10_le v⟩,
    fun v => ⟨field_d8 v, field_pos .d8 v, field_d8_le v, field_d8_mod_four v⟩,
    fun d v => ⟨Nat.lt_of_lt_of_le (by decide) (field_pos d v), field_lt d v⟩⟩

/-! ### Sizes of a line and a frame -/

theorem lineStrideOf_mod_four (w : Nat) : lineStrideOf w % 4 = 0 := by
  rw [lineStrideOf_eq]; omega

/-- A line of a 16-bit even width has at most 1366 groups of 48 samples (R16). -/
theorem lineStrideOf_le {w : Nat} (h : w < 65535) : lineStrideOf w ≤ 174848 := by
  have groups : ceilDiv w 48 ≤ 1366 := by unfold ceilDiv; omega
  rw [lineStrideOf_eq]
  exact Nat.mul_le_mul_right 128 groups

/-- A line has no padding exactly when it ends with a full group of 48 samples (R18). -/
theorem linePadOf_eq_zero_iff {w : Nat} (h : w % 2 = 0) : linePadOf w = 0 ↔ w % 48 = 0 := by
  rw [linePadOf, contentBytes, contentWords_eq w h, lineStrideOf_eq]
  unfold ceilDiv
  constructor <;> omega

theorem frameSizeOf_le {w h : Nat} (hw : w < 65535) (hh : h < 65536) : frameSizeOf w h ≤ 11458663680 :=
  calc frameSizeOf w h ≤ 65535 * 174848 := Nat.mul_le_mul (Nat.le_of_lt_succ hh) (lineStrideOf_le hw)
    _ = 11458663680 := by decide

/-- Settles O16, from the second forms of the sizes and their bounds; the listed widths are evaluated. -/
theorem lineAndFrameSizes : Obligations.LineAndFrameSizes := by
  refine ⟨fun w => ⟨rfl, lineStrideOf_eq w, lineStrideOf_mod_four w⟩, by decide, by decide, fun _ => lineStrideOf_le,
    by decide, fun w hw => ⟨rfl, contentWords_eq w hw, rfl⟩,
    fun w hw => ⟨contentBytes_le w hw, rfl, linePadOf_le w hw, linePadOf_eq_zero_iff hw⟩, ?_⟩
  exact ⟨by decide, by decide, by decide, by decide, by decide, by decide, by decide, by decide, fun _ _ => rfl,
    fun _ _ => frameSizeOf_le, by decide⟩

end Sys2Proof.Machine
end

section
/-! The register map and its holes (R31, R50), the values right after reset (R52), and the state rules in every state
reached from a launch (R53). -/

namespace Sys2Proof.Machine

/-! ### The register map -/

theorem mem_regMap_of_regAt {o : Nat} {r : Reg} (h : regAt o = some r) : (o, r) ∈ regMap := by
  obtain ⟨e, he, rfl⟩ := Option.map_eq_some_iff.mp h
  have key : e.1 = o := by simpa using List.find?_some he
  exact key ▸ List.mem_of_find?_eq_some he

/-- The map ends before `0xC0` (R31). -/
theorem regAt_of_ge {o : Nat} (h : 0xC0 ≤ o) : regAt o = none := by
  have keys : ∀ e ∈ regMap, e.1 < 0xC0 := by decide
  refine Option.map_eq_none_iff.mpr (List.find?_eq_none.mpr fun e he => ?_)
  have := keys e he
  simp only [decide_eq_true_eq]
  omega

/-- Below `0xC0` the map has two holes (R50). -/
theorem regAt_eq_none_iff (slot : Nat) :
    regAt (4 * slot) = none ↔ 4 * slot = 0x38 ∨ 4 * slot = 0x3C ∨ 0xC0 ≤ 4 * slot := by
  by_cases h : slot < 48
  · have below : ∀ n < 48, regAt (4 * n) = none ↔ 4 * n = 0x38 ∨ 4 * n = 0x3C := by decide
    rw [below slot h]
    omega
  · have past : 0xC0 ≤ 4 * slot := by omega
    exact iff_of_true (regAt_of_ge past) (.inr (.inr past))

theorem eq_variant_iff_of_regAt {o : Nat} {r : Reg} (h : regAt o = some r) : r = .variant ↔ o = 0x1C := by
  have rows : ∀ e ∈ regMap, e.2 = .variant ↔ e.1 = 0x1C := by decide
  exact rows (o, r) (mem_regMap_of_regAt h)

theorem readOffset_mapped {o : Nat} {r : Reg} (h : regAt o = some r) (s : State) : readOffset o s = r.value s := by
  simp only [readOffset, h]

theorem readOffset_unmapped {o : Nat} (h : regAt o = none) (s : State) : readOffset o s = 0 := by
  simp only [readOffset, h]

theorem writeOffset_unmapped {o : Nat} (h : regAt o = none) (v : Word32) (s : State) :
    writeOffset o v s = .next (raiseErr .hostProtocol s) := by
  simp only [writeOffset, h]

theorem due_read_step {s r : State} {slot : Nat} (h : Due s (.read slot) r) :
    step s = .next (r.setReply (some (readOffset (4 * slot) r))) := due_step h

theorem due_write_step {s r : State} {slot : Nat} {v : Word32} (h : Due s (.write slot v) r) :
    step s = writeOffset (4 * slot) v r := due_step h

/-- Settles O41: the holes of the map, and a due read or write of an unmapped offset as a host action. -/
theorem unmappedOffsets : Obligations.UnmappedOffsets := by
  refine ⟨regAt_eq_none_iff, fun s r slot hn hd => ?_, fun s r slot v hn hd => ?_⟩
  · rw [due_read_step hd, readOffset_unmapped hn]
  · rw [due_write_step hd, writeOffset_unmapped hn]

/-! ### Right after reset -/

theorem getHalf_zero (h : Half) : getHalf h 0 = 0 := by cases h <;> decide

/-- Every register but `VARIANT` is 0 after reset (R52). -/
theorem value_resetFor (v : Variant) (r : Reg) : r.value (State.resetFor v) =
    if r = .variant then BitVec.ofNat 32 (v.sf10.toNat * 16 + v.sf8.toNat) else 0 := by
  cases r with
  | frameSize h | yBase h | uBase h | vBase h | yStride h | uStride h | vStride h | dstBase h | dstSize h
  | yp h | up h | vp h | dp h | uc h | vc h => exact getHalf_zero h
  | _ => rfl

theorem readOffset_resetFor (v : Variant) (o : Nat) : readOffset o (State.resetFor v) =
    if o = 0x1C then BitVec.ofNat 32 (v.sf10.toNat * 16 + v.sf8.toNat) else 0 := by
  cases h : regAt o with
  | some r => simp only [readOffset_mapped h, value_resetFor, eq_variant_iff_of_regAt h]
  | none =>
    have hole : o ≠ 0x1C := by
      rintro rfl
      exact absurd h (by decide)
    rw [readOffset_unmapped h, if_neg hole]

/-- Settles O1, from the value of each register after reset and the one offset of `VARIANT`. -/
theorem resetValuesOfEveryRegister : Obligations.ResetValuesOfEveryRegister :=
  fun v => ⟨fun slot => readOffset_resetFor v (4 * slot), rfl, rfl, rfl, rfl, rfl, rfl⟩

/-! ### The invariant in every reachable state -/

theorem inv_resetFor {v : Variant} (h8 : 1 ≤ v.sf8.toNat) (h10 : 1 ≤ v.sf10.toNat) : StateInv (State.resetFor v) :=
  inv_idle ⟨.nil, nofun⟩ ⟨h8, h10⟩ (iff_of_false nofun fun h => h rfl) (Nat.two_pow_pos 30) (fun h => absurd rfl h) nofun

theorem inv_launched {s : State} (h : Launched s) : StateInv s := by
  obtain ⟨v, m, rs, l, h8, h10, hm, rfl⟩ := h
  exact inv_congr (inv_resetFor h8 h10) rfl rfl rfl rfl rfl rfl hm

theorem inv_blockStep {s t : State} (hi : StateInv s) (h : blockStep s = .next t) : StateInv t := by
  rcases blockStep_cases h with ⟨hb, hq⟩ | ⟨-, rfl⟩
  · exact inv_seqStep hi hb hq
  · exact hi

/-- A step is a host action or a step of the block (R169), and both keep the invariant. -/
theorem inv_step {s t : State} (hi : StateInv s) (h : step s = .next t) : StateInv t := by
  rcases step_cases s with ⟨a, r, hd, e⟩ | ⟨l, e, -⟩
  · obtain ⟨rest, rfl⟩ := hd.inputs
    exact inv_hostAct (inv_inputs hi rest) (e ▸ h)
  · exact inv_blockStep (inv_inputs hi l) (e ▸ h)

theorem Reachable.inv {s : State} (h : Reachable s) : StateInv s := by
  induction h with
  | launch s hl => exact inv_launched hl
  | step s t _ hs ih => exact inv_step ih hs

/-! ### What the invariant says of the numbers a host reads -/

theorem RunState.code_lt (st : RunState) : st.code < 3 := by cases st <;> decide

theorem Phase.code_lt (p : Phase) : p.code < 7 := by cases p <;> decide

theorem ErrCode.code_ne_zero_iff (c : ErrCode) : c.code ≠ 0 ↔ c ≠ .none := by cases c <;> decide

/-- `STATUS[1:0]` is `ST` (R30, R33). -/
theorem StatusFlags.status_mod_four (f : StatusFlags) : f.status % 4 = f.st.code := by
  have := f.st.code_lt
  unfold StatusFlags.status
  omega

theorem toNat_phase_value (s : State) : (Reg.phase.value s).toNat = s.seq.phase.code :=
  Nat.mod_eq_of_lt (Nat.lt_trans s.seq.phase.code_lt (by decide))

/-- A legal position of a line of even width is inside the frame, at an even column (R53). -/
theorem PositionOk.bounds {s : State} (h : PositionOk s) (hw : s.frame.width.toNat % 2 = 0) :
    s.seq.row.toNat ≤ s.frame.height.toNat ∧ s.seq.col.toNat ≤ s.frame.width.toNat ∧ s.seq.col.toNat % 2 = 0 := by
  unfold PositionOk at h
  cases hp : s.seq.phase <;> simp only [hp] at h <;> omega

/-- Settles O5: the invariant holds at a launch and every step keeps it, and each clause of R53 is read off it. -/
theorem reachableStatesObeyTheStateRules : Obligations.ReachableStatesObeyTheStateRules := by
  intro s hs
  have inv := hs.inv
  refine ⟨?_, ?_, Nat.div_eq_of_lt inv.valPad, ?_, fun hst => ?_, fun hb => ?_⟩
  · rw [s.flags.status_mod_four]
    exact Nat.ne_of_lt s.flags.st.code_lt
  · rw [toNat_phase_value]
    exact Nat.ne_of_lt s.seq.phase.code_lt
  · rw [ErrCode.code_ne_zero_iff]
    exact inv.errCode
  · have configured : s.flags.st ≠ .unconf := by rcases hst with h | h <;> simp [h]
    obtain ⟨width, fmt, stride, pad, size⟩ := inv.setup configured
    exact ⟨width, fmt, stride, pad, size⟩
  · obtain ⟨fits, val, position⟩ := inv.run hb
    have width := (inv.setup (by simp [hb])).evenWidth
    obtain ⟨row, col, even⟩ := position.bounds width
    exact ⟨fits, row, col, even, val⟩

end Sys2Proof.Machine
end

section
/-! The content words of a run's output, slot by slot (R90, R91, R94). -/

namespace Sys2Proof.Machine

/-! ### Slots of a line's words -/

theorem four_le_slotField {s : State} {h i : Nat} (hi : i < 2 * s.frame.width.toNat) : 4 ≤ slotField s h i := by
  rw [slotField, if_pos hi]
  exact field_pos _ _

theorem slotField_past {s : State} {h i : Nat} (hi : 2 * s.frame.width.toNat ≤ i) : slotField s h i = 0 := by
  rw [slotField, if_neg (Nat.not_lt.mpr hi)]

theorem lineWord_lt (s : State) (h m : Nat) : lineWord s h m < 2 ^ 30 :=
  packed_lt (slotField_lt s h _) (slotField_lt s h _) (slotField_lt s h _)

/-- Bits `10i + 9` down to `10i` of a word are its slot `i` (R90). -/
theorem lineWord_slot (s : State) (h m : Nat) {i : Nat} (hi : i < 3) :
    lineWord s h m / 2 ^ (10 * i) % 1024 = slotField s h (3 * m + i) := by
  have h0 := slotField_lt s h (3 * m)
  have h1 := slotField_lt s h (3 * m + 1)
  have h2 := slotField_lt s h (3 * m + 2)
  unfold lineWord packed
  obtain rfl | rfl | rfl : i = 0 ∨ i = 1 ∨ i = 2 := by omega
  · rw [Nat.add_zero (3 * m), Nat.mul_zero, Nat.pow_zero, Nat.div_one]
    omega
  · omega
  · omega

/-- Slot 0 of every content word holds a component: a line of even width ends in no empty word (R17). -/
theorem first_slot_lt {w m : Nat} (even : w % 2 = 0) (hm : m < contentWords w) : 3 * m < 2 * w := by
  rw [contentWords_eq w even] at hm
  unfold ceilDiv at hm
  omega

/-! ### The words a run leaves -/

/-- A run in the contract of R75 ends, and the content words of its output are those of R94. -/
theorem run_content_words {s : State} (start : RunStart s) (provided : BuffersProvided s) (contract : RegionsInContract s) :
    ∃ t : State, Sys2Proof.core.run (runSteps s) s = .next t ∧
      ∀ h m, h < s.frame.height.toNat → m < contentWords s.frame.width.toNat →
        t.loadLE 4 (s.frame.dstBase + BitVec.ofNat 64 (h * lineStrideOf s.frame.width.toNat + 4 * m)) =
          lineWord s h m := by
  obtain ⟨t, -, finished, -, -, -, lines⟩ := run_end start provided
  have even := (start.inv.setup (by simp [start.busy])).evenWidth
  -- the completing step moves the flags alone, so the lines of `t` are those of the end state
  refine ⟨_, (run_eq_repeat _ s).trans finished, fun h m hh hm => ?_⟩
  rw [BitVec.ofNat_add, ← BitVec.add_assoc]
  exact loadLE_lineWord (lines contract.apart) even hh hm

/-- Settles O57: each content word is that of R94, whose slots hold the fields of the line's components, at least 4 each,
and 0 past the last; its slot 0 always holds one. -/
theorem outputSlotsAreFilledInOrder : Obligations.OutputSlotsAreFilledInOrder := by
  intro s start provided contract
  have even := (start.inv.setup (by simp [start.busy])).evenWidth
  obtain ⟨t, finished, words⟩ := run_content_words start provided contract
  refine ⟨t, finished, fun h m hh hm => ?_⟩
  simp only [words h m hh hm]
  refine ⟨fun zero => ?_, Nat.div_eq_of_lt (lineWord_lt s h m), fun i hi component => ?_, fun i hi past => ?_⟩
  · have slot0 := lineWord_slot s h m (i := 0) (by decide)
    have filled : 4 ≤ slotField s h (3 * m) := four_le_slotField (first_slot_lt even hm)
    rw [zero, Nat.zero_div, Nat.zero_mod, Nat.add_zero] at slot0
    omega
  · rw [lineWord_slot s h m hi]
    exact four_le_slotField component
  · rw [lineWord_slot s h m hi]
    exact slotField_past past

end Sys2Proof.Machine
end

section
/-! What each packing operation reads, writes and leaves unchanged (R122 to R135). -/

namespace Sys2Proof.Machine

/-! ### Slots and bytes of the accumulator -/

/-- A slot is the field shifted to the slot's place in the word (R90, R102). -/
theorem ofNat_slotValue (d : Depth) (slot : Slot) (v : Nat) :
    BitVec.ofNat 32 (slotValue d slot v) = BitVec.ofNat 32 (field d v) <<< (10 * slot.code) := by
  have shift : slotShift slot = 10 * slot.code := by cases slot <;> rfl
  apply BitVec.eq_of_toNat_eq
  rw [slotValue, shift, BitVec.toNat_shiftLeft, BitVec.toNat_ofNat, BitVec.toNat_ofNat, Nat.shiftLeft_eq, Nat.mod_mul_mod]

/-- The word of a `WORD`: its three fields, each shifted to its slot (R125). -/
theorem wordValue_eq_shifts (d : Depth) (p : Pat) (s : State) :
    wordValue d p s =
      (s.work.val
        ||| BitVec.ofNat 32 (s.nextField d (patSample p .s0).1 (patSample p .s0).2)
        ||| (BitVec.ofNat 32 (s.nextField d (patSample p .s1).1 (patSample p .s1).2) <<< 10)
        ||| (BitVec.ofNat 32 (s.nextField d (patSample p .s2).1 (patSample p .s2).2) <<< 20)) := by
  simp only [wordValue, ofNat_slotValue, Slot.code, Nat.mul_zero, BitVec.shiftLeft_zero]
  rfl

/-- Byte `k` of a word, as a division and as a field of its bits (R64). -/
theorem ofNat_byte (w : Word32) (k : Nat) : BitVec.ofNat 8 (w.toNat / 256 ^ k) = w.extractLsb' (8 * k) 8 := by
  rw [BitVec.extractLsb', Nat.shiftRight_eq_div_pow, Nat.pow_mul]

/-! ### The primitive operations -/

/-- Settles O17: `NOP` is the identity. -/
theorem nopChangesNothing : Obligations.NopChangesNothing := ⟨rfl, fun _ => rfl⟩

/-- Settles O18: the state after `ACC` is `accResult`, read off field by field. -/
theorem accOrsOneFieldIntoVal : Obligations.AccOrsOneFieldIntoVal := by
  refine ⟨fun _ _ _ => rfl, fun d slot c s provided => ?_⟩
  refine ⟨accResult d slot c s, accumulate_next.mpr ⟨provided, rfl⟩, ?_, ?_, fun c' other => ?_, accResult_dp d slot c s,
    ?_, ?_, keepsRest_setWork s _, byteAt_accResult d slot c s⟩
  · simp [accResult]
  · simp [accResult, ofNat_slotValue]
  · simp [accResult, other]
  · simp [accResult]
  · simp [accResult]

/-- Settles O19: the bytes of the state after `FLUSH`, inside the four written and outside them. -/
theorem flushStoresValLittleEndian : Obligations.FlushStoresValLittleEndian := by
  refine ⟨rfl, fun s provided => ?_⟩
  have packs := packs_flushResult .d8 s
  refine ⟨flushResult s, flushWord_next.mpr ⟨provided, rfl⟩, fun k hk => ?_, packs.bytes, packs.dp, packs.val,
    fun c => ?_, rfl, rfl, packs.rest⟩
  · rw [byteAt_flushResult, add_ofNat_sub _ k (by omega), if_pos hk, ofNat_byte]
  · simp [flushResult]

/-! ### The words and groups -/

/-- Settles O20: the state after `WORD` is `wordResult`; its word read back is the OR of `VAL` and the three fields. -/
theorem wordPacksItsPattern : Obligations.WordPacksItsPattern := by
  refine ⟨fun _ _ => rfl, fun d p s samples out => ?_⟩
  have packs := packs_wordResult d p s
  refine ⟨wordResult d p s, packWord_next.mpr ⟨⟨samples, out⟩, rfl⟩, ?_, packs.bytes, fun c => ?_, packs.dp, packs.val,
    rfl, rfl, packs.rest⟩
  · rw [loadLE_wordResult, wordValue_eq_shifts]
  · cases c <;> rfl

/-- A packing operation that is provided what it needs completes, and packs. -/
theorem DoesPack.run {d : Depth} {y u v o : Nat} {f : Op} {s : State} (h : DoesPack d y u v o f)
    (ready : Ready d y u v o s) : ∃ t, f s = .next t ∧ Packs d y u v o s t := by
  obtain ⟨t, done⟩ := h.completes s ready
  exact ⟨t, done, h.packs s t done⟩

/-- Settles O22: `GROUP` packs `6`, `3`, `3` samples into 16 bytes, which are the words of R93. -/
theorem groupPacksSixLumaSamples : Obligations.GroupPacksSixLumaSamples := by
  refine ⟨fun _ => rfl, fun d s luma chromaU chromaV out => ?_⟩
  obtain ⟨t, done, packs⟩ := (doesPack_group d).run ⟨luma, chromaU, chromaV, out⟩
  refine ⟨t, done, packs.work, packs.rest, packs.bytes, fun val apartY apartU apartV => ?_⟩
  obtain ⟨word1, word2, word3, word4⟩ := group_written val ⟨apartY, apartU, apartV⟩ done
  exact ⟨word1, word2, word3, word4⟩

/-- Settles O24: `TAIL2` packs `2`, `1`, `1` samples into 8 bytes, which are the words of R130. -/
theorem tail2PacksTwoLumaSamples : Obligations.Tail2PacksTwoLumaSamples := by
  refine ⟨fun _ => rfl, fun d s luma chromaU chromaV out => ?_⟩
  have one : 1 * bps d = bps d := Nat.one_mul _
  obtain ⟨t, done, packs⟩ := (doesPack_tail2 d).run ⟨luma, by rwa [one], by rwa [one], out⟩
  refine ⟨t, done, ?_, packs.rest, packs.bytes, fun val apartY apartU apartV => ?_⟩
  · rw [packs.work, WorkRegs.after, one]
    rfl
  · exact tail2_written val ⟨apartY, by rwa [one], by rwa [one]⟩ done

/-- Settles O25: `TAIL4` packs `4`, `2`, `2` samples into 12 bytes, which are the words of R131. -/
theorem tail4PacksFourLumaSamples : Obligations.Tail4PacksFourLumaSamples := by
  refine ⟨fun _ => rfl, fun d s luma chromaU chromaV out => ?_⟩
  obtain ⟨t, done, packs⟩ := (doesPack_tail4 d).run ⟨luma, chromaU, chromaV, out⟩
  exact ⟨t, done, packs.work, packs.rest, packs.bytes,
    fun val apartY apartU apartV => tail4_written val ⟨apartY, apartU, apartV⟩ done⟩

/-! ### `BULK` -/

/-- A legal count is `6 * k` luma and `3 * k` samples of each chroma (R128). -/
theorem counts_of_legal {v : Variant} {d : Depth} {n : Nat} (legal : n % groupSize v d = 0) :
    6 * (n / 6) = n ∧ 3 * (n / 6) = n / 2 := by
  have := legal_count legal
  omega

/-- A `BULK` of a legal count that is not 0 packs that many samples (R128, R135). -/
theorem doesPack_groups_of_legal {v : Variant} {d : Depth} {n : Nat} (legal : n % groupSize v d = 0) (hn : n ≠ 0) :
    DoesPack d n (n / 2) (n / 2) (16 * (n / 6)) (repeatOp (n / 6) (packGroup d)) := by
  obtain ⟨luma, chroma⟩ := counts_of_legal legal
  obtain ⟨k, hk⟩ : ∃ k, n / 6 = k + 1 := ⟨n / 6 - 1, by omega⟩
  have groups := doesPack_groups d k
  rwa [← hk, luma, chroma] at groups

/-- From an empty accumulator a `BULK` of any legal count packs that many samples. -/
theorem bulk_packs {d : Depth} {n : Nat} {s t : State} (legal : n % groupSize s.variant d = 0) (val : s.work.val = 0)
    (h : execBulk d n s = .next t) : Packs d n (n / 2) (n / 2) (16 * (n / 6)) s t := by
  obtain ⟨luma, chroma⟩ := counts_of_legal legal
  have packs := groups_packs val ((execBulk_legal legal).symm.trans h)
  rwa [luma, chroma] at packs

/-- Settles O23: a legal count runs as whole groups, which are no operation at all for `BULK 0`; any other is refused. -/
theorem bulkPacksWholeGroupsOrRefuses : Obligations.BulkPacksWholeGroupsOrRefuses := by
  refine ⟨fun _ _ => rfl, fun d n s => ?_⟩
  have groups : n % groupSize s.variant d = 0 → exec (.bulk d n) s = repeatOp (n / 6) (packGroup d) s := execBulk_legal
  refine ⟨groups, fun legal luma chromaU chromaV out => ?_, execBulk_illegal (d := d)⟩
  rw [groups legal]
  by_cases hn : n = 0
  · subst hn
    exact ⟨s, rfl, by simp, by simp, by simp, by simp, rfl, rfl, rfl, KeepsRest.rfl' s, fun _ _ => rfl⟩
  · rw [Nat.mul_comm (n / 6)] at out ⊢
    obtain ⟨t, done, packs⟩ := (doesPack_groups_of_legal (d := d) legal hn).run ⟨luma, chromaU, chromaV, out⟩
    refine ⟨t, done, ?_, ?_, ?_, packs.dp, ?_, ?_, ?_, packs.rest, packs.bytes⟩
    all_goals simp [packs.work, hn]

/-! ### What the packing operations consume -/

/-- Every packing operation consumes and writes what the table of R135 says. -/
theorem exec_packs {i : Instr} {s t : State} {y u v o : Nat} (totals : packTotals i = some (y, u, v, o))
    (val : s.work.val = 0) (legal : ∀ d n, i = .bulk d n → n % groupSize s.variant d = 0)
    (h : exec i s = .next t) : Packs (packDepth i) y u v o s t := by
  cases i with
  | word d p => cases totals; exact packWord_packs h
  | group d => cases totals; exact (doesPack_group d).packs s t h
  | bulk d n => cases totals; exact bulk_packs (legal d _ rfl) val h
  | tail2 d => cases totals; exact (doesPack_tail2 d).packs s t h
  | tail4 d => cases totals; exact (doesPack_tail4 d).packs s t h
  | nop | acc | flush | zfill | rowsel | rowadv | init | start | ack => cases totals

/-- Settles O36, from the working registers every packing operation leaves. -/
theorem consumptionTotals : Obligations.ConsumptionTotals := by
  intro i s t y u v o totals val legal h
  have packs := exec_packs totals val legal h
  simp [packs.work]

end Sys2Proof.Machine
end

section
/-! What `ZFILL` writes and leaves unchanged (R151), and the padding a row of a run ends with (R152). -/

namespace Sys2Proof.Machine

/-! ### The bytes and registers after `ZFILL` -/

/-- Every byte after `ZFILL` (R151). -/
theorem byteAt_zfillResult (n : Nat) (s : State) (a : Addr) :
    (zfillResult n s).byteAt a = if (a - s.work.dp).toNat < n then 0 else s.byteAt a := by
  rw [zfillResult, byteAt_setWork, byteAt_storeZeros]

/-- Each of the `n` bytes at the old `DP` is 0 (R151), whatever the size of `n` beside the address space. -/
theorem byteAt_zfillResult_filled (s : State) {n i : Nat} (hi : i < n) :
    (zfillResult n s).byteAt (s.work.dp + BitVec.ofNat 64 i) = 0 := by
  have offset : (s.work.dp + BitVec.ofNat 64 i - s.work.dp).toNat ≤ i := by
    rw [add_sub_cancel_left, BitVec.toNat_ofNat]
    exact Nat.mod_le _ _
  rw [byteAt_zfillResult, if_pos (Nat.lt_of_le_of_lt offset hi)]

theorem byteAt_zfillResult_outside {n : Nat} {s : State} {a : Addr} (apart : outside a s.work.dp n) :
    (zfillResult n s).byteAt a = s.byteAt a := by
  rw [byteAt_zfillResult, if_neg (Nat.not_lt.mpr apart)]

/-- `ZFILL 0` is the identity (R151). -/
theorem zfillResult_zero (s : State) : zfillResult 0 s = s := by
  rw [zfillResult, storeZeros, BitVec.add_zero]
  rfl

/-- Settles O26: the state after `ZFILL` is `zfillResult`, whose bytes are 0 inside the `N` written and kept outside them. -/
theorem zfillWritesZeroBytes : Obligations.ZfillWritesZeroBytes := by
  refine ⟨fun _ => rfl, fun n s provided => ?_⟩
  refine ⟨zfillResult n s, execZfill_next.mpr ⟨provided, rfl⟩, fun _ => byteAt_zfillResult_filled s,
    fun _ => byteAt_zfillResult_outside, rfl, (zfillResult_keeps n s).rest, ?_⟩
  rintro rfl
  exact zfillResult_zero s

/-! ### The padding of a line -/

/-- Counted back from the new `DP`, the last `n` bytes are the ones `ZFILL` wrote. -/
theorem byteAt_zfillResult_before_dp (s : State) {n i : Nat} (hi : i < n) :
    (zfillResult n s).byteAt (s.work.dp + BitVec.ofNat 64 n - BitVec.ofNat 64 (i + 1)) = 0 := by
  have parts : n = (n - (i + 1)) + (i + 1) := by omega
  have back : s.work.dp + BitVec.ofNat 64 n - BitVec.ofNat 64 (i + 1) =
      s.work.dp + BitVec.ofNat 64 (n - (i + 1)) := by
    rw [congrArg (BitVec.ofNat 64) parts, BitVec.ofNat_add, ← add_assoc, add_sub_cancel_right]
  rw [back]
  exact byteAt_zfillResult_filled s (by omega)

/-- A row that completes ends with its `ZFILL` and its `ROWADV` (R178). -/
theorem lineOp_ends_with_zfill {d : Depth} {w : Nat} {s t : State} (h : lineOp d w s = .next t) :
    ∃ c, t = rowadvResult (zfillResult (linePadOf w) c) := by
  obtain ⟨_, -, h⟩ := andThen_next.mp h
  obtain ⟨c, -, h⟩ := andThen_next.mp h
  obtain ⟨_, filled, advanced⟩ := andThen_next.mp h
  obtain ⟨-, rfl⟩ := execZfill_next.mp filled
  exact ⟨c, (Host.Outcome.next.inj advanced).symm⟩

/-- A row that completes leaves zeros in the `LINE_PAD` bytes below `DP` (R152): `ROWADV` moves neither `DP` nor a byte. -/
theorem lineOp_padding_zero {d : Depth} {w : Nat} {s t : State} (h : lineOp d w s = .next t) {i : Nat}
    (hi : i < linePadOf w) : t.byteAt (t.work.dp - BitVec.ofNat 64 (i + 1)) = 0 := by
  obtain ⟨c, rfl⟩ := lineOp_ends_with_zfill h
  exact byteAt_zfillResult_before_dp c hi

/-- Settles O56: `h + 1` rows of a run leave `DP` at line `h + 1`, and the last of them is a row that completes. -/
theorem eachRowEndsWithZeroPadding : Obligations.EachRowEndsWithZeroPadding := by
  intro s h start provided hh
  have setup := start.inv.setup (by simp [start.busy])
  obtain ⟨t, steps, lines, row, -, -⟩ := rows_complete start provided (h + 1) hh
  obtain ⟨r, -, last⟩ := repeatOp_prefix lines
  rw [repeatOp, repeatOp, andThen_ret] at last
  refine ⟨t, (run_eq_repeat _ s).trans steps, ?_, fun i hi => lineOp_padding_zero last (setup.linePad ▸ hi)⟩
  rw [row.dp, lineBase, setup.lineStride]

end Sys2Proof.Machine
end

section
/-! The steps of the sequencer (R170 to R176), the row operations (R162, R163) and the host commands (R164 to R166). -/

namespace Sys2Proof.Machine

/-! ### Operands by format -/

/-- The group size of the depth a format selects (R98, R128). -/
theorem groupSize_depthOfFmt (v : Variant) (fmt : BitVec 2) :
    groupSize v (depthOfFmt fmt) = if fmt = 2 then 6 * v.sf10.toNat else 12 * v.sf8.toNat := by
  unfold depthOfFmt
  split <;> rfl

/-- The bytes of a sample by format (R10). -/
theorem bpsOfFmt_eq (fmt : BitVec 2) : bpsOfFmt fmt = if fmt = 2 then 2 else 1 := by
  unfold bpsOfFmt depthOfFmt
  split <;> rfl

/-! ### The steps of a running block -/

/-- The step of each phase (R169). -/
def phaseOp : Phase → Op
  | .chk => phaseChk
  | .sel => phaseSel
  | .bulk => phaseBulk
  | .grp => phaseGrp
  | .tail => phaseTail
  | .fill => phaseFill
  | .adv => phaseAdv

theorem seqStep_eq_phaseOp (s : State) : seqStep s = phaseOp s.seq.phase s := by
  unfold seqStep
  cases s.seq.phase <;> rfl

/-- A running block with no host action to come takes the step its `PHASE` names (R169). -/
theorem step_eq_phaseOp {s : State} (busy : s.flags.st = .busy) (quiet : s.inputs = []) {p : Phase}
    (hp : s.seq.phase = p) : step s = phaseOp p s := by
  rw [step_busy quiet busy, seqStep_eq_phaseOp, hp]

/-- A step that is `issue i` and then moves the position issues `i` in that sense (R20, R169). -/
theorem stepIssues_of_issue {s : State} {i : Instr} {f : SeqPos → SeqPos} (h : step s = issue i f s) :
    StepIssues s i f := by
  refine ⟨fun r done => ?_, fun q stops => ?_⟩
  · rw [h]
    exact issue_next.mpr ⟨r, done, rfl⟩
  · simp only [h, issue, andThen, stops]

/-- Settles O13: the step of each phase, with its operands in the rule's own terms and each test of the rule decided. -/
theorem sequencerStepIssuesItsOperation : Obligations.SequencerStepIssuesItsOperation := by
  intro s busy quiet d gs w col n
  have count : bulkCount s = n := by
    unfold bulkCount
    rw [groupSize_depthOfFmt]
  have stepOf : ∀ {p}, s.seq.phase = p → step s = phaseOp p s := step_eq_phaseOp busy quiet
  refine ⟨fun chk last => ?_, fun chk more => ?_, fun sel => stepIssues_of_issue (stepOf sel), fun bulk => ?_,
    fun grp fits => ?_, fun grp ends => ?_, fun tail two => ?_, fun tail four => ?_, fun tail complete => ?_,
    fun fill => stepIssues_of_issue (stepOf fill), fun adv => stepIssues_of_issue (stepOf adv)⟩
  · exact (stepOf chk).trans (if_pos last)
  · exact (stepOf chk).trans (if_neg more)
  · rw [← count]
    exact stepIssues_of_issue (stepOf bulk)
  · exact stepIssues_of_issue ((stepOf grp).trans (if_pos fits))
  · exact (stepOf grp).trans (if_neg (Nat.not_le.mpr ends))
  · have rest : w - col = 2 := by omega
    exact stepIssues_of_issue ((stepOf tail).trans (if_pos rest))
  · have rest : w - col = 4 := by omega
    have not2 : w - col ≠ 2 := by omega
    exact stepIssues_of_issue ((stepOf tail).trans ((if_neg not2).trans (if_pos rest)))
  · have not2 : w - col ≠ 2 := by omega
    have not4 : w - col ≠ 4 := by omega
    exact (stepOf tail).trans ((if_neg not2).trans (if_neg not4))

/-! ### The row operations -/

/-- Settles O27: the state after `ROWSEL` is `rowselResult`, whose test is the parity of the row alone. -/
theorem rowselCapturesOrReusesTheChromaRow : Obligations.RowselCapturesOrReusesTheChromaRow := by
  refine ⟨rfl, fun s => ⟨rowselResult s, execRowsel_eq s, fun fmt even => ?_, fun fmt odd => ?_, fun fmt => ?_,
    (rowselResult_keeps s).rest, fun a => ?_⟩⟩
  · rw [rowselResult, if_pos fmt, if_pos even, State.setWork_work]
  · have notEven : s.seq.row.toNat % 2 ≠ 0 := by omega
    rw [rowselResult, if_pos fmt, if_neg notEven, State.setWork_work]
  · rw [rowselResult, if_neg fmt]
  · rw [rowselResult_work_eq, byteAt_setWork]

/-- Settles O28: the state after `ROWADV` is `rowadvResult`, read off field by field. -/
theorem rowadvMovesToTheNextRow : Obligations.RowadvMovesToTheNextRow := by
  refine ⟨rfl, fun s => ?_⟩
  intro b w
  have bytes : bpsOfFmt s.frame.fmt = b := bpsOfFmt_eq s.frame.fmt
  rw [← bytes]
  exact ⟨rowadvResult s, execRowadv_eq s, rfl, rfl, rfl, rfl, rfl, rfl, rfl, rfl, rfl, rfl, fun _ => rfl⟩

/-! ### The host commands -/

/-- A host command reads and writes no memory, so nothing stops it (R76, R164 to R166). -/
theorem hostCommand_completes {i : Instr} (ctrl : i.port = .ctrl) (s : State) : ∃ t, exec i s = .next t := by
  have choice : ∀ {c : Prop} [Decidable c] {a b : Host.Outcome State Fault Refusal},
      (∃ t, a = .next t) → (∃ t, b = .next t) → ∃ t, (if c then a else b) = .next t := by
    intro c _ a b ha hb
    split <;> assumption
  cases i with
  | init => exact choice ⟨_, rfl⟩ (choice ⟨_, rfl⟩ (choice ⟨_, rfl⟩ ⟨_, rfl⟩))
  | start => exact choice ⟨_, rfl⟩ (choice ⟨_, rfl⟩ ⟨_, rfl⟩)
  | ack => exact choice ⟨_, rfl⟩ ⟨_, rfl⟩
  | nop | acc | flush | word | group | bulk | tail2 | tail4 | zfill | rowsel | rowadv => cases ctrl

/-- Settles O29: the four outcomes of `INIT`, each met by one clause and contrary to the premises of the others. -/
theorem initValidatesTheSetup : Obligations.InitValidatesTheSetup := by
  refine ⟨rfl, fun s => ?_⟩
  obtain ⟨t, done⟩ := hostCommand_completes (i := .init) rfl s
  rcases init_cases done with ⟨busy, rfl⟩ | ⟨idle, odd, rfl⟩ | ⟨idle, even, bad, rfl⟩ | ⟨idle, even, legal, rfl⟩
  · exact ⟨fun _ => done, fun h => absurd busy h, fun h => absurd busy h, fun h => absurd busy h⟩
  · have notEven : s.frame.width.toNat % 2 ≠ 0 := by omega
    exact ⟨fun h => absurd h idle, fun _ _ => done, fun _ h => absurd h notEven, fun _ h => absurd h notEven⟩
  · have notOdd : s.frame.width.toNat % 2 ≠ 1 := by omega
    exact ⟨fun h => absurd h idle, fun _ h => absurd h notOdd, fun _ _ _ => done, fun _ _ h => absurd bad h⟩
  · have notOdd : s.frame.width.toNat % 2 ≠ 1 := by omega
    obtain ⟨stride, pad, size⟩ := toNat_derive s.frame.width s.frame.height even
    exact ⟨fun h => absurd h idle, fun _ h => absurd h notOdd, fun _ _ h => absurd h legal,
      fun _ _ _ => ⟨_, done, stride, pad, size, rfl, rfl, rfl, rfl, rfl, rfl, rfl, rfl, rfl, fun _ => rfl⟩⟩

/-- Settles O30: the three outcomes of `START`, each met by one clause. -/
theorem startBeginsARun : Obligations.StartBeginsARun := by
  refine ⟨rfl, fun s => ?_⟩
  obtain ⟨t, done⟩ := hostCommand_completes (i := .start) rfl s
  rcases start_cases done with ⟨notReady, rfl⟩ | ⟨ready, small, rfl⟩ | ⟨ready, fits, rfl⟩
  · exact ⟨fun _ => done, fun h => absurd h notReady, fun h => absurd h notReady⟩
  · exact ⟨fun h => absurd ready h, fun _ _ => done, fun _ h => absurd h (Nat.not_le.mpr small)⟩
  · exact ⟨fun h => absurd ready h, fun _ h => absurd fits (Nat.not_le.mpr h),
      fun _ _ => ⟨_, done, rfl, rfl, rfl, rfl, rfl, rfl, rfl, rfl, rfl, rfl, fun _ => rfl⟩⟩

/-- With `DONE` and `ERR` clear the `irq` output is low, whatever `IE` (R219). -/
theorem irq_of_clear (st : RunState) (c : ErrCode) (ie : Bool) : StatusFlags.irq ⟨st, false, false, c, ie⟩ = false :=
  Bool.and_false ie

/-- Settles O31: the two outcomes of `ACK`, each met by one clause. -/
theorem ackClearsTheFlags : Obligations.AckClearsTheFlags := by
  refine ⟨rfl, fun s => ?_⟩
  obtain ⟨t, done⟩ := hostCommand_completes (i := .ack) rfl s
  rcases ack_cases done with ⟨busy, rfl⟩ | ⟨idle, rfl⟩
  · exact ⟨fun _ => done, fun h => absurd busy h⟩
  · exact ⟨fun h => absurd h idle, fun _ => ⟨_, done, rfl, irq_of_clear _ _ _⟩⟩

end Sys2Proof.Machine
end

section
/-! The output of a run in the contract of R75 (R181, R182), and the degenerate sizes (R185). -/

namespace Sys2Proof.Machine

/-! ### The bytes of a run's output -/

/-- Settles O52: the end state of a run differs in the flags alone from one whose lines are those of R94. -/
theorem runOutputIsTheClosedForm : Obligations.RunOutputIsTheClosedForm := by
  intro s start provided contract
  obtain ⟨t, -, finished, -, -, -, lines⟩ := run_end start provided
  refine ⟨_, (run_eq_repeat _ s).trans finished, fun h j hh hj => ?_⟩
  rw [BitVec.ofNat_add, ← BitVec.add_assoc]
  exact lines contract.apart h j hh hj

/-! ### The chroma of a row pair -/

/-- With `FMT = 1` two output rows of a pair use one chroma row (R180). -/
theorem crow_pair {f : FrameRegs} (fmt : f.fmt = 1) (k : Nat) : crow f (2 * k) = crow f (2 * k + 1) := by
  rw [crow, crow, if_pos fmt, if_pos fmt]
  omega

/-- An even component is a chroma sample, so it is the same wherever the chroma row is (R94). -/
theorem component_chroma {s : State} {h h' i : Nat} (row : crow s.frame h = crow s.frame h') (chroma : i % 2 = 0) :
    component s h i = component s h' i := by
  have not1 : i % 4 ≠ 1 := by omega
  simp only [component, row, if_neg not1]
  by_cases u : i % 4 = 0
  · rw [if_pos u, if_pos u]
  · have v : i % 4 = 2 := by omega
    rw [if_neg u, if_neg u, if_pos v, if_pos v]

/-- The word of a line that holds component `i` is one of its content words (R17, R94). -/
theorem word_of_component_lt {w i : Nat} (even : w % 2 = 0) (hi : i < 2 * w) : i / 3 < contentWords w := by
  rw [contentWords_eq w even]
  unfold ceilDiv
  omega

/-- The slot of component `i` of a line, read from its word (R90, R94). -/
theorem lineWord_component (s : State) (h i : Nat) :
    lineWord s h (i / 3) / 2 ^ (10 * (i % 3)) % 1024 = slotField s h i := by
  rw [lineWord_slot s h (i / 3) (Nat.mod_lt i (by decide)), Nat.div_add_mod]

/-- Settles O53: each slot of the output is a slot of R94's words, and those of a row pair come from one chroma row. -/
theorem chromaSlotsOfARowPairAgree : Obligations.ChromaSlotsOfARowPairAgree := by
  intro s start provided contract fmt
  have even := (start.inv.setup (by simp [start.busy])).evenWidth
  obtain ⟨t, finished, words⟩ := run_content_words start provided contract
  refine ⟨t, finished, fun k i hk hi chroma => ?_⟩
  have hm := word_of_component_lt even hi
  have pair : slotField s (2 * k) i = slotField s (2 * k + 1) i := by
    rw [slotField, slotField, component_chroma (crow_pair fmt k) chroma]
  intro slot
  have reads : ∀ h, h < s.frame.height.toNat → slot h = slotField s h i := fun h hh => by
    simp only [slot]
    rw [words h (i / 3) hh hm, lineWord_component]
  rw [reads (2 * k) (by omega), reads (2 * k + 1) hk, pair]

/-! ### Degenerate sizes -/

/-- The program of a line too short for a group: an empty `BULK`, no `GROUP`, and its remainder (R178, R185). -/
theorem lineProgram_short {s : State} (short : s.frame.width.toNat < 6) :
    lineProgram s = [.rowsel, .bulk (depthOfFmt s.frame.fmt) 0] ++
      tailOps (depthOfFmt s.frame.fmt) s.frame.width.toNat ++ [.zfill (linePadOf s.frame.width.toNat), .rowadv] := by
  have bulk : bulkCount s = 0 := by
    have := bulkCount_le s
    have := bulkCount_mod s
    omega
  have groups : extraGroups s = 0 := by
    unfold extraGroups
    omega
  rw [lineProgram, bulk, groups, List.replicate_zero, List.append_nil]

/-- A frame of width 0 has no byte (R16, R19). -/
theorem SetupValid.emptyFrame {s : State} (setup : SetupValid s) (width : s.frame.width = 0) :
    s.derived.lineStride = 0 ∧ s.derived.frameSize = 0 := by
  have line : lineStrideOf s.frame.width.toNat = 0 := by
    rw [width]
    decide
  constructor <;> apply BitVec.eq_of_toNat_eq
  · exact setup.lineStride.trans line
  · rw [setup.frameSize, frameSizeOf, line]
    rfl

theorem inPlane_zero (a base stride : Addr) (rows : Nat) : inPlane a base stride rows 0 = false := by
  simp [inPlane, inSpan]

theorem inSource_zeroWidth {f : FrameRegs} (width : f.width = 0) (a : Addr) : inSource f a = false := by
  have luma : lumaRowBytes f = 0 := by rw [lumaRowBytes, width]; exact Nat.zero_mul _
  have chroma : chromaRowBytes f = 0 := by rw [chromaRowBytes, width]; exact Nat.zero_mul _
  simp only [inSource, luma, chroma, inPlane_zero, Bool.or_false]

theorem inDest_emptyFrame {s : State} (size : s.derived.frameSize = 0) (a : Addr) : inDest s a = false := by
  simp [inDest, inSpan, size]

/-- A frame of width 0 asks for no buffer (R73, R74). -/
theorem buffersProvided_zeroWidth {s : State} (setup : SetupValid s) (width : s.frame.width = 0) :
    BuffersProvided s := by
  obtain ⟨-, size⟩ := setup.emptyFrame width
  refine ⟨fun a source => ?_, fun a dest => ?_⟩
  · rw [inSource_zeroWidth width] at source
    cases source
  · rw [inDest_emptyFrame size] at dest
    cases dest

/-- A run of width 0 completes and, having no destination, changes no byte (R74, R185). -/
theorem run_zeroWidth {s : State} (start : RunStart s) (width : s.frame.width = 0) :
    ∃ t : State, Sys2Proof.core.run (runSteps s) s = .next t ∧ t.flags.done = true ∧ ∀ a, t.byteAt a = s.byteAt a := by
  have setup := start.inv.setup (by simp [start.busy])
  obtain ⟨-, size⟩ := setup.emptyFrame width
  obtain ⟨t, -, finished, -, row, -, -⟩ := run_end start (buffersProvided_zeroWidth setup width)
  exact ⟨_, (run_eq_repeat _ s).trans finished, rfl, fun a => row.bytes a (inDest_emptyFrame size a)⟩

/-- A frame without bytes is never too large for the buffer (R165, R185). -/
theorem start_emptyFrame {s : State} (ready : s.flags.st = .ready) (size : s.derived.frameSize = 0) :
    ∃ t, exec .start s = .next t ∧ t.flags.st = .busy := by
  obtain ⟨t, done⟩ := hostCommand_completes (i := .start) rfl s
  rcases start_cases done with ⟨notReady, -⟩ | ⟨-, small, -⟩ | ⟨-, -, rfl⟩
  · exact absurd ready notReady
  · rw [size] at small
    exact absurd small (Nat.not_lt_zero _)
  · exact ⟨_, done, rfl⟩

/-- A run of height 0 is at its end from the start (R177, R185). -/
theorem step_zeroHeight {s : State} (start : RunStart s) (height : s.frame.height = 0) :
    step s = .next (s.setFlags { s.flags with st := .ready, done := true }) := by
  have rows : s.frame.height.toNat = 0 := by rw [height]; rfl
  exact step_done start (rows ▸ rowAt_start start)

/-- Settles O58: the program of a short line, evaluated at each width, and the runs of an empty frame. -/
theorem degenerateSizes : Obligations.DegenerateSizes := by
  intro s setup d
  refine ⟨fun width => ?_, fun height start => step_zeroHeight start height, fun width => ?_, fun width => ?_⟩
  · obtain ⟨stride, size⟩ := setup.emptyFrame width
    refine ⟨stride, size, ?_, fun ready => start_emptyFrame ready size, fun start => run_zeroWidth start width⟩
    rw [lineProgram_short (by rw [width]; decide), width]
    rfl
  · rw [lineProgram_short (by rw [width]; decide), width]
    exact ⟨rfl, rfl⟩
  · rw [lineProgram_short (by rw [width]; decide), width]
    exact ⟨rfl, rfl⟩

end Sys2Proof.Machine
end

section
/-! How a step takes an error (R221): through a register write alone, and precisely. -/

namespace Sys2Proof.Machine

/-- From `s`, with `ERR` clear, to `t` an error is taken as R221 says: registers and memory are kept, and of the flags only
those change that its code names. -/
def PreciseError (s t : State) : Prop :=
  t.work = s.work ∧ t.seq = s.seq ∧ t.frame = s.frame ∧ t.derived = s.derived ∧ t.variant = s.variant ∧
  t.mem = s.mem ∧ t.flags.ie = s.flags.ie ∧ t.flags.errcode ≠ .none ∧
  (t.flags.errcode = .cfgOddWidth ∨ t.flags.errcode = .cfgBadFormat →
    t.flags.st = .unconf ∧ t.flags.done = false) ∧
  (t.flags.errcode = .resNoBuffer → t.flags.st = s.flags.st ∧ t.flags.done = false) ∧
  (t.flags.errcode = .illCmd ∨ t.flags.errcode = .hostProtocol →
    t.flags.st = s.flags.st ∧ t.flags.done = s.flags.done)

/-- The two codes of a refused write touch neither `ST` nor `DONE`. -/
theorem preciseError_raiseErr {c : ErrCode} {s : State} (code : c = .illCmd ∨ c = .hostProtocol)
    (clear : s.flags.err = false) : PreciseError s (raiseErr c s) := by
  have errcode : (raiseErr c s).flags.errcode = c := by simp [raiseErr_flags_errcode, clear]
  rcases code with rfl | rfl <;> simp [PreciseError, errcode]

/-! ### What does not move `ERR` -/

theorem put_flags_err (v : Word32) (s : State) (r : Reg) : (r.put v s).flags.err = s.flags.err := by
  cases r <;> rfl

theorem blockStep_flags_err {s t : State} (h : blockStep s = .next t) : t.flags.err = s.flags.err := by
  rcases blockStep_cases h with ⟨-, h⟩ | ⟨-, rfl⟩
  · obtain ⟨-, -, -, -, -, -, -, -, same | ⟨-, -, rfl⟩⟩ := seqStep_keeps h
    · rw [same]
    · rfl
  · rfl

/-! ### The writes that take an error -/

/-- A write takes an error by its refusal, or by the instruction it runs; an accepted store takes none (R47). -/
theorem preciseError_write {o : Nat} {v : Word32} {s t : State} (h : writeOffset o v s = .next t)
    (clear : s.flags.err = false) (set : t.flags.err = true) : PreciseError s t := by
  have stored (r : Reg) : (r.put v s).flags.err ≠ true := by simp [put_flags_err, clear]
  rcases writeOffset_cases h with (rfl | rfl) | ⟨i, run, -⟩ | rfl | ⟨r, -, -, rfl⟩ | ⟨r, -, -, rfl⟩
  · exact preciseError_raiseErr (.inr rfl) clear
  · exact preciseError_raiseErr (.inl rfl) clear
  · exact exec_error run clear set
  · exact absurd set (stored .inten)
  · exact absurd set (stored r)
  · exact absurd set (stored r)

/-- Of the host actions a write alone takes an error (R49, R241). -/
theorem preciseError_hostAct {a : HostAct} {s t : State} (h : hostAct a s = .next t)
    (clear : s.flags.err = false) (set : t.flags.err = true) : PreciseError s t := by
  have unset : s.flags.err ≠ true := by simp [clear]
  cases a with
  | write slot v => exact preciseError_write h clear set
  | read slot =>
    obtain rfl := Host.Outcome.next.inj h
    exact absurd set unset
  | poke a b =>
    simp only [hostAct] at h
    split at h
    · obtain rfl := Host.Outcome.next.inj h
      exact absurd set unset
    · cases h
  | peek a =>
    simp only [hostAct] at h
    split at h
    · obtain rfl := Host.Outcome.next.inj h
      exact absurd set unset
    · cases h
  | reset =>
    obtain rfl := Host.Outcome.next.inj h
    obtain ⟨-, -, flags, -⟩ := platformReset_fields s
    rw [flags] at set
    cases set

/-- Settles O38: a step is a due host action, which takes an error only as a write, or a step of the block, which keeps `ERR`.
Taking the action off the input list changes nothing R221 speaks of. -/
theorem errorEntryIsPrecise : Obligations.ErrorEntryIsPrecise := by
  intro s t h clear set
  rcases step_cases s with ⟨a, r, due, e⟩ | ⟨l, e, -⟩
  · obtain ⟨rest, rfl⟩ := due.inputs
    exact preciseError_hostAct (s := s.setInputs rest) (e ▸ h) clear set
  · have kept : t.flags.err = s.flags.err := blockStep_flags_err (s := s.setInputs l) (e ▸ h)
    simp [kept, clear] at set

end Sys2Proof.Machine
end

section
/-! Decoding and encoding are inverse (R103), the legal words and their number, and the opcode map (R104). -/

namespace Sys2Proof

/-! ### Decoding an encoded instruction -/

/-- A micro-operation is read back from the fields of its word, whatever its operands. -/
theorem decode_encode {i : Instr} (wf : i.wf = true) : decode i.port (encode i) = .ok i := by
  cases i with
  | nop | flush | rowsel | rowadv | init | start | ack => decide
  | acc d slot src =>
    refine (decodeCmd_packFields (by decide) d.code_lt slot.code_lt src.code_lt (by decide)).trans ?_
    simp [decodeFields, decodeAcc, onlyIf, slotOf_code, srcOf_code, depthOf_code]
  | word d pat =>
    refine (decodeCmd_packFields (by decide) d.code_lt pat.code_lt (by decide) (by decide)).trans ?_
    simp [decodeFields, onlyIf, patOf_code, depthOf_code]
  | group d | tail2 d | tail4 d =>
    refine (decodeCmd_packFields (by decide) d.code_lt (by decide) (by decide) (by decide)).trans ?_
    simp [decodeFields, onlyIf, depthOf_code]
  | bulk d n =>
    refine (decodeCmd_packFields (by decide) d.code_lt (by decide) (by decide) (of_decide_eq_true wf)).trans ?_
    simp [decodeFields, onlyIf, depthOf_code]
  | zfill n =>
    refine (decodeCmd_packFields (by decide) (by decide) (by decide) (by decide) (of_decide_eq_true wf)).trans ?_
    simp [decodeFields, onlyIf]

/-- Settles O6, constructor by constructor: each operand is read back from the field it is packed in. -/
theorem decodeOfEncodeIsTheInstruction : Obligations.DecodeOfEncodeIsTheInstruction := fun _ => decode_encode

/-- Settles O7, from what each of the two decoders accepts. -/
theorem legalWordIsTheEncodingOfItsReading : Obligations.LegalWordIsTheEncodingOfItsReading := by
  intro p w i h
  cases p with
  | cmd =>
    obtain ⟨-, port, wf, word, -⟩ := decodeCmd_ok h
    exact ⟨port, wf, word⟩
  | ctrl => exact decodeCtrl_ok h

/-- Settles O10, by evaluating the decoders at the words. -/
theorem sampleWordsDecodeAsTheSpecSays : Obligations.SampleWordsDecodeAsTheSpecSays := by
  unfold Obligations.SampleWordsDecodeAsTheSpecSays
  decide

/-! ### The number of legal words -/

/-- The legal micro-operation words are the words of the well-formed micro-operations. -/
theorem exists_decodeCmd_iff (c : Word32) :
    (∃ i, decodeCmd c = .ok i) ↔ ∃ i : Instr, (i.port = .cmd ∧ i.wf = true) ∧ encode i = c := by
  constructor
  · rintro ⟨i, h⟩
    obtain ⟨-, port, wf, word, -⟩ := decodeCmd_ok h
    exact ⟨i, ⟨port, wf⟩, word⟩
  · rintro ⟨i, ⟨port, wf⟩, rfl⟩
    have read := decode_encode wf
    rw [port] at read
    exact ⟨i, read⟩

def depths : Finset Depth := {.d8, .d10}
def slots : Finset Slot := {.s0, .s1, .s2}
def sources : Finset Src := {.y, .u, .v}
def patterns : Finset Pat := {.uyv, .yuy, .vyu, .yvy}

/-- The micro-operations without a count. -/
def plainOps : Finset Instr :=
  {.nop, .flush, .rowsel, .rowadv} ∪ (depths ×ˢ slots ×ˢ sources).image (fun x => .acc x.1 x.2.1 x.2.2) ∪
    (depths ×ˢ patterns).image (fun x => .word x.1 x.2) ∪ depths.image .group ∪ depths.image .tail2 ∪ depths.image .tail4

/-- The micro-operations with a 16-bit count, a family each. -/
def countedOps (make : Nat → Instr) : Finset Instr := (Finset.range 65536).image make

/-- The well-formed micro-operations. -/
def legalOps : Finset Instr :=
  plainOps ∪ (countedOps (.bulk .d8) ∪ (countedOps (.bulk .d10) ∪ countedOps .zfill))

theorem mem_countedOps {make : Nat → Instr} {i : Instr} : i ∈ countedOps make ↔ ∃ n < 65536, make n = i := by
  simp only [countedOps, Finset.mem_image, Finset.mem_range]

theorem mem_legalOps (i : Instr) : i ∈ legalOps ↔ i.port = .cmd ∧ i.wf = true := by
  have depth (d : Depth) : d ∈ depths := by cases d <;> decide
  have slot (x : Slot) : x ∈ slots := by cases x <;> decide
  have source (x : Src) : x ∈ sources := by cases x <;> decide
  have pattern (x : Pat) : x ∈ patterns := by cases x <;> decide
  simp only [legalOps, plainOps, Finset.mem_union, mem_countedOps]
  cases i with
  | bulk d n => cases d <;> simp [Instr.port, Instr.wf, countFits]
  | _ => simp [Instr.port, Instr.wf, countFits, depth, slot, source, pattern]

theorem card_plainOps : plainOps.card = 36 := by decide

theorem card_countedOps {make : Nat → Instr} (inj : Function.Injective make) : (countedOps make).card = 65536 := by
  rw [countedOps, Finset.card_image_of_injective _ inj, Finset.card_range]

/-- No counted micro-operation of one family is in a set whose members are none of that family's. -/
theorem disjoint_countedOps {ops : Finset Instr} {make : Nat → Instr} (apart : ∀ n, make n ∉ ops) :
    Disjoint (countedOps make) ops := by
  refine Finset.disjoint_left.mpr fun i hi => ?_
  obtain ⟨n, -, rfl⟩ := mem_countedOps.mp hi
  exact apart n

theorem card_legalOps : legalOps.card = 196644 := by
  have apart8 (n : Nat) : Instr.bulk .d8 n ∉ countedOps (.bulk .d10) ∪ countedOps .zfill := by
    simp [mem_countedOps]
  have apart10 (n : Nat) : Instr.bulk .d10 n ∉ countedOps .zfill := by simp [mem_countedOps]
  have plain : Disjoint plainOps (countedOps (.bulk .d8) ∪ (countedOps (.bulk .d10) ∪ countedOps .zfill)) := by
    simp only [Finset.disjoint_union_right]
    refine ⟨.symm ?_, .symm ?_, .symm ?_⟩ <;> exact disjoint_countedOps fun n => by simp [plainOps]
  rw [legalOps, Finset.card_union_of_disjoint plain, Finset.card_union_of_disjoint (disjoint_countedOps apart8),
    Finset.card_union_of_disjoint (disjoint_countedOps apart10), card_plainOps,
    card_countedOps fun _ _ h => by simpa using h, card_countedOps fun _ _ h => by simpa using h,
    card_countedOps fun _ _ h => by simpa using h]

/-- Two well-formed micro-operations with one word are one. -/
theorem encode_injOn : Set.InjOn encode (legalOps : Set Instr) := by
  intro i hi j hj same
  obtain ⟨porti, wfi⟩ := (mem_legalOps i).mp hi
  obtain ⟨portj, wfj⟩ := (mem_legalOps j).mp hj
  have readi := decode_encode wfi
  rw [porti, same, ← portj, decode_encode wfj] at readi
  exact (Except.ok.inj readi).symm

/-- Settles O8: the legal words are the words of the well-formed micro-operations, 36 without a count and three families
of 65536 counts, and no two of them share a word. -/
theorem legalMicroOperationWordsNumber196644 : Obligations.LegalMicroOperationWordsNumber196644 := by
  unfold Obligations.LegalMicroOperationWordsNumber196644
  rw [Nat.subtype_card (legalOps.image encode), Finset.card_image_of_injOn encode_injOn, card_legalOps]
  intro c
  simp only [Finset.mem_image, mem_legalOps, exists_decodeCmd_iff]

/-! ### The opcode map -/

/-- The fields, as `(hi, lo, value)`, that are 0 in every word of an `OPC` beside bits 22:16 (R104). -/
def unusedFields : Nat → List (Nat × Nat × Nat)
  | 1 => [(15, 0, 0)]
  | 3 => [(24, 23, 0), (15, 0, 0)]
  | 4 | 6 | 7 => [(26, 25, 0), (24, 23, 0), (15, 0, 0)]
  | 5 => [(26, 25, 0), (24, 23, 0)]
  | 8 => [(27, 27, 0), (26, 25, 0), (24, 23, 0)]
  | _ => [(27, 27, 0), (26, 25, 0), (24, 23, 0), (15, 0, 0)]

/-- All the fields that a row of the opcode map fixes (R104). -/
def fixedFields (opc : Nat) : List (Nat × Nat × Nat) := (31, 28, opc) :: (22, 16, 0) :: unusedFields opc

/-- A row's mask and match compare the fields the row fixes. -/
theorem and_mask_eq_match_iff {e : Nat × Word32 × Word32} (he : e ∈ opcodeMap) (c : Word32) :
    c &&& e.2.2 = e.2.1 ↔ ∀ f ∈ fixedFields e.1, bits c f.1 f.2.1 = f.2.2 := by
  have inWord : ∀ e ∈ opcodeMap, ∀ f ∈ fixedFields e.1, f.2.2 < 2 ^ (f.1 - f.2.1 + 1) ∧ f.2.1 ≤ f.1 ∧ f.1 < 32 := by
    decide
  have mask : ∀ e ∈ opcodeMap, ∀ i < 32, e.2.2.getLsbD i = (fixedFields e.1).any fun f => f.2.1 ≤ i && i ≤ f.1 := by
    decide
  have value : ∀ e ∈ opcodeMap, ∀ f ∈ fixedFields e.1, ∀ i < f.1 - f.2.1 + 1,
      e.2.1.getLsbD (f.2.1 + i) = f.2.2.testBit i := by decide
  have elsewhere : ∀ e ∈ opcodeMap, ∀ i < 32, e.2.2.getLsbD i = false → e.2.1.getLsbD i = false := by decide
  exact and_fields c e.2.2 e.2.1 (fixedFields e.1) (inWord e he) (mask e he) (value e he) (elsewhere e he)

theorem exists_onlyIf {b : Bool} {i : Instr} : (∃ j, onlyIf b i = .ok j) ↔ b = true := by
  cases b <;> simp [onlyIf]

/-- The reading of the fields where bits 22:16 are checked first. -/
theorem exists_guarded {z : Nat} {r : Except Reject Instr} :
    (∃ i, (if z ≠ 0 then .error .zeroBits else r) = Except.ok i) ↔ z = 0 ∧ ∃ i, r = .ok i := by
  by_cases h : z = 0 <;> simp [h]

/-- `ACC` is legal exactly with a slot, a source and no count (R99, R100). -/
theorem exists_decodeAcc {d sel src n : Nat} (hsel : sel < 4) (hsrc : src < 4) :
    (∃ i, decodeAcc d sel src n = .ok i) ↔ n = 0 ∧ sel ≠ 3 ∧ src ≠ 3 := by
  have slot : slotOf sel = none ↔ sel = 3 := by unfold slotOf; interval_cases sel <;> decide
  have source : srcOf src = none ↔ src = 3 := by unfold srcOf; interval_cases src <;> decide
  rw [ne_eq, ne_eq, ← slot, ← source, decodeAcc]
  cases slotOf sel <;> cases srcOf src <;> simp [exists_onlyIf]

/-- Which words of a row's `OPC` are legal: those whose unused fields are 0 and, for `ACC`, with no reserved slot or source
(R96, R104). -/
theorem exists_decodeCmd_row {e : Nat × Word32 × Word32} (he : e ∈ opcodeMap) {c : Word32} (opc : bits c 31 28 = e.1) :
    (∃ i, decodeCmd c = .ok i) ↔ (∀ f ∈ (22, 16, 0) :: unusedFields e.1, bits c f.1 f.2.1 = f.2.2) ∧
      (e.1 = 1 → bits c 26 25 ≠ 3 ∧ bits c 24 23 ≠ 3) := by
  have sel : bits c 26 25 < 4 := Nat.mod_lt _ (by decide)
  have src : bits c 24 23 < 4 := Nat.mod_lt _ (by decide)
  simp only [decodeCmd, opc, decodeFields, exists_guarded]
  simp only [opcodeMap, List.mem_cons, List.not_mem_nil, or_false] at he
  rcases he with rfl | rfl | rfl | rfl | rfl | rfl | rfl | rfl | rfl | rfl | rfl <;>
    simp [exists_onlyIf, exists_decodeAcc sel src, unusedFields, and_assoc]

/-- Settles O9: a reading has the `OPC` of its word, so a row's words are the legal ones of its `OPC`, and two rows that
share a word have one `OPC`. -/
theorem opcodeMapSelectsTheOperation : Obligations.OpcodeMapSelectsTheOperation := by
  refine ⟨fun c e he => ?_, fun c e he e' he' row row' => ?_⟩
  · have reading : (∃ i, decodeCmd c = .ok i ∧ i.opc = some e.1) ↔ bits c 31 28 = e.1 ∧ ∃ i, decodeCmd c = .ok i := by
      constructor
      · rintro ⟨i, read, opc⟩
        obtain ⟨-, -, -, -, own⟩ := decodeCmd_ok read
        exact ⟨Option.some.inj (own.symm.trans opc), i, read⟩
      · rintro ⟨opc, i, read⟩
        obtain ⟨-, -, -, -, own⟩ := decodeCmd_ok read
        exact ⟨i, read, opc ▸ own⟩
    rw [reading, and_mask_eq_match_iff he, fixedFields, List.forall_mem_cons, and_assoc]
    exact and_congr_right fun opc => exists_decodeCmd_row he opc
  · have keys : ∀ e ∈ opcodeMap, ∀ e' ∈ opcodeMap, e.1 = e'.1 → e = e' := by decide
    have opc := (and_mask_eq_match_iff he c).mp row _ (List.mem_cons_self ..)
    have opc' := (and_mask_eq_match_iff he' c).mp row' _ (List.mem_cons_self ..)
    exact keys e he e' he' (opc.symm.trans opc')

end Sys2Proof
end

section
/-! The invariant at reset and under every step (R53), the reset input (R240 to R242), and what no step changes: the sample
factors (R38), a run's end and inputs (R177, R82), and the bytes away from `DP` (R61). -/

namespace Sys2Proof.Machine

/-! ### The invariant -/

/-- Settles O4: a step is a host action or a step of the block, and each kind of them keeps the invariant. -/
theorem everyStepKeepsTheInvariant : Obligations.EveryStepKeepsTheInvariant := fun _ _ => inv_step

/-- Settles O3. -/
theorem invariantHoldsAtReset : Obligations.InvariantHoldsAtReset := fun _ => inv_resetFor

/-! ### The reset input -/

/-- The reset input touches no byte but the destination of a run in progress (R241, R242). -/
theorem byteAt_platformReset {s : State} {a : Addr} (kept : s.flags.st ≠ .busy ∨ inDest s a = false) :
    (platformReset s).byteAt a = s.byteAt a := by
  by_cases busy : s.flags.st = .busy
  · have apart : s.derived.frameSize.toNat ≤ (a - s.frame.dstBase).toNat := by
      simpa [inDest, inSpan] using kept.resolve_left (not_not_intro busy)
    have memory : (platformReset s).mem =
        (s.setMem (storeFree s.freeCount s.derived.frameSize.toNat 0 s.frame.dstBase s.mem)).mem := by
      simp only [platformReset, if_pos busy, State.setMem_mem]
    rw [byteAt_congr memory, byteAt_storeFree _ _ _ _ _ _ apart]
  · refine byteAt_congr ?_ a
    simp only [platformReset, if_neg busy]

/-- A block that is not `BUSY` and has no host action to take stays as it is (R230). -/
theorem step_idle {s : State} (quiet : s.inputs = []) (idle : s.flags.st ≠ .busy) : step s = .next s := by
  rw [step_quiet quiet, blockStep, if_neg idle]

/-- Settles O2: the step is `platformReset`, read off field by field; after it the block is `UNCONF`. -/
theorem resetInputResetsTheBlock : Obligations.ResetInputResetsTheBlock := by
  intro s r due
  obtain ⟨rest, rfl⟩ := due.inputs
  obtain ⟨work, seq, flags, frame, derived, variant, -⟩ := platformReset_fields (s.setInputs rest)
  refine ⟨_, due_step due, work, seq, flags, frame, derived, variant, ?_,
    fun idle a => byteAt_platformReset (.inl idle), fun a apart => byteAt_platformReset (.inr apart),
    fun quiet => step_idle quiet ?_⟩
  · rw [flags]
    rfl
  · rw [flags]
    nofun

/-! ### The sample factors -/

theorem put_variant (v : Word32) (s : State) (r : Reg) : (r.put v s).variant = s.variant := by
  cases r <;> rfl

theorem hostAct_variant {a : HostAct} {s t : State} (h : hostAct a s = .next t) : t.variant = s.variant := by
  cases a with
  | write slot v =>
    rcases writeOffset_cases h with (rfl | rfl) | ⟨i, run, -⟩ | rfl | ⟨r, -, -, rfl⟩ | ⟨r, -, -, rfl⟩
    · rfl
    · rfl
    · obtain ⟨-, variant, -⟩ := exec_keeps run
      exact variant
    · rfl
    · exact put_variant v s r
    · exact put_variant v s r
  | read slot =>
    obtain rfl := Host.Outcome.next.inj h
    rfl
  | poke a b =>
    simp only [hostAct] at h
    split at h
    · obtain rfl := Host.Outcome.next.inj h
      rfl
    · cases h
  | peek a =>
    simp only [hostAct] at h
    split at h
    · obtain rfl := Host.Outcome.next.inj h
      rfl
    · cases h
  | reset =>
    obtain rfl := Host.Outcome.next.inj h
    obtain ⟨-, -, -, -, -, variant, -⟩ := platformReset_fields s
    exact variant

/-- What a step of the block keeps, `BUSY` or not. -/
theorem blockStep_keeps {s t : State} (h : blockStep s = .next t) :
    t.frame = s.frame ∧ t.derived = s.derived ∧ t.variant = s.variant := by
  rcases blockStep_cases h with ⟨-, h⟩ | ⟨-, rfl⟩
  · obtain ⟨frame, derived, variant, -⟩ := seqStep_keeps h
    exact ⟨frame, derived, variant⟩
  · exact ⟨rfl, rfl, rfl⟩

/-- Settles O44: neither a host action nor a step of the block writes `VARIANT`. -/
theorem variantNeverChanges : Obligations.VariantNeverChanges := by
  intro s t h
  rcases step_cases s with ⟨a, r, due, e⟩ | ⟨l, e, -⟩
  · obtain ⟨rest, rfl⟩ := due.inputs
    exact hostAct_variant (s := s.setInputs rest) (e ▸ h)
  · obtain ⟨-, -, variant⟩ := blockStep_keeps (s := s.setInputs l) (e ▸ h)
    exact variant

/-! ### A run in progress -/

/-- Settles O45: a host action other than reset leaves the block `BUSY`, and so does a sequencer step but the completing
one. -/
theorem onlyCompletionOrResetEndsARun : Obligations.OnlyCompletionOrResetEndsARun := by
  intro s t h busy ended
  rcases step_cases s with ⟨a, r, due, e⟩ | ⟨l, e, -⟩
  · obtain ⟨rest, rfl⟩ := due.inputs
    rcases hostAct_busy (s := s.setInputs rest) busy (e ▸ h) with rfl | ⟨-, -, -, -, still, -⟩
    · exact .inr ⟨_, due⟩
    · exact absurd still ended
  · rcases blockStep_cases (s := s.setInputs l) (e ▸ h) with ⟨-, h⟩ | ⟨idle, -⟩
    · obtain ⟨-, -, -, -, -, -, -, -, same | ⟨chk, last, rfl⟩⟩ := seqStep_keeps h
      · exact absurd (same ▸ busy) ended
      · exact .inl ⟨chk, last, rfl, rfl, rfl, rfl, rfl, rfl, rfl⟩
    · exact absurd busy idle

/-- Settles O46: a step of the block writes no configuration, and a host action that leaves the run going is none that
moves a register of it or a byte of its buffers. -/
theorem runInputsAreImmutable : Obligations.RunInputsAreImmutable := by
  intro s t h busy still
  rcases step_cases s with ⟨a, r, due, e⟩ | ⟨l, e, none⟩
  · obtain ⟨rest, rfl⟩ := due.inputs
    rcases hostAct_busy (s := s.setInputs rest) busy (e ▸ h) with rfl | ⟨work, seq, frame, derived, -, bytes⟩
    · obtain rfl := Host.Outcome.next.inj (e.symm.trans h)
      obtain ⟨-, -, flags, -⟩ := platformReset_fields (s.setInputs rest)
      rw [flags] at still
      cases still
    · exact ⟨frame, derived, fun _ _ _ => ⟨work, seq, bytes⟩⟩
  · obtain ⟨frame, derived, -⟩ := blockStep_keeps (s := s.setInputs l) (e ▸ h)
    exact ⟨frame, derived, fun a r due => absurd due (none a r)⟩

/-! ### The bytes a step of the block writes -/

/-- The bytes from the old `DP` to the new one hold every byte that differs. -/
def WritesBelowDp (s t : State) : Prop :=
  ∀ a, outside a s.work.dp (t.work.dp - s.work.dp).toNat → t.byteAt a = s.byteAt a

theorem writesBelowDp_of_bytes {s t : State} (same : ∀ a, t.byteAt a = s.byteAt a) : WritesBelowDp s t :=
  fun a _ => same a

/-- Moving the sequencer position writes no byte. -/
theorem WritesBelowDp.setSeq {s t : State} (h : WritesBelowDp s t) (q : SeqPos) : WritesBelowDp s (t.setSeq q) := h

theorem Packs.writesBelowDp {d : Depth} {y u v o : Nat} {s t : State} (h : Packs d y u v o s t) (small : o < 2 ^ 64) :
    WritesBelowDp s t := packs_bytes h small

theorem groups_writesBelowDp {d : Depth} {k : Nat} (small : 16 * k < 2 ^ 64) {s t : State}
    (h : repeatOp k (packGroup d) s = .next t) : WritesBelowDp s t := by
  cases k with
  | zero =>
    obtain rfl : s = t := Host.Outcome.next.inj h
    exact writesBelowDp_of_bytes fun _ => rfl
  | succ k => exact ((doesPack_groups d k).packs s t h).writesBelowDp small

theorem zfill_writesBelowDp {n : Nat} (small : n < 2 ^ 64) (s : State) : WritesBelowDp s (zfillResult n s) := by
  intro a apart
  have moved : ((zfillResult n s).work.dp - s.work.dp).toNat = n := add_ofNat_sub _ _ small
  rw [moved] at apart
  exact byteAt_zfillResult_outside apart

/-- A sequencer step writes only what its operation writes (R170 to R176). -/
theorem seqStep_writesBelowDp {s t : State} (h : seqStep s = .next t) : WritesBelowDp s t := by
  have width := s.frame.width.isLt
  rcases seqStep_cases h with ⟨-, -, rfl⟩ | ⟨-, -, rfl⟩ | ⟨-, rfl⟩ | ⟨-, r, bulk, rfl⟩ | ⟨-, -, r, group, rfl⟩ |
    ⟨-, -, rfl⟩ | ⟨-, -, r, tail2, rfl⟩ | ⟨-, -, r, tail4, rfl⟩ | ⟨-, -, -, rfl⟩ | ⟨-, -, rfl⟩ | ⟨-, rfl⟩
  · exact writesBelowDp_of_bytes fun _ => rfl
  · exact writesBelowDp_of_bytes fun _ => rfl
  · refine writesBelowDp_of_bytes fun a => ?_
    rw [rowselResult_work_eq, byteAt_setSeq, byteAt_setWork]
  · have small : 16 * (bulkCount s / 6) < 2 ^ 64 := by
      have := bulkCount_le s
      omega
    exact (groups_writesBelowDp small bulk).setSeq _
  · exact (((doesPack_group _).packs s r group).writesBelowDp (by decide)).setSeq _
  · exact writesBelowDp_of_bytes fun _ => rfl
  · exact (((doesPack_tail2 _).packs s r tail2).writesBelowDp (by decide)).setSeq _
  · exact (((doesPack_tail4 _).packs s r tail4).writesBelowDp (by decide)).setSeq _
  · exact writesBelowDp_of_bytes fun _ => rfl
  · exact (zfill_writesBelowDp (Nat.lt_trans s.derived.linePad.isLt (by decide)) s).setSeq _
  · exact writesBelowDp_of_bytes fun _ => rfl

/-- Settles O48, phase by phase. -/
theorem blockWritesOnlyBelowItsNewDp : Obligations.BlockWritesOnlyBelowItsNewDp := by
  intro s t quiet h
  rcases blockStep_cases ((step_quiet quiet).symm.trans h) with ⟨-, h⟩ | ⟨-, rfl⟩
  · exact seqStep_writesBelowDp h
  · exact fun _ _ => rfl

end Sys2Proof.Machine
end

section
/-! Rules over all instructions: what stops one (R76), what a micro-operation keeps (R29, R167), the accumulator and the
lanes of a word (R133, R134), and the start of a run (R165). -/

namespace Sys2Proof.Machine

/-! ### What stops an instruction -/

/-- Settles O33: each primitive operation is an access guarded by the provided memory, and nothing else stops. -/
theorem onlyUnprovidedMemoryStopsAnInstruction : Obligations.OnlyUnprovidedMemoryStopsAnInstruction := by
  refine ⟨fun d slot c s missing => ?_, fun s missing => ?_, fun n s missing => ?_, exec_next_or_fault⟩
  · exact (accumulate_eq d slot c s).trans (by rw [missing, if_neg Bool.false_ne_true])
  · exact (flushWord_eq s).trans (by rw [missing, if_neg Bool.false_ne_true])
  · exact (execZfill_eq n s).trans (by rw [missing, if_neg Bool.false_ne_true])

/-! ### What a micro-operation keeps -/

/-- Settles O34: a micro-operation is a refused `BULK`, `ROWADV`, or one that keeps all but the working registers and
memory. -/
theorem microOperationsKeepTheControlState : Obligations.MicroOperationsKeepTheControlState := by
  intro i s t port h
  rcases microOp_cases port h with ⟨d, n, rfl, illegal, rfl⟩ | ⟨rfl, rfl⟩ | ⟨-, keeps⟩
  · exact ⟨rfl, rfl, rfl, rfl, rfl, rfl, rfl, rfl, rfl, fun _ => rfl, raiseErr_flags_st s _, raiseErr_flags_done s _,
      raiseErr_flags_ie s _, fun _ => ⟨d, n, rfl, illegal, rfl⟩⟩
  · exact ⟨rfl, rfl, rfl, rfl, rfl, rfl, rfl, rfl, rfl, fun other => absurd rfl other, rfl, rfl, rfl,
      fun moved => absurd rfl moved⟩
  · obtain ⟨seq, flags, frame, derived, variant, regions, inputs, reply, freeCount⟩ := keeps.rest
    rw [seq, flags]
    exact ⟨frame, derived, variant, regions, inputs, reply, freeCount, rfl, rfl, fun _ => rfl, rfl, rfl, rfl,
      fun moved => absurd rfl moved⟩

/-- Settles O35: a refused `BULK` keeps `VAL`, and every other packing operation packs, which empties it. -/
theorem packingLeavesValEmpty : Obligations.PackingLeavesValEmpty := by
  intro i s t packing val h
  obtain ⟨⟨y, u, v, o⟩, totals⟩ := Option.isSome_iff_exists.mp packing
  by_cases legal : ∀ d n, i = .bulk d n → n % groupSize s.variant d = 0
  · exact (exec_packs totals val legal h).val
  · push Not at legal
    obtain ⟨d, n, rfl, illegal⟩ := legal
    obtain rfl := Host.Outcome.next.inj ((execBulk_illegal illegal).symm.trans h)
    exact val

/-! ### The lanes of a word -/

/-- Three 10-bit values are read back from their lanes, and the two top bits are 0 (R90). -/
theorem packed_lanes {a b c : Nat} (ha : a < 1024) (hb : b < 1024) (hc : c < 1024) :
    packed a b c % 1024 = a ∧ packed a b c / 1024 % 1024 = b ∧ packed a b c / 1048576 % 1024 = c ∧
      packed a b c / 2 ^ 30 = 0 := by
  unfold packed
  omega

/-- Settles O21: the word a `WORD` leaves is the packing of its three fields, and a field keeps a sample in range. -/
theorem wordLanesAreIndependent : Obligations.WordLanesAreIndependent := by
  refine ⟨fun d p s t val h => ?_, fun v low high => clip10_of_mem low high, fun v low high => ?_⟩
  · rw [word_written val h]
    exact packed_lanes (field_lt d _) (field_lt d _) (field_lt d _)
  · rw [field_d8, clip8_of_mem low high]
    exact Nat.mul_div_cancel v (by decide)

/-! ### The start of a run -/

/-- Settles O32: a ready block whose frame fits has one outcome of `START`, and an instruction keeps the invariant. -/
theorem acceptedStartIsARunStart : Obligations.AcceptedStartIsARunStart := by
  intro s inv ready quiet fits
  obtain ⟨t, done⟩ := hostCommand_completes (i := .start) rfl s
  have sound : StateInv t := inv_exec inv (fun _ => ready) done
  rcases start_cases done with ⟨notReady, -⟩ | ⟨-, small, -⟩ | ⟨-, -, rfl⟩
  · exact absurd ready notReady
  · exact absurd fits (Nat.not_le.mpr small)
  · exact ⟨_, done, sound, rfl, rfl, rfl, rfl, rfl, rfl, quiet⟩

end Sys2Proof.Machine
end

section
/-! Runs: the steps of a row as its program (R178), the end of a run (R177, R179), the bytes it may write (R74), its
independence of the sample factors (R183), and the pointers of a row (R180). -/

namespace Sys2Proof.Machine

/-! ### A row -/

/-- A sound running block at `CHK` is at the start of a row. -/
theorem StateInv.rowStart {s : State} (inv : StateInv s) (busy : s.flags.st = .busy) (quiet : s.inputs = [])
    (chk : s.seq.phase = .chk) : RowStart s where
  busy := busy
  quiet := quiet
  phase := chk
  col := by
    have position := (inv.run busy).position
    simp only [PositionOk, chk] at position
    exact BitVec.eq_of_toNat_eq position.2
  setup := inv.setup (by simp [busy])

/-- Settles O49: the steps of a row and its program are both its line operation. -/
theorem rowStepsRunTheLineProgram : Obligations.RowStepsRunTheLineProgram := by
  intro s inv busy quiet chk more
  have steps : repeatOp (rowSteps s) step s = runOps (lineProgram s) s :=
    (row_steps (inv.rowStart busy quiet chk) more).trans (runOps_lineProgram s).symm
  exact (run_eq_repeat _ s).trans steps

/-! ### The end of a run -/

/-- With `FMT = 1` the chroma row of output row `h` is `h / 2` (R180). -/
theorem chromaRow_fmt1 {f : FrameRegs} (fmt : f.fmt = 1) (base stride : Addr) (h : Nat) :
    chromaRow f base stride h = base + BitVec.ofNat 64 (h / 2) * stride := by
  rw [chromaRow, crow, if_pos fmt]

/-- Before its completing step a run is `BUSY` (R177): in the rows, and at the `CHK` that ends it. -/
theorem run_busy {s : State} (start : RunStart s) (provided : BuffersProvided s) {n : Nat} (hn : n < runSteps s) :
    ∃ r, Sys2Proof.core.run n s = .next r ∧ r.flags.st = .busy := by
  obtain ⟨t, rows, -, -, row, busy, -⟩ := run_end start provided
  rw [run_eq_repeat]
  obtain ⟨m, total⟩ : ∃ m, s.frame.height.toNat * rowSteps s = n + m := Nat.exists_eq_add_of_le (Nat.le_of_lt_succ hn)
  obtain ⟨r, first, -⟩ := repeatOp_prefix (total ▸ rows)
  refine ⟨r, first, ?_⟩
  by_cases inRows : n < s.frame.height.toNat * rowSteps s
  · exact busy n inRows r first
  · have last : n = s.frame.height.toNat * rowSteps s := by omega
    rw [last, rows] at first
    obtain rfl := Host.Outcome.next.inj first
    exact (row.start start).busy

/-- Settles O50: the end state differs in the flags alone from the state at the start of row `HEIGHT`. -/
theorem runCompletes : Obligations.RunCompletes := by
  intro s start provided h chromaRowsPassed
  have setup := start.inv.setup (by simp [start.busy])
  obtain ⟨t, -, finished, -, row, -, -⟩ := run_end start provided
  obtain ⟨seq, flags, frame, derived, variant, -⟩ := row.rest
  refine ⟨fun n hn => run_busy start provided hn, _, (run_eq_repeat _ s).trans finished, ?_, fun ie => ?_, ?_, row.yp,
    row.up, row.vp, fun fmt some => ?_, row.uncaptured, row.val, ?_, frame, derived, variant⟩
  · rw [flags]
    rfl
  · have kept : t.flags.ie = true := (congrArg StatusFlags.ie flags).trans ie
    simp [StatusFlags.irq, kept]
  · have size : BitVec.ofNat 64 (frameSizeOf s.frame.width.toNat s.frame.height.toNat) = s.derived.frameSize := by
      rw [← setup.frameSize, BitVec.ofNat_toNat, BitVec.setWidth_eq]
    exact row.dp.trans (congrArg (s.frame.dstBase + ·) size)
  · rw [← chromaRow_fmt1 fmt, ← chromaRow_fmt1 fmt]
    exact row.captured fmt some
  · refine seq.trans ?_
    rw [State.setSeq_seq, BitVec.ofNat_toNat, BitVec.setWidth_eq]

/-- Settles O51: at the end of the rows a byte outside the destination is as at the start, and the completing step writes
none. -/
theorem runWritesOnlyItsDestination : Obligations.RunWritesOnlyItsDestination := by
  intro s start provided
  obtain ⟨t, -, finished, -, row, -, -⟩ := run_end start provided
  exact ⟨_, (run_eq_repeat _ s).trans finished, row.bytes⟩

/-! ### The sample factors -/

/-- The start of a run under other legal sample factors (R9). -/
theorem RunStart.withVariant {s : State} (start : RunStart s) {v : Variant} (h8 : 1 ≤ v.sf8.toNat)
    (h10 : 1 ≤ v.sf10.toNat) : RunStart { s with variant := v } where
  inv :=
    { memWf := start.inv.memWf
      factors := ⟨h8, h10⟩
      errCode := start.inv.errCode
      valPad := start.inv.valPad
      setup := fun configured => (start.inv.setup configured).congr rfl rfl rfl rfl
      run := fun busy =>
        { fits := (start.inv.run busy).fits
          valZero := (start.inv.run busy).valZero
          position := (start.inv.run busy).position } }
  busy := start.busy
  position := start.position
  luma := start.luma
  chromaU := start.chromaU
  chromaV := start.chromaV
  dest := start.dest
  quiet := start.quiet

/-- The host's buffers do not depend on the sample factors. -/
theorem BuffersProvided.withVariant {s : State} (provided : BuffersProvided s) (v : Variant) :
    BuffersProvided { s with variant := v } := ⟨provided.sources, provided.dest⟩

/-- Settles O54: both runs are `HEIGHT` line operations and a completing step, and a line operation does not look at the
sample factors. -/
theorem runDoesNotDependOnTheVariant : Obligations.RunDoesNotDependOnTheVariant := by
  intro s v start provided _ h8 h10
  obtain ⟨t, -, finished, lines, -⟩ := run_end start provided
  obtain ⟨t', -, finished', lines', -⟩ := run_end (start.withVariant h8 h10) (provided.withVariant v)
  have same := (commutes_variant_lineOp v (depthOfFmt s.frame.fmt) s.frame.width.toNat).repeat s.frame.height.toNat s
  rw [lines] at same
  obtain rfl := Host.Outcome.next.inj (same.symm.trans lines')
  exact ⟨_, (run_eq_repeat _ s).trans finished, (run_eq_repeat _ _).trans finished'⟩

/-! ### The pointers of a row -/

/-- The `CHK` and `SEL` steps at the start of a row run its `ROWSEL` (R170, R171). -/
theorem two_steps_rowsel {s : State} (start : RowStart s) (more : s.seq.row ≠ s.frame.height) :
    repeatOp 2 step s = .next ((rowselResult s).setSeq ⟨s.seq.row, .bulk, 0⟩) := by
  have steps := ((part_chk start more).compose (part_sel start)).steps s (KeepsRest.rfl' s)
  rwa [State.setSeq_self, ret_andThen, execRowsel_eq] at steps

/-- Settles O55: after `h` rows the run is at the start of row `h`, and its `ROWSEL` puts the chroma pointers at their
row. -/
theorem rowReadsFromItsSourceRows : Obligations.RowReadsFromItsSourceRows := by
  intro s h start provided _ hh
  have small : h < 65536 := Nat.lt_trans hh s.frame.height.isLt
  obtain ⟨r, rows, -, row, -, -⟩ := rows_complete start provided h (Nat.le_of_lt hh)
  obtain ⟨yp, -, -, up, vp, -⟩ := rowsel_at small row
  have more : r.seq.row ≠ r.frame.height := by
    intro last
    have := congrArg BitVec.toNat last
    rw [row.row small, row.frame] at this
    omega
  have number : r.seq.row = BitVec.ofNat 16 h := by rw [row.rest.seq, State.setSeq_seq]
  have steps : repeatOp (h * rowSteps s + 2) step s =
      .next ((rowselResult r).setSeq ⟨BitVec.ofNat 16 h, .bulk, 0⟩) := by
    rw [repeatOp_add, andThen_of_next rows, two_steps_rowsel (row.start start) more, number]
  exact ⟨_, (run_eq_repeat _ s).trans steps, rfl, yp.trans row.yp, up, vp⟩

end Sys2Proof.Machine
end

section
/-! The register port: what a read returns (R31 to R49), what a write stores and where it is refused (R47, R48), the command
registers (R167, R168), errors (R215), the host's bytes (R85, R245), and whose turn it is (R169). -/

namespace Sys2Proof.Machine

/-! ### Numbers in a register -/

/-- A field of at most 32 bits is read zero-extended. -/
theorem toNat_zeroExtend {k : Nat} (x : BitVec k) (narrow : k ≤ 32) : (BitVec.ofNat 32 x.toNat).toNat = x.toNat :=
  Nat.mod_eq_of_lt (Nat.lt_of_lt_of_le x.isLt (Nat.pow_le_pow_right (by decide) narrow))

theorem toNat_ofBool (b : Bool) : (BitVec.ofNat 32 b.toNat).toNat = b.toNat := by cases b <;> rfl

theorem toNat_getHalf_lo (q : BitVec 64) : (getHalf .lo q).toNat = q.toNat % 2 ^ 32 := rfl

theorem toNat_getHalf_hi (q : BitVec 64) : (getHalf .hi q).toNat = q.toNat / 2 ^ 32 := by
  have := q.isLt
  exact Nat.mod_eq_of_lt (by omega)

/-- The half written is read back (R48). -/
theorem getHalf_putHalf_same (h : Half) (q : BitVec 64) (v : Word32) : getHalf h (putHalf h q v) = v := by
  have := q.isLt
  have := v.isLt
  apply BitVec.eq_of_toNat_eq
  cases h with
  | lo =>
    rw [toNat_getHalf_lo, putHalf, BitVec.toNat_ofNat]
    omega
  | hi =>
    rw [toNat_getHalf_hi, putHalf, BitVec.toNat_ofNat]
    omega

/-- The half not written is read as before (R48). -/
theorem getHalf_putHalf_other {h h' : Half} (other : h' ≠ h) (q : BitVec 64) (v : Word32) :
    getHalf h' (putHalf h q v) = getHalf h' q := by
  have := q.isLt
  have := v.isLt
  apply BitVec.eq_of_toNat_eq
  cases h with
  | lo =>
    obtain rfl : h' = .hi := by cases h' <;> [exact absurd rfl other; rfl]
    rw [toNat_getHalf_hi, toNat_getHalf_hi, putHalf, BitVec.toNat_ofNat]
    omega
  | hi =>
    obtain rfl : h' = .lo := by cases h' <;> [rfl; exact absurd rfl other]
    rw [toNat_getHalf_lo, toNat_getHalf_lo, putHalf, BitVec.toNat_ofNat]
    omega

/-! ### What a read returns -/

/-- Settles O59, by looking up each offset. -/
theorem registerMapOffsets : Obligations.RegisterMapOffsets := by
  refine ⟨?_, ?_, ?_⟩ <;> decide

/-- Settles O60: each register is read zero-extended, or half by half. -/
theorem readsReturnTheirQuantity : Obligations.ReadsReturnTheirQuantity := by
  intro s halves
  have both (r : Half → Reg) (q : Addr) (reads : ∀ h, (r h).value s = getHalf h q) : halves r q :=
    ⟨by rw [reads, toNat_getHalf_lo], by rw [reads, toNat_getHalf_hi]⟩
  have variant : (Reg.variant.value s).toNat = s.variant.sf10.toNat * 16 + s.variant.sf8.toNat :=
    Nat.mod_eq_of_lt (by omega)
  refine ⟨⟨rfl, rfl, toNat_ofBool _, toNat_zeroExtend _ (by decide), toNat_zeroExtend _ (by decide),
    toNat_zeroExtend _ (by decide), toNat_ofBool _, by omega, by omega, toNat_zeroExtend _ (by decide),
    toNat_zeroExtend _ (by decide), both _ _ fun _ => rfl⟩, ?_, ?_⟩
  · exact ⟨both _ _ fun _ => rfl, both _ _ fun _ => rfl, both _ _ fun _ => rfl, both _ _ fun _ => rfl,
      both _ _ fun _ => rfl, both _ _ fun _ => rfl, both _ _ fun _ => rfl, both _ _ fun _ => rfl⟩
  · exact ⟨both _ _ fun _ => rfl, both _ _ fun _ => rfl, both _ _ fun _ => rfl, both _ _ fun _ => rfl,
      both _ _ fun _ => rfl, both _ _ fun _ => rfl, rfl, toNat_zeroExtend _ (by decide), toNat_zeroExtend _ (by decide)⟩

/-- `STATUS` is below 32: its reserved bits are 0 (R33). -/
theorem StatusFlags.status_lt (f : StatusFlags) : f.status < 32 := by
  have := f.st.code_lt
  have := f.done.toNat_le
  have := f.err.toNat_le
  have := f.irq.toNat_le
  unfold StatusFlags.status
  omega

theorem toNat_status_value (s : State) : (Reg.status.value s).toNat = s.flags.status :=
  Nat.mod_eq_of_lt (Nat.lt_trans s.flags.status_lt (by decide))

/-- Settles O43: `STATUS` is the sum of its fields at their places, and the codes are evaluated. -/
theorem statusFieldsAndIrq : Obligations.StatusFieldsAndIrq := by
  intro s v
  have value : v = s.flags.status := toNat_status_value s
  have st : v % 4 = s.flags.st.code := by rw [value, s.flags.status_mod_four]
  have fields : v / 4 % 2 = s.flags.done.toNat ∧ v / 8 % 2 = s.flags.err.toNat ∧ v / 16 % 2 = s.flags.irq.toNat ∧
      v / 32 = 0 := by
    have := s.flags.st.code_lt
    have := s.flags.done.toNat_le
    have := s.flags.err.toNat_le
    have := s.flags.irq.toNat_le
    rw [value, StatusFlags.status]
    omega
  have errcode (c : ErrCode) (h : s.flags.errcode = c) : Reg.errcode.value s = BitVec.ofNat 32 c.code := by
    rw [Reg.value, h]
  have phase (p : Phase) (h : s.seq.phase = p) : Reg.phase.value s = BitVec.ofNat 32 p.code := by
    rw [Reg.value, h]
  have irq : s.flags.irq = true ↔ s.flags.ie = true ∧ (s.flags.done = true ∨ s.flags.err = true) := by
    simp [StatusFlags.irq]
  obtain ⟨done, err, level, reserved⟩ := fields
  refine ⟨done, err, level, reserved, irq, ?_, ?_, ?_, errcode _, errcode _, errcode _, errcode _, errcode _, errcode _,
    phase _, phase _, phase _, phase _, phase _, phase _, phase _⟩ <;>
  · intro h
    rw [st, h]
    rfl

/-- No register is read from the list of host actions. -/
theorem value_setInputs (s : State) (l : List Input) (r : Reg) : r.value (s.setInputs l) = r.value s := by
  cases r <;> rfl

/-- Settles O42: a due read of a mapped register fills the reply and nothing else. -/
theorem readsHaveNoSideEffect : Obligations.ReadsHaveNoSideEffect := by
  intro s q slot r mapped due
  obtain ⟨rest, rfl⟩ := due.inputs
  refine ⟨_, due_read_step due, ?_, rfl⟩
  rw [readOffset_mapped mapped, value_setInputs, State.setReply_reply]

/-! ### What a write does -/

theorem writeOffset_mapped {o : Nat} {r : Reg} (h : regAt o = some r) (v : Word32) (s : State) :
    writeOffset o v s = writeReg v r s := by
  simp only [writeOffset, h]

section
variable {r : Reg} (v : Word32) (s : State)

theorem writeReg_free (h : r.cls = .free) : writeReg v r s = .next (r.put v s) := by
  simp only [writeReg, h]

theorem writeReg_setup (h : r.cls = .setup) :
    writeReg v r s =
      if s.flags.st = .busy then .next (raiseErr .hostProtocol s) else .next (setSt .unconf (r.put v s)) := by
  simp only [writeReg, h, writeSetup]

/-- Per-frame and working registers are written alike (R47). -/
theorem writeReg_unlessBusy (h : r.cls = .perFrame ∨ r.cls = .working) :
    writeReg v r s = if s.flags.st = .busy then .next (raiseErr .hostProtocol s) else .next (r.put v s) := by
  rcases h with h | h <;> simp only [writeReg, h, writeUnlessBusy]

theorem writeReg_readOnly (h : r.cls = .readOnly) : writeReg v r s = .next (raiseErr .hostProtocol s) := by
  simp only [writeReg, h]

end

/-- Settles O39: the registers of each class, and the write to each class from its equation. -/
theorem writeClassesOfTheRegisters : Obligations.WriteClassesOfTheRegisters := by
  refine ⟨?_, ?_, ?_, ?_, ?_, ?_, fun s q slot v r mapped due => ?_⟩
  iterate 6
    intro r
    cases r <;> simp [Reg.cls]
  have written : step s = writeReg v r q := (due_write_step due).trans (writeOffset_mapped mapped v q)
  obtain ⟨rest, rfl⟩ := due.inputs
  rw [written]
  refine ⟨writeReg_free v _, fun setup busy => ?_, fun setup idle => ?_, fun inFrame busy => ?_, fun inFrame idle => ?_,
    writeReg_readOnly v _⟩
  · exact (writeReg_setup v _ setup).trans (if_pos busy)
  · exact (writeReg_setup v _ setup).trans (if_neg idle)
  · exact (writeReg_unlessBusy v _ inFrame).trans (if_pos busy)
  · exact (writeReg_unlessBusy v _ inFrame).trans (if_neg idle)

/-! ### The store of a register -/

/-- A bit register stores the low bit (R36, R40). -/
theorem toNat_lowBit (n : Nat) : (decide (n % 2 = 1)).toNat = n % 2 ^ 1 := by
  rcases Nat.mod_two_eq_zero_or_one n with h | h <;> simp [h]

/-- A register that stores writes reads back the bits it stores (R48). -/
theorem toNat_value_put_same {r : Reg} (stores : r.cls ≠ .readOnly) (plain : r.cls ≠ .command) (v : Word32) (s : State) :
    (r.value (r.put v s)).toNat = v.toNat % 2 ^ bitsStored r := by
  cases r with
  | inten | framectl => exact (toNat_ofBool _).trans (toNat_lowBit v.toNat)
  | format | width | height | row => exact (toNat_zeroExtend _ (by decide)).trans (BitVec.toNat_ofNat ..)
  | yBase h | uBase h | vBase h | yStride h | uStride h | vStride h | dstBase h | dstSize h | yp h | up h | vp h | dp h
  | uc h | vc h =>
    exact (congrArg BitVec.toNat (getHalf_putHalf_same h _ v)).trans (Nat.mod_eq_of_lt v.isLt).symm
  | ctrl | cmd => exact absurd rfl plain
  | status | errcode | variant | lineStride | linePad | frameSize | val | col | phase => exact absurd rfl stores

/-- A store is seen in no register but its own and, from `INTEN`, in `STATUS` (R47, R48, R219). -/
theorem value_put_other {r r' : Reg} (other : r' ≠ r) (status : r' = .status → r ≠ .inten) (v : Word32) (s : State) :
    r'.value (r.put v s) = r'.value s := by
  cases r with
  | inten =>
    cases r' with
    | inten => exact absurd rfl other
    | status => exact absurd rfl (status rfl)
    | _ => rfl
  | format | width | height | framectl | row =>
    cases r' <;> first | rfl | exact absurd rfl other
  | yBase h | uBase h | vBase h | yStride h | uStride h | vStride h | dstBase h | dstSize h | yp h | up h | vp h | dp h
  | uc h | vc h =>
    cases r' <;> first | rfl | exact getHalf_putHalf_other (fun same => other (congrArg _ same)) _ v
  | ctrl | cmd | status | errcode | variant | lineStride | linePad | frameSize | val | col | phase => rfl

/-- Of the flags a store can change `IE` alone. -/
theorem put_keeps_flags (v : Word32) (s : State) (r : Reg) :
    (r.put v s).flags.st = s.flags.st ∧ (r.put v s).flags.done = s.flags.done ∧
      (r.put v s).flags.err = s.flags.err ∧ (r.put v s).flags.errcode = s.flags.errcode := by
  cases r <;> exact ⟨rfl, rfl, rfl, rfl⟩

theorem byteAt_put (v : Word32) (s : State) (r : Reg) (a : Addr) : (r.put v s).byteAt a = s.byteAt a := by
  cases r <;> rfl

/-- `ST` is read in `STATUS` alone (R30, R33). -/
theorem value_setSt {r : Reg} (other : r ≠ .status) (st : RunState) (s : State) : r.value (setSt st s) = r.value s := by
  cases r with
  | status => exact absurd rfl other
  | _ => rfl

/-- A register that stores writes is free, a setup register, or one written unless `BUSY` (R47). -/
theorem storing_cases {r : Reg} (stores : r.cls ≠ .readOnly) (plain : r.cls ≠ .command) :
    r.cls = .free ∨ r.cls = .setup ∨ r.cls = .perFrame ∨ r.cls = .working := by
  cases h : r.cls <;> simp_all

/-- The step of an accepted write stores the value and, for a setup register, leaves the block `UNCONF` (R47). -/
theorem accepted_write_step {r : Reg} {slot : Nat} {v : Word32} {s q : State} (stores : r.cls ≠ .readOnly)
    (plain : r.cls ≠ .command) (mapped : regAt (4 * slot) = some r) (due : Due s (.write slot v) q)
    (accepted : r.cls = .free ∨ s.flags.st ≠ .busy) :
    step s = .next (if r.cls = .setup then setSt .unconf (r.put v q) else r.put v q) := by
  have written : step s = writeReg v r q := (due_write_step due).trans (writeOffset_mapped mapped v q)
  obtain ⟨rest, rfl⟩ := due.inputs
  have idle (bound : r.cls ≠ .free) : (s.setInputs rest).flags.st ≠ .busy := accepted.resolve_left bound
  rw [written]
  rcases storing_cases stores plain with cls | cls | cls
  · rw [writeReg_free _ _ cls, if_neg (by simp [cls])]
  · rw [writeReg_setup _ _ cls, if_neg (idle (by simp [cls])), if_pos cls]
  · have unlocked : r.cls ≠ .free ∧ r.cls ≠ .setup := by rcases cls with h | h <;> simp [h]
    rw [writeReg_unlessBusy _ _ cls, if_neg (idle unlocked.1), if_neg unlocked.2]

/-- Settles O40: the store itself, and the step of an accepted write, which is the store and, for a setup register, `ST`. -/
theorem writtenRegisterReadsBack : Obligations.WrittenRegisterReadsBack := by
  intro r v s stores plain
  obtain ⟨st, done, err, errcode⟩ := put_keeps_flags v s r
  refine ⟨⟨toNat_value_put_same stores plain v s, fun r' other status => value_put_other other status v s, st, done, err,
    errcode, byteAt_put v s r⟩, fun slot q mapped due accepted => ?_⟩
  refine ⟨_, accepted_write_step stores plain mapped due accepted, ?_⟩
  obtain ⟨rest, rfl⟩ := due.inputs
  obtain ⟨st, done, err, errcode⟩ := put_keeps_flags v (s.setInputs rest) r
  have same := toNat_value_put_same stores plain v (s.setInputs rest)
  have others {r' : Reg} (other : r' ≠ r) (status : r' = .status → r ≠ .inten) :
      r'.value (r.put v (s.setInputs rest)) = r'.value s := by
    rw [value_put_other other status, value_setInputs]
  by_cases setup : r.cls = .setup
  · have notStatus : r ≠ .status := by
      rintro rfl
      cases setup
    rw [if_pos setup, if_pos setup, value_setSt notStatus]
    refine ⟨same, fun r' other status => ?_, rfl, done, err, errcode, byteAt_put v _ r⟩
    have hidden : r' ≠ .status := fun h => (status h).2 setup
    rw [value_setSt hidden, others other fun h => absurd h hidden]
  · rw [if_neg setup, if_neg setup]
    exact ⟨same, fun r' other status => others other fun h => (status h).1, st, done, err, errcode, byteAt_put v _ r⟩

end Sys2Proof.Machine
end

section
/-! Whose turn it is (R169), the command registers (R167, R168) and a placed word, the first error (R215), and the host's
access to the bytes of a running frame (R85, R245). -/

namespace Sys2Proof.Machine

/-! ### Turns -/

/-- While an action waits for its block steps a running block takes one of its own (R169). -/
theorem step_waiting {s : State} {k : Nat} {a : HostAct} {rest : List Input} (waits : s.inputs = ⟨k + 1, a⟩ :: rest)
    (busy : s.flags.st = .busy) : step s = seqStep (s.setInputs (⟨k, a⟩ :: rest)) := by
  simp [step, takeTurn, waits, busy, blockStep]

/-- Settles O14, by the head of the input list. -/
theorem turnsFollowTheInputList : Obligations.TurnsFollowTheInputList :=
  ⟨fun _ _ _ => due_step, fun _ _ _ _ => step_waiting, fun _ => step_busy, fun _ => step_idle⟩

/-- Settles O37, by the flag that guards the store of the code. -/
theorem firstErrorIsKept : Obligations.FirstErrorIsKept := by
  refine fun c s => ⟨fun clear => ?_, raiseErr_of_err s c⟩
  rw [raiseErr, raiseFlags, clear, if_neg Bool.false_ne_true]

/-! ### The command registers -/

theorem writeOffset_ctrl (v : Word32) (s : State) : writeOffset (4 * 0) v s = writeCtrl v s := rfl

theorem writeOffset_cmd (v : Word32) (s : State) : writeOffset (4 * 9) v s = writeCmd v s := rfl

section
variable {v : Word32} {s : State}

theorem writeCtrl_legal {i : Instr} (h : decodeCtrl v = .ok i) : writeCtrl v s = exec i s := by
  simp only [writeCtrl, h]

theorem writeCtrl_illegal {e : Reject} (h : decodeCtrl v = .error e) : writeCtrl v s = .next (raiseErr .illCmd s) := by
  simp only [writeCtrl, h]

/-- `ST` is checked before the word (R220). -/
theorem writeCmd_notReady (h : s.flags.st ≠ .ready) : writeCmd v s = .next (raiseErr .hostProtocol s) := by
  rw [writeCmd, if_pos h]

theorem writeCmd_legal (ready : s.flags.st = .ready) {i : Instr} (h : decodeCmd v = .ok i) : writeCmd v s = exec i s := by
  simp [writeCmd, ready, h]

theorem writeCmd_illegal (ready : s.flags.st = .ready) {e : Reject} (h : decodeCmd v = .error e) :
    writeCmd v s = .next (raiseErr .illCmd s) := by
  simp [writeCmd, ready, h]

/-- The values 1, 2 and 4 are the only legal ones (R168). -/
theorem decodeCtrl_illegal (h1 : v ≠ 1) (h2 : v ≠ 2) (h4 : v ≠ 4) : decodeCtrl v = .error .reservedCtrl := by
  rw [decodeCtrl, if_neg h1, if_neg h2, if_neg h4]

end

/-- Settles O11: the due write is a write to `CMD` or `CTRL`, with the outcomes of each. -/
theorem commandWriteRunsTheDecodedInstruction : Obligations.CommandWriteRunsTheDecodedInstruction := by
  intro s r w
  refine ⟨fun due => ?_, fun due => ?_⟩
  · have written : step s = writeCmd w r := (due_write_step due).trans (writeOffset_cmd w r)
    obtain ⟨rest, rfl⟩ := due.inputs
    rw [written]
    exact ⟨writeCmd_notReady (s := s.setInputs rest), fun ready i => writeCmd_legal (s := s.setInputs rest) ready,
      fun ready e => writeCmd_illegal (s := s.setInputs rest) ready⟩
  · have written : step s = writeCtrl w r := (due_write_step due).trans (writeOffset_ctrl w r)
    rw [written]
    refine ⟨?_, ?_, ?_, fun h1 h2 h4 => writeCtrl_illegal (decodeCtrl_illegal h1 h2 h4)⟩
    · rintro rfl
      exact writeCtrl_legal (by decide)
    · rintro rfl
      exact writeCtrl_legal (by decide)
    · rintro rfl
      exact writeCtrl_legal (by decide)

/-! ### A placed word -/

/-- A write placed in front of the list is due, and the state it meets is the one it was placed in. -/
theorem due_withHostWrite (s : State) (slot : Nat) (v : Word32) : Due (s.withHostWrite slot v) (.write slot v) s :=
  ⟨0, s.inputs, rfl, .inl rfl, rfl⟩

/-- A table word is a `CTRL` value, or else a `CMD` word (log entry 13). -/
theorem decodeTableWord_cases {w : Nat} {i : Instr} (h : decodeTableWord 32 w = some i) :
    decodeCtrl (BitVec.ofNat 32 (w % 2 ^ 32)) = .ok i ∨
      (∃ e, decodeCtrl (BitVec.ofNat 32 (w % 2 ^ 32)) = .error e) ∧ decodeCmd (BitVec.ofNat 32 (w % 2 ^ 32)) = .ok i := by
  have fits : w % 2 ^ 32 < 2 ^ 32 := Nat.mod_lt _ (by decide)
  simp only [decodeTableWord, if_pos fits] at h
  cases ctrl : decodeCtrl (BitVec.ofNat 32 (w % 2 ^ 32)) with
  | ok j =>
    rw [ctrl] at h
    exact .inl (congrArg Except.ok (Option.some.inj h))
  | error e =>
    rw [ctrl] at h
    cases cmd : decodeCmd (BitVec.ofNat 32 (w % 2 ^ 32)) with
    | ok j =>
      rw [cmd] at h
      exact .inr ⟨⟨e, rfl⟩, congrArg Except.ok (Option.some.inj h)⟩
    | error e' =>
      rw [cmd] at h
      cases h

/-- Settles O12: the placed write is due, to the register of the instruction, with `ST = READY` for `CMD`. -/
theorem placedTableWordRunsNext : Obligations.PlacedTableWordRunsNext := by
  intro s w i _ h
  rcases decodeTableWord_cases h with ctrl | ⟨⟨e, notCtrl⟩, cmd⟩
  · obtain ⟨port, -, -⟩ := decodeCtrl_ok ctrl
    have other : i.port ≠ .cmd := by simp [port]
    simp only [State.withFetchWord, ctrl, if_neg other]
    rw [due_write_step (due_withHostWrite s 0 _), writeOffset_ctrl, writeCtrl_legal ctrl]
  · obtain ⟨-, port, -, -, -⟩ := decodeCmd_ok cmd
    simp only [State.withFetchWord, notCtrl, if_pos port]
    rw [due_write_step (due_withHostWrite (setSt .ready s) 9 _), writeOffset_cmd, writeCmd_legal rfl cmd]

/-! ### The host and the bytes of a running frame -/

theorem mayPoke_iff (a : Addr) (s : State) :
    mayPoke a s = true ↔ s.flags.st ≠ .busy ∨ (inSource s.frame a = false ∧ inDest s a = false) := by
  simp [mayPoke]

theorem mayPeek_iff (a : Addr) (s : State) : mayPeek a s = true ↔ s.flags.st ≠ .busy ∨ inDest s a = false := by
  simp [mayPeek]

/-- A due byte write is carried out where the host may write, else refused (R85, R245). -/
theorem due_poke_step {s r : State} {a : Addr} {b : Byte} (due : Due s (.poke a b) r) :
    step s = if mayPoke a s then .next (r.setMem (r.mem.write a.toNat b)) else .refused .hostTouchesBuffer := by
  obtain ⟨rest, rfl⟩ := due.inputs
  exact due_step due

/-- A due byte read is carried out where the host may read, else refused (R85, R245). -/
theorem due_peek_step {s r : State} {a : Addr} (due : Due s (.peek a) r) :
    step s = if mayPeek a s then .next (r.setReply (some (BitVec.ofNat 32 (s.byteAt a).toNat)))
      else .refused .hostTouchesBuffer := by
  obtain ⟨rest, rfl⟩ := due.inputs
  exact due_step due

/-- Settles O47: the two outcomes of a byte write and of a byte read, by the test of each. -/
theorem hostMayNotTouchRunningBuffers : Obligations.HostMayNotTouchRunningBuffers := by
  refine ⟨fun s r a b due busy buffer => ?_, fun s r a due busy dest => ?_, fun s r a b due free => ?_,
    fun s r a due free => ?_⟩
  · have barred : ¬ mayPoke a s = true := by
      rw [mayPoke_iff]
      rcases buffer with source | dest
      · simp [busy, source]
      · simp [busy, dest]
    rw [due_poke_step due, if_neg barred]
  · have barred : ¬ mayPeek a s = true := by
      rw [mayPeek_iff]
      simp [busy, dest]
    rw [due_peek_step due, if_neg barred]
  · have step_eq := (due_poke_step due).trans (if_pos ((mayPoke_iff a s).mpr free))
    obtain ⟨rest, rfl⟩ := due.inputs
    refine ⟨_, step_eq, ?_, fun x other => ?_, rfl⟩
    · rw [byteAt_setMem_write, if_pos rfl]
    · rw [byteAt_setMem_write, if_neg other, byteAt_setInputs]
  · exact (due_peek_step due).trans (if_pos ((mayPeek_iff a s).mpr free))

end Sys2Proof.Machine
end
